-- ==== Sys2Proof/Word.lean ====
section
/-! DEFINITION. The words of the block: the 8-bit byte of every register and bus transfer (R11, R13) and the 16-bit command code (R80, R250). -/
namespace Sys2Proof

/-- `u8` (R13): a register, a bus byte, a sample. -/
abbrev Byte := BitVec 8

/-- `u16` (R13): a command code (R80 item 2). -/
abbrev Code := BitVec 16

/-- A frame: a finite byte sequence, oldest byte first (R53). -/
abbrev Frame := List Byte

end Sys2Proof
end

