-- ==== Sys2Proof/Config.lean ====
section
/-! DEFINITION. The configuration record `Cfg` of R10 as plain data: transport mode, register map, CRC parameters, command table, stream bindings and measurement channels. Functions the spec leaves to the device (P_PROVIDERS, P_OBSERVERS, handlers, P_DMA_ADDR) are named here by a number; Machine/Free.lean declares them as constants with no body. -/
namespace Sys2Proof

/-- P_MODE (R4): the one transport an instance exposes. -/
inductive Mode where
  | spiReg
  | spiSample
  | i2cReg
  | i2cCmd
  deriving DecidableEq, Repr, Inhabited

/-- P_ADDR_WRAP (R10, R15). -/
inductive Wrap where
  | modulo
  | unbounded
  deriving DecidableEq, Repr, Inhabited

/-- P_NOADDR_READ (R10, R234): the answer to a read with no address or no pending command. -/
inductive NoAddrRead where
  | empty
  | zeroFilled
  deriving DecidableEq, Repr, Inhabited

/-- P_SPI_CS_GATING (R10, R205). -/
inductive Gating where
  | ignore
  | drop
  deriving DecidableEq, Repr, Inhabited

/-- P_TRIGGER_COND (R10, R291). -/
inductive TriggerCond where
  | anyWrite
  | writeNonzero
  deriving DecidableEq, Repr, Inhabited

/-- The access mode of a field (R161). -/
inductive Access where
  | read
  | write
  | readWrite
  | reservedConstant
  deriving DecidableEq, Repr, Inhabited

/-- A value-provider (R163): a core provider of `45_streaming.md`, or the device's provider number `id`. -/
inductive Provider where
  | burst
  | length (k : Nat)
  | device (id : Nat)
  deriving DecidableEq, Repr, Inhabited

/-- A write-observer (R164): a core observer of `45_streaming.md`, or the device's observer number `id`. -/
inductive Observer where
  | capture
  | dmaEnable
  | device (id : Nat)
  deriving DecidableEq, Repr, Inhabited

/-- A field declaration (R161). Offset and width are natural numbers, so that an ill-formed map (R320 check 1) can be written down and refused. -/
structure FieldDecl where
  off  : Nat
  w    : Nat
  acc  : Access
  const : Byte := 0
  prov : Option Provider := none
  obs  : Option Observer := none
  deriving DecidableEq, Repr, Inhabited

/-- A register declaration (R160). -/
structure RegDecl where
  addr   : Nat
  reset  : Byte
  fields : List FieldDecl
  deriving DecidableEq, Repr, Inhabited

/-- A register field named by its register's address and its own bit offset: P_TRIGGER_FIELD and its like (R10). Fields of one register do not overlap (R162), so the offset names the field. -/
structure FieldRef where
  addr : Nat
  off  : Nat
  deriving DecidableEq, Repr, Inhabited

/-- The CRC parameters (R10, R141), as numbers so that a value that does not fit the width can be refused (R320 check 2). -/
structure CrcParams where
  width  : Nat
  poly   : Nat
  refIn  : Bool
  refOut : Bool
  init   : Nat
  xorOut : Nat
  deriving DecidableEq, Repr, Inhabited

/-- A command write handler (R261). `storePayload` puts the payload into `dev`; any other handler is the device's number `id`. DESIGN CHOICE (log entry 8). -/
inductive WriteHandler where
  | storePayload
  | device (id : Nat)
  deriving DecidableEq, Repr, Inhabited

/-- A command read handler (R260): a fixed sequence, the sequence of `b` and then `raw` repeated without end, the bytes of `dev`, or the device's number `id`. DESIGN CHOICE (log entry 8). -/
inductive ReadHandler where
  | fixed (raw : List Byte)
  | cycle (b : Byte) (raw : List Byte)
  | devBytes
  | device (id : Nat)
  deriving DecidableEq, Repr, Inhabited

/-- One registration `(code, wr?, rd?)` of the command table (R250, R320). -/
structure CmdEntry where
  code : Code
  wr   : Option WriteHandler
  rd   : Option ReadHandler
  deriving DecidableEq, Repr, Inhabited

/-- P_DMA_ADDR (R10, D41): the sum of stored register bytes, each shifted left, or the device's function number `id`. DESIGN CHOICE (log entry 8). -/
inductive DmaAddr where
  | linear (terms : List (Nat × Nat))
  | device (id : Nat)
  deriving DecidableEq, Repr, Inhabited

/-- P_RANGE_POLICY of one channel (R357). -/
inductive RangePolicy where
  | clamp
  | reject
  deriving DecidableEq, Repr, Inhabited

/-- One measurement channel: P_MEAS_IDS, P_MEAS_MIN, P_MEAS_MAX, P_RANGE_POLICY and P_MEAS_INIT (R10, R324). -/
structure MeasDecl where
  id     : Nat
  lo     : Rat
  hi     : Rat
  policy : RangePolicy
  init   : Rat
  deriving DecidableEq, Repr, Inhabited

/-- The configuration record (R10). -/
structure Cfg where
  mode          : Mode
  regmap        : List RegDecl
  regDefault    : Byte
  wrap          : Wrap
  crc           : CrcParams
  cmds          : List CmdEntry
  noAddr        : NoAddrRead
  gating        : Gating
  triggerField  : Option FieldRef
  triggerCond   : TriggerCond
  readyField    : Option FieldRef
  dma           : Bool
  streamEnField : Option FieldRef
  dmaEnField    : Option FieldRef
  dmaAddr       : DmaAddr
  hostAddrBits  : Nat
  meas          : List MeasDecl
  devInit       : List Byte
  deriving DecidableEq, Repr, Inhabited

/-- SPI_ADDR_BITS (R10). -/
def spiAddrBits : Nat := 7

/-- I2C_ADDR_BITS (R10). -/
def i2cAddrBits : Nat := 8

/-- The configuration `State.reset` holds: no register, no command, no channel. Gating IGNORE (D6) and WRITE_NONZERO (D35) are the spec's; every other value is a DESIGN CHOICE for an OPEN parameter (log entry 1). -/
def Cfg.blank : Cfg where
  mode := .spiReg
  regmap := []
  regDefault := 0
  wrap := .modulo
  crc := { width := 8, poly := 0, refIn := false, refOut := false, init := 0, xorOut := 0 }
  cmds := []
  noAddr := .zeroFilled
  gating := .ignore
  triggerField := none
  triggerCond := .writeNonzero
  readyField := none
  dma := false
  streamEnField := none
  dmaEnField := none
  dmaAddr := .linear []
  hostAddrBits := 32
  meas := []
  devInit := []

/-- The configuration errors of R355. -/
inductive CfgError where
  | badRegmap
  | badCrcParams
  | duplicateCommand (code : Code)
  | measOutOfRange (c : Nat) (v : Rat)
  | unknownChannel (c : Nat)
  | loadFailed
  deriving DecidableEq, Repr, Inhabited

end Sys2Proof
end

