-- ==== Sys2Proof/Machine/Operands.lean ====
section
/-! DEFINITION. Operand assembly with no state: bit-fields of a register byte (R13, R161), address increments (R15), and the words of a command response (R256). -/
namespace Sys2Proof.Machine

/-- The low `w` bits (R163: `2^w - 1`). -/
def widthMask (w : Nat) : Byte := BitVec.ofNat 8 (2 ^ w - 1)

/-- The bits `[off+w-1:off]` as a mask. -/
def fieldMask (off w : Nat) : Byte := widthMask w <<< off

/-- `b[off+w-1:off]` (R13). -/
def getBits (b : Byte) (off w : Nat) : Byte := (b >>> off) &&& widthMask w

/-- `b` with `v` in bits `[off+w-1:off]` (R175). -/
def setBits (b : Byte) (off w : Nat) (v : Byte) : Byte :=
  (b &&& ~~~ fieldMask off w) ||| ((v &&& widthMask w) <<< off)

/-- A field's bits of a byte. -/
def fieldOf (f : FieldDecl) (b : Byte) : Byte := getBits b f.off f.w

/-- The constant of a ReservedConstant field, a `w`-bit value (R161; log entry 17). -/
def fieldConst (f : FieldDecl) : Byte := f.const &&& widthMask f.w

/-- The bits some field covers. -/
def coveredMask : List FieldDecl → Byte
  | [] => 0
  | f :: fs => fieldMask f.off f.w ||| coveredMask fs

/-- Whether a bus write stores into the field (R175). -/
def Access.stores : Access → Bool
  | .write => true
  | .readWrite => true
  | .read => false
  | .reservedConstant => false

/-- The stored byte after a write of `b` (R175): every writable field takes its bits, every other bit stays. -/
def mergeFields (old b : Byte) : List FieldDecl → Byte
  | [] => old
  | f :: fs =>
    if Access.stores f.acc then mergeFields (setBits old f.off f.w (fieldOf f b)) b fs else mergeFields old b fs

/-- `inc(a)` (R15). -/
def incAddr (wrap : Wrap) (bits a : Nat) : Nat :=
  match wrap with
  | .modulo => (a + 1) % 2 ^ bits
  | .unbounded => a + 1

/-- An address as the pointer holds it: `bits` wide under MODULO (R35, R36). -/
def fitAddr (wrap : Wrap) (bits a : Nat) : Nat :=
  match wrap with
  | .modulo => a % 2 ^ bits
  | .unbounded => a

/-- The size of the register address space of a mode (R80 item 1). -/
def addrSpace (mode : Mode) : Nat :=
  match mode with
  | .spiReg => 2 ^ spiAddrBits
  | .spiSample => 2 ^ spiAddrBits
  | .i2cReg => 2 ^ i2cAddrBits
  | .i2cCmd => 2 ^ i2cAddrBits

/-- The answer to a read with no address or no pending command (R234, R255). -/
def fallback (policy : NoAddrRead) (n : Nat) : List Byte :=
  match policy with
  | .empty => []
  | .zeroFilled => List.replicate n 0

/-- How many raw bytes `take(N, interleave(raw))` needs (R256). -/
def rawNeeded (n : Nat) : Nat := 2 * (n / 3) + min (n % 3) 2

/-- The first `k` bytes of `b` and then `raw`, repeated without end (R260). -/
def cycleTake (b : Byte) (raw : List Byte) (k : Nat) : List Byte :=
  (List.range k).map fun i => (b :: raw).getD (i % (raw.length + 1)) b

/-- The first `k` bytes, from position `i`, of a sequence given byte by byte (R260). -/
def lazyTake (raw : Nat → Option Byte) : Nat → Nat → List Byte
  | _, 0 => []
  | i, k + 1 =>
    match raw i with
    | some b => b :: lazyTake raw (i + 1) k
    | none => []

end Sys2Proof.Machine
end

