-- ==== Sys2Proof/Machine/Crc.lean ====
section
/-! DEFINITION. The CRC engine (R140 to R149) over numbers, for every width of 8 bits or more, and the interleaving of checksums into a response (R256, R257). -/
namespace Sys2Proof.Machine

/-- `reflect_n(v)` (R149): bit `i` goes to bit `n-1-i`. -/
def reflect : Nat → Nat → Nat
  | 0, _ => 0
  | n + 1, v => (if v.testBit 0 then 2 ^ n else 0) + reflect n (v / 2)

/-- One bit step (R143). -/
def crcBit (p : CrcParams) (reg : Nat) : Nat :=
  if reg.testBit (p.width - 1) then ((reg <<< 1) % 2 ^ p.width) ^^^ p.poly else (reg <<< 1) % 2 ^ p.width

/-- `k` bit steps. -/
def crcSteps (p : CrcParams) : Nat → Nat → Nat
  | 0, reg => reg
  | k + 1, reg => crcSteps p k (crcBit p reg)

/-- One byte (R142, R143), bit-reversed first when P_CRC_REFIN. -/
def crcByte (p : CrcParams) (reg : Nat) (b : Byte) : Nat :=
  crcSteps p 8 (reg ^^^ ((if p.refIn then reflect 8 b.toNat else b.toNat) <<< (p.width - 8)))

/-- `CRC(data)` (R140). -/
def crc (p : CrcParams) (data : List Byte) : Nat :=
  let reg := data.foldl (crcByte p) p.init
  (if p.refOut then reflect p.width reg else reg) ^^^ p.xorOut

/-- The checksum byte of a word, `K(x, y)` (R116). The command engine's width is 8 (R147). -/
def wordChecksum (p : CrcParams) (x y : Byte) : Byte := BitVec.ofNat 8 (crc p [x, y])

/-- `interleave(raw)` (R256); an odd last byte has no checksum (R257). -/
def interleave (p : CrcParams) : List Byte → List Byte
  | x :: y :: raw => x :: y :: wordChecksum p x y :: interleave p raw
  | [x] => [x]
  | [] => []

end Sys2Proof.Machine
end

