-- ==== Sys2Proof/Syntax.lean ====
section
/-! DEFINITION. The operations of the block (one constructor of Instr per row of spec/opcode_table.json, R119) and the form in which they arrive at its ports (Call, R110 to R117). -/
namespace Sys2Proof

/-- `spi.st` (R35). -/
inductive SpiSt where
  | idle
  | reading
  | writing
  deriving DecidableEq, Repr, Inhabited

/-- `i2c.st` (R36). -/
inductive I2cSt where
  | idle
  | processing
  deriving DecidableEq, Repr, Inhabited

/-- The level of SPI_CS (R117, R206). -/
inductive Level where
  | asserted
  | deasserted
  deriving DecidableEq, Repr, Inhabited

/-- The target of LOAD_PATH (R327). -/
inductive Target where
  | frame
  | samples
  deriving DecidableEq, Repr, Inhabited

/-- What the ingestion collaborator answered (R327). -/
inductive LoadResult where
  | bytes (d : List Byte)
  | fail
  deriving DecidableEq, Repr, Inhabited

/-- An I2C write in mode I2C_REG (R113): a register address and data bytes, or no byte at all (R232). -/
inductive I2cFrame where
  | empty
  | write (a : BitVec 8) (data : List Byte)
  deriving DecidableEq, Repr, Inhabited

/-- An I2C write in mode I2C_CMD (R115): a code and a payload, or fewer than two bytes (R252). -/
inductive CmdFrame where
  | short (bytes : List Byte)
  | command (code : Code) (payload : List Byte)
  deriving DecidableEq, Repr, Inhabited

/-- The operations (R119). An ignored byte stays an operand, so that no bit of a transfer is dropped. -/
inductive Instr where
  | spiHdrRead (a : BitVec 7)
  | spiHdrWrite (a : BitVec 7)
  | spiDataRead (x : Byte)
  | spiDataWrite (d : Byte)
  | spiGated (x : Byte)
  | spiCs (level : Level)
  | spiFinish
  | spiSampleXchg (x : Byte)
  | i2cWrite (f : I2cFrame)
  | i2cRead (n : Nat)
  | i2cFinish
  | cmdWrite (f : CmdFrame)
  | cmdRead (n : Nat)
  | cmdFinish
  | rfRead (a : Nat)
  | rfWrite (a : Nat) (b : Byte)
  | crcCalc (data : List Byte)
  | capture (old new : Byte)
  | burstRead
  | lengthRead (k : Nat)
  | dmaEnable (old new : BitVec 1)
  | feedSample (v : Byte)
  | feedSamples (vs : List Byte)
  | addFrame (f : Frame)
  | readFrame
  | dropFrames
  | loadActive (f : Frame)
  | attachLive
  | detachLive
  | setMeas (c : Nat) (v : Rat)
  | loadPath (target : Target) (res : LoadResult)
  | registerCmd (code : Code) (wr : Option WriteHandler) (rd : Option ReadHandler)
  | reset
  deriving DecidableEq, Repr, Inhabited

/-- The ports of R119: the two buses, the host's, the configuration phase's, and the inside of the block. -/
inductive Port where
  | spi
  | i2c
  | host
  | config
  | inner
  deriving DecidableEq, Repr, Inhabited

/-- The "port" column of R119. `CAPTURE`, `BURST_READ`, `LENGTH_READ` and `DMA_ENABLE` are observers and providers, invoked inside the block. -/
def Instr.port : Instr → Port
  | .spiHdrRead _ => .spi
  | .spiHdrWrite _ => .spi
  | .spiDataRead _ => .spi
  | .spiDataWrite _ => .spi
  | .spiGated _ => .spi
  | .spiCs _ => .spi
  | .spiFinish => .spi
  | .spiSampleXchg _ => .spi
  | .i2cWrite _ => .i2c
  | .i2cRead _ => .i2c
  | .i2cFinish => .i2c
  | .cmdWrite _ => .i2c
  | .cmdRead _ => .i2c
  | .cmdFinish => .i2c
  | .rfRead _ => .inner
  | .rfWrite _ _ => .inner
  | .crcCalc _ => .inner
  | .capture _ _ => .inner
  | .burstRead => .inner
  | .lengthRead _ => .inner
  | .dmaEnable _ _ => .inner
  | .feedSample _ => .host
  | .feedSamples _ => .host
  | .addFrame _ => .host
  | .readFrame => .host
  | .dropFrames => .host
  | .loadActive _ => .host
  | .attachLive => .host
  | .detachLive => .host
  | .setMeas _ _ => .host
  | .loadPath _ _ => .host
  | .registerCmd _ _ _ => .config
  | .reset => .host

/-- What arrives from outside, before decoding. The bus forms carry the bytes on the wire (R110 to R115); `named` is an operation identified by the call itself, with typed arguments (R117); `configure` builds an instance (R320). -/
inductive Call where
  | spiExchange (b : Byte)
  | spiCs (level : Level)
  | spiFinish
  | i2cWrite (bytes : List Byte)
  | i2cRead (n : Nat)
  | i2cStop
  | named (i : Instr)
  | configure (cfg : Cfg) (cmds : List CmdEntry)
  deriving DecidableEq, Repr, Inhabited

end Sys2Proof
end

