-- ==== Sys2Proof/WellFormed.lean ====
section
/-! DEFINITION. Which operations are well formed as syntax. The conditions on a configuration (R320) are checked by the machine when an instance is built: Machine/Configure.lean. -/
namespace Sys2Proof

/-- A short frame has fewer than the two bytes of a code (R115, R252). -/
def CmdFrame.wellFormed : CmdFrame → Bool
  | .short bytes => bytes.length < 2
  | .command _ _ => true

/-- The operand checks the types do not already make: R252 for a command write. Decoding gives well-formed operations only (Laws/Ops.lean), so that no step has to stop for want of it. -/
def Instr.wellFormed : Instr → Bool
  | .spiHdrRead _ => true
  | .spiHdrWrite _ => true
  | .spiDataRead _ => true
  | .spiDataWrite _ => true
  | .spiGated _ => true
  | .spiCs _ => true
  | .spiFinish => true
  | .spiSampleXchg _ => true
  | .i2cWrite _ => true
  | .i2cRead _ => true
  | .i2cFinish => true
  | .cmdWrite f => f.wellFormed
  | .cmdRead _ => true
  | .cmdFinish => true
  | .rfRead _ => true
  | .rfWrite _ _ => true
  | .crcCalc _ => true
  | .capture _ _ => true
  | .burstRead => true
  | .lengthRead _ => true
  | .dmaEnable _ _ => true
  | .feedSample _ => true
  | .feedSamples _ => true
  | .addFrame _ => true
  | .readFrame => true
  | .dropFrames => true
  | .loadActive _ => true
  | .attachLive => true
  | .detachLive => true
  | .setMeas _ _ => true
  | .loadPath _ _ => true
  | .registerCmd _ _ _ => true
  | .reset => true

end Sys2Proof
end

