-- ==== Sys2Proof/Decode.lean ====
section
/-! DEFINITION. Decoding what arrives at a port into an operation (R110 to R123), total and rejecting by name, and the encoder, written from the same tables. -/
namespace Sys2Proof

/-- Why a call is no operation of the instance. -/
inductive DecodeError where
  /-- The mode does not expose the port (R119, D53). -/
  | portNotExposed
  /-- A bus operation was sent by name; it has a wire form (R110 to R115). -/
  | notNamed
  /-- The observer is not present in this configuration (R299: DMA_ENABLE without P_DMA). -/
  | notPresent
  /-- `configure` builds an instance; it is no row of the operation map (R320). -/
  | notAnOperation
  deriving DecidableEq, Repr, Inhabited

/-- What the decoder answers: an operation, or why there is none. -/
inductive Decoded where
  | op (i : Instr)
  | rejected (e : DecodeError)
  deriving DecidableEq, Repr, Inhabited

/-- What selects an operation beside the bytes (R119, R123). -/
structure Ctx where
  mode   : Mode
  gating : Gating
  cs     : Bool
  spiSt  : SpiSt
  dma    : Bool
  deriving DecidableEq, Repr, Inhabited

/-- Chip-select gating of an exchange (R205). -/
def Ctx.passes (x : Ctx) : Bool :=
  match x.gating with
  | .ignore => true
  | .drop => x.cs

/-- Format SPI_HDR (R110): bit 7 is RW, bits 6:0 the address. -/
def decodeHeader (b : Byte) : Instr :=
  if b.getLsbD 7 then .spiHdrRead (b.extractLsb' 0 7) else .spiHdrWrite (b.extractLsb' 0 7)

/-- An exchange in mode SPI_REG that passes gating (R209). -/
def decodeSpiReg (st : SpiSt) (b : Byte) : Instr :=
  match st with
  | .idle => decodeHeader b
  | .reading => .spiDataRead b
  | .writing => .spiDataWrite b

/-- An SPI exchange (R119, R205, R281). -/
def decodeExchange (x : Ctx) (b : Byte) : Decoded :=
  match x.mode with
  | .spiReg => if x.passes then .op (decodeSpiReg x.spiSt b) else .op (.spiGated b)
  | .spiSample => if x.passes then .op (.spiSampleXchg b) else .op (.spiGated b)
  | .i2cReg => .rejected .portNotExposed
  | .i2cCmd => .rejected .portNotExposed

/-- Format I2C_WR (R113). -/
def decodeI2cFrame : List Byte → I2cFrame
  | [] => .empty
  | a :: data => .write a data

/-- Format CMD_WR (R115): the code is big-endian (R82). -/
def decodeCmdFrame : List Byte → CmdFrame
  | hi :: lo :: payload => .command (hi ++ lo) payload
  | bytes => .short bytes

/-- An I2C write (R119). -/
def decodeI2cWrite (mode : Mode) (bytes : List Byte) : Decoded :=
  match mode with
  | .i2cReg => .op (.i2cWrite (decodeI2cFrame bytes))
  | .i2cCmd => .op (.cmdWrite (decodeCmdFrame bytes))
  | .spiReg => .rejected .portNotExposed
  | .spiSample => .rejected .portNotExposed

/-- An I2C read (R114, R119). -/
def decodeI2cRead (mode : Mode) (n : Nat) : Decoded :=
  match mode with
  | .i2cReg => .op (.i2cRead n)
  | .i2cCmd => .op (.cmdRead n)
  | .spiReg => .rejected .portNotExposed
  | .spiSample => .rejected .portNotExposed

/-- The I2C stop (R119). -/
def decodeI2cStop (mode : Mode) : Decoded :=
  match mode with
  | .i2cReg => .op .i2cFinish
  | .i2cCmd => .op .cmdFinish
  | .spiReg => .rejected .portNotExposed
  | .spiSample => .rejected .portNotExposed

/-- A signal of the SPI port (R119): exposed in both SPI modes. -/
def decodeSpiSignal (mode : Mode) (i : Instr) : Decoded :=
  match mode with
  | .spiReg => .op i
  | .spiSample => .op i
  | .i2cReg => .rejected .portNotExposed
  | .i2cCmd => .rejected .portNotExposed

/-- Which operations are identified by the call itself (R117, R119): those of the host, of the configuration phase and of the inside of the block. -/
def Instr.isNamed (i : Instr) : Bool :=
  match i.port with
  | .spi => false
  | .i2c => false
  | .host => true
  | .config => true
  | .inner => true

/-- The "selected when" column of R119, as far as the mode, the gating, the SPI state and P_DMA (R299) decide it. -/
def Instr.selected (x : Ctx) : Instr → Bool
  | .spiHdrRead _ => decide (x.mode = .spiReg) && x.passes && decide (x.spiSt = .idle)
  | .spiHdrWrite _ => decide (x.mode = .spiReg) && x.passes && decide (x.spiSt = .idle)
  | .spiDataRead _ => decide (x.mode = .spiReg) && x.passes && decide (x.spiSt = .reading)
  | .spiDataWrite _ => decide (x.mode = .spiReg) && x.passes && decide (x.spiSt = .writing)
  | .spiGated _ => (decide (x.mode = .spiReg) || decide (x.mode = .spiSample)) && !x.passes
  | .spiCs _ => decide (x.mode = .spiReg) || decide (x.mode = .spiSample)
  | .spiFinish => decide (x.mode = .spiReg) || decide (x.mode = .spiSample)
  | .spiSampleXchg _ => decide (x.mode = .spiSample) && x.passes
  | .i2cWrite _ => decide (x.mode = .i2cReg)
  | .i2cRead _ => decide (x.mode = .i2cReg)
  | .i2cFinish => decide (x.mode = .i2cReg)
  | .cmdWrite _ => decide (x.mode = .i2cCmd)
  | .cmdRead _ => decide (x.mode = .i2cCmd)
  | .cmdFinish => decide (x.mode = .i2cCmd)
  | .rfRead _ => true
  | .rfWrite _ _ => true
  | .crcCalc _ => true
  | .capture _ _ => true
  | .burstRead => true
  | .lengthRead _ => true
  | .dmaEnable _ _ => x.dma
  | .feedSample _ => true
  | .feedSamples _ => true
  | .addFrame _ => true
  | .readFrame => true
  | .dropFrames => true
  | .loadActive _ => true
  | .attachLive => true
  | .detachLive => true
  | .setMeas _ _ => true
  | .loadPath _ _ => true
  | .registerCmd _ _ _ => true
  | .reset => true

/-- The decoder (R119): port, mode and machine state, then the bytes. -/
def decode (x : Ctx) : Call → Decoded
  | .spiExchange b => decodeExchange x b
  | .spiCs level => decodeSpiSignal x.mode (.spiCs level)
  | .spiFinish => decodeSpiSignal x.mode .spiFinish
  | .i2cWrite bytes => decodeI2cWrite x.mode bytes
  | .i2cRead n => decodeI2cRead x.mode n
  | .i2cStop => decodeI2cStop x.mode
  | .named i =>
    if i.isNamed then (if i.selected x then .op i else .rejected .notPresent) else .rejected .notNamed
  | .configure _ _ => .rejected .notAnOperation

/-- The header byte of an address and a direction (R110). -/
def encodeHeader (rw : Bool) (a : BitVec 7) : Byte := BitVec.ofBool rw ++ a

/-- The bytes of an I2C_WR frame (R113). -/
def encodeI2cFrame : I2cFrame → List Byte
  | .empty => []
  | .write a data => a :: data

/-- The bytes of a CMD_WR frame (R115, R82). -/
def encodeCmdFrame : CmdFrame → List Byte
  | .short bytes => bytes
  | .command code payload => code.extractLsb' 8 8 :: code.extractLsb' 0 8 :: payload

/-- The encoder: the call an agent sends for an operation (R110 to R117). -/
def encode : Instr → Call
  | .spiHdrRead a => .spiExchange (encodeHeader true a)
  | .spiHdrWrite a => .spiExchange (encodeHeader false a)
  | .spiDataRead x => .spiExchange x
  | .spiDataWrite d => .spiExchange d
  | .spiGated x => .spiExchange x
  | .spiCs level => .spiCs level
  | .spiFinish => .spiFinish
  | .spiSampleXchg x => .spiExchange x
  | .i2cWrite f => .i2cWrite (encodeI2cFrame f)
  | .i2cRead n => .i2cRead n
  | .i2cFinish => .i2cStop
  | .cmdWrite f => .i2cWrite (encodeCmdFrame f)
  | .cmdRead n => .i2cRead n
  | .cmdFinish => .i2cStop
  | .rfRead a => .named (.rfRead a)
  | .rfWrite a b => .named (.rfWrite a b)
  | .crcCalc data => .named (.crcCalc data)
  | .capture old new => .named (.capture old new)
  | .burstRead => .named .burstRead
  | .lengthRead k => .named (.lengthRead k)
  | .dmaEnable old new => .named (.dmaEnable old new)
  | .feedSample v => .named (.feedSample v)
  | .feedSamples vs => .named (.feedSamples vs)
  | .addFrame f => .named (.addFrame f)
  | .readFrame => .named .readFrame
  | .dropFrames => .named .dropFrames
  | .loadActive f => .named (.loadActive f)
  | .attachLive => .named .attachLive
  | .detachLive => .named .detachLive
  | .setMeas c v => .named (.setMeas c v)
  | .loadPath target res => .named (.loadPath target res)
  | .registerCmd code wr rd => .named (.registerCmd code wr rd)
  | .reset => .named .reset

/-- The call whose bits, in the table's numbering, are `w`: one byte is an SPI exchange; sixteen bits are the two code bytes of a command write, the first byte in bits 7:0 (log entry 20). -/
def tableCall (nbits w : Nat) : Option Call :=
  if nbits = 8 then some (.spiExchange (BitVec.ofNat 8 w))
  else if nbits = 16 then some (.i2cWrite [BitVec.ofNat 8 w, BitVec.ofNat 8 (w / 256)])
  else none

/-- The mode in which a table word is read: SPI_REG for one byte, I2C_CMD for a command code (log entry 20). -/
def tableMode (nbits : Nat) : Mode := if nbits = 16 then .i2cCmd else .spiReg

/-- What the decoder reads from a table word, in SPI state Idle with chip-select asserted (log entry 20). -/
def decodeTableWord (nbits w : Nat) : Option Instr :=
  match tableCall nbits w with
  | some c =>
    match decode { mode := tableMode nbits, gating := .ignore, cs := true, spiSt := .idle, dma := false } c with
    | .op i => some i
    | .rejected _ => none
  | none => none

end Sys2Proof
end

