-- ==== Sys2Proof/Machine/State.lean ====
section
/-! DEFINITION. The state: the record S of R30 (Device), the configuration it runs under, and the model's own record of what goes in and out (INVENTORY.md, State). -/
namespace Sys2Proof.Machine

/-- `spi` (R35). -/
structure Spi where
  st   : SpiSt
  addr : Nat
  cs   : Bool
  deriving DecidableEq, Repr, Inhabited

/-- `i2c` (R36). -/
structure I2c where
  st   : I2cSt
  addr : Nat
  deriving DecidableEq, Repr, Inhabited

/-- `cmd` (R37). -/
structure Cmd where
  pending : Option Code
  deriving DecidableEq, Repr, Inhabited

/-- The record S of R30, "these fields and nothing else". -/
structure Device where
  /-- Register storage: the (address, byte) pairs of `dom(P_REGMAP)`, addresses rising (R31). -/
  store  : List Host.Cell
  spi    : Spi
  i2c    : I2c
  cmd    : Cmd
  /-- The sample FIFO, oldest first, and the sample last returned (R52). -/
  fifo   : List Byte
  last   : Byte
  /-- The frame store and its cyclic index (R53). -/
  frames : List Frame
  fidx   : Nat
  /-- The active buffer and its read cursor (R54). -/
  buf    : Frame
  cur    : Nat
  /-- Whether the live source is attached (R55). -/
  live   : Bool
  /-- The measurement of each channel (R56). -/
  meas   : List (Nat × Rat)
  /-- Device-specific extra state (R57), as a byte sequence (log entry 9). -/
  dev    : List Byte
  deriving DecidableEq, Repr, Inhabited

/-- The diagnostic codes of R351, in table order, with the arguments recorded. A field is named by its bit offset. -/
inductive Diag where
  | undefRegRead (a : Nat)
  | undefRegWrite (a : Nat)
  | roFieldWrite (a off : Nat)
  | reservedMismatch (a off : Nat)
  | spiCsInactive
  | i2cEmptyWrite
  | i2cReadNoAddress
  | cmdShortWrite
  | cmdUnknownCode (c : Code)
  | cmdPayloadIgnored (c : Code)
  | cmdReadNoPending
  | cmdNoReadHandler (c : Code)
  | burstPastEnd
  | frameStoreEmpty
  | dmaStreamNotEnabled
  | dmaNoSource
  | measClamped (c : Nat) (v : Rat)
  deriving DecidableEq, Repr, Inhabited

/-- The events of R68. -/
inductive Event where
  | hostWrite (addr : Nat) (bytes : List Byte)
  | irqPulse
  | diag (d : Diag)
  deriving DecidableEq, Repr, Inhabited

/-- The response of an operation (R68): a byte, a byte sequence, a checksum, the result of a host operation, or nothing. -/
inductive Response where
  | nothing
  | byte (b : Byte)
  | bytes (bs : List Byte)
  | checksum (v : Nat)
  | ok
  | error (e : CfgError)
  deriving DecidableEq, Repr, Inhabited

/-- Whether an instance exists and has taken an operation (R320, R329, R392; log entry 14). -/
inductive Phase where
  /-- No instance exists: configuration failed (R329). -/
  | absent
  /-- The instance is configured and has taken no operation yet; commands may be registered (R320). -/
  | configuring
  /-- The first operation has come; the configuration is fixed (R392). -/
  | running
  deriving DecidableEq, Repr, Inhabited

/-- The state of one instance, with the model's own fields `cfg` (log entry 1), `phase` (14), `inbox` (2), `resp` and `events` (3), `hostMem` (4), `liveIn` and `draws` (5). -/
structure State extends Device where
  cfg     : Cfg
  phase   : Phase
  /-- Operations sent and not yet taken, oldest first. -/
  inbox   : List Call
  /-- The response and the events of the latest operation (R68). -/
  resp    : Response
  events  : List Event
  /-- Bytes the DMA pushes wrote into host memory (R80, R300). An address not listed has no value from this block. -/
  hostMem : List Host.Cell
  /-- Answers of the live source already fixed by the environment (R290). -/
  liveIn  : List Frame
  /-- How many free values the live source has used. -/
  draws   : Nat
  deriving DecidableEq, Repr, Inhabited

/-- The block never faults: "No operation blocks or awaits" (R94, R352, R353), so there is no reason to stop with a fault. Safe: the spec has none either. -/
inductive Fault where
  deriving DecidableEq, Repr

/-- Why a step gives no next state. -/
inductive Refusal where
  /-- Raised by `exec` for an instruction with no meaning yet. Safe. -/
  | notModelled (mnemonic : String)
  /-- Raised by every operation while no instance exists (R329: "leaves no instance"). Safe. -/
  | noInstance
  /-- Raised by a meaning called where R119 does not select its operation; decoding never gives such an operation. Safe. -/
  | notSelected
  /-- Raised by `step` for a call that is no operation of the instance: a port the mode does not expose (R119, D53), an operation with a wire form sent by name, an absent observer. Safe. -/
  | undecoded (e : DecodeError)
  /-- Raised by REGISTER_CMD and by `configure` after the first operation (R320, D49: "run-time registration is refused"). Safe. -/
  | configurationClosed
  deriving DecidableEq, Repr

/-- The device of `Cfg.blank` at power-on (R65). -/
def Device.blank : Device where
  store := []
  spi := { st := .idle, addr := 0, cs := false }
  i2c := { st := .idle, addr := 0 }
  cmd := { pending := none }
  fifo := []
  last := 0
  frames := []
  fidx := 0
  buf := []
  cur := 0
  live := false
  meas := []
  dev := []

/-- The machine right after reset: the power-on state of R65 for `Cfg.blank` (log entry 1), nothing sent and nothing answered yet. -/
def State.reset : State where
  toDevice := Device.blank
  cfg := Cfg.blank
  phase := .configuring
  inbox := []
  resp := .nothing
  events := []
  hostMem := []
  liveIn := []
  draws := 0

end Sys2Proof.Machine
end

