-- ==== Sys2Proof/Machine/Free.lean ====
section
/-! DEFINITION. What the spec leaves to the device or the environment (I9, I11, I13, I16), as constants with no body: a claim about them holds for every choice. -/
namespace Sys2Proof

open Machine

/-- Device value-provider `id` (R163): its value, the state after its side effects, and the diagnostics it raises (log entry 6). -/
opaque Config.deviceProvider (id : Nat) : Device → Byte × Device × List Diag

/-- Device write-observer `id` (R164): the state after its side effect, and the events it emits (log entry 7). -/
opaque Config.deviceObserver (id : Nat) (old new : Byte) : Device → Device × List Event

/-- Device write handler `id` (R261): the state after it, and the diagnostics it raises (log entry 8). -/
opaque Config.deviceWriteHandler (id : Nat) (payload : List Byte) : Device → Device × List Diag

/-- Device read handler `id` (R260): byte `i` of its raw sequence, `none` from its end on (log entry 8). -/
opaque Config.deviceReadHandler (id : Nat) : Device → Nat → Option Byte

/-- Device DMA address function `id` (R10, D41), of the register state (log entry 8). -/
opaque Config.deviceDmaAddr (id : Nat) : List Host.Cell → Nat

/-- The frame of the `n`-th unanswered draw from the live source (R290, D50; log entry 5). -/
opaque Config.liveFrame (n : Nat) : Frame

end Sys2Proof
end

