-- ==== Sys2Proof/Machine/Ops.lean ====
section
/-! DEFINITION. The named operations every meaning is written with: cells of memory, taking an operation, responding, emitting an event, raising a diagnostic (what stands here in the place of taking an exception: R350, R364), ending in a configuration error (R355), and taking over a device function's result. -/
namespace Sys2Proof.Machine

/-! Memory: lists of (address, byte) pairs, addresses strictly rising. -/

/-- The byte at an address, when it has one. -/
def cellAt : List Host.Cell → Nat → Option Byte
  | [], _ => none
  | (k, v) :: m, a => if k = a then some v else cellAt m a

/-- Replace the byte at an address that has one; an address with no storage stays so (R31). -/
def cellSet : List Host.Cell → Nat → Byte → List Host.Cell
  | [], _, _ => []
  | (k, v) :: m, a, b => if k = a then (k, b) :: m else (k, v) :: cellSet m a b

/-- Give an address a byte, keeping the addresses rising. -/
def cellPut : List Host.Cell → Nat → Byte → List Host.Cell
  | [], a, b => [(a, b)]
  | (k, v) :: m, a, b =>
    if a < k then (a, b) :: (k, v) :: m else if k = a then (k, b) :: m else (k, v) :: cellPut m a b

/-- Put consecutive bytes, byte `i` at `a + i` (R84, R300). -/
def cellPutAll : List Host.Cell → Nat → List Byte → List Host.Cell
  | m, _, [] => m
  | m, a, b :: bs => cellPutAll (cellPut m a b) (a + 1) bs

/-- Every address of `m` is above `a`, and they rise strictly. -/
def cellsAbove : Nat → List Host.Cell → Bool
  | _, [] => true
  | a, (k, _) :: m => decide (a < k) && cellsAbove k m

/-- The canonical form: addresses strictly rising. An unlisted address has no byte, so no entry can equal it. -/
def Memory.wf : List Host.Cell → Bool
  | [] => true
  | (k, _) :: m => cellsAbove k m

/-- Take over, for each address of `m`, the byte `new` has there, if any. -/
def cellsFrom (new : List Host.Cell) : List Host.Cell → List Host.Cell
  | [] => []
  | (k, v) :: m => (k, (cellAt new k).getD v) :: cellsFrom new m

/-! Measurements: a value per channel (R56). -/

/-- The value of a channel. -/
def measAt : List (Nat × Rat) → Nat → Option Rat
  | [], _ => none
  | (k, v) :: m, c => if k = c then some v else measAt m c

/-- Set the value of a channel that has one. -/
def measSet : List (Nat × Rat) → Nat → Rat → List (Nat × Rat)
  | [], _, _ => []
  | (k, v) :: m, c, x => if k = c then (k, x) :: m else (k, v) :: measSet m c x

/-- Take over, for each channel of `m`, the value `new` has for it, if any. -/
def measFrom (new : List (Nat × Rat)) : List (Nat × Rat) → List (Nat × Rat)
  | [] => []
  | (k, v) :: m => (k, (measAt new k).getD v) :: measFrom new m

/-! Outputs (R68). -/

/-- Answer the operation. -/
def State.respond (s : State) (r : Response) : State := { s with resp := r }

/-- Emit an event; a `HostWrite` also lands in host memory (R300). -/
def State.emit (s : State) (e : Event) : State :=
  { s with
    events := s.events ++ [e]
    hostMem := match e with
      | .hostWrite a bytes => cellPutAll s.hostMem a bytes
      | .irqPulse => s.hostMem
      | .diag _ => s.hostMem }

/-- Emit events in order. -/
def State.emitAll (s : State) (es : List Event) : State := es.foldl State.emit s

/-- `raise Diag(code)` (R14, R350): emit and go on. -/
def State.raise (s : State) (d : Diag) : State := s.emit (.diag d)

/-- `raise CfgError(code)` (R14, R355): the operation's result; nothing else changes. -/
def State.fail (s : State) (e : CfgError) : State := s.respond (.error e)

/-! Taking an operation. -/

/-- What selects the next operation (R119, R123). -/
def State.ctx (s : State) : Ctx where
  mode := s.cfg.mode
  gating := s.cfg.gating
  cs := s.spi.cs
  spiSt := s.spi.st
  dma := s.cfg.dma

/-- An operation begins: it has answered nothing and emitted nothing yet, and it ends the configuration phase (R392). DESIGN CHOICE (log entry 14): so does a host operation that goes on to fail. -/
def State.begin (s : State) : State := { s with phase := .running, resp := .nothing, events := [] }

/-- Run the effect of operation `i` where an instance exists (R329) and R119 selects it; the effect is total and always gives a next state (R94, R353). -/
def State.perform (s : State) (i : Instr) (effect : State → State) : Host.Outcome State Fault Refusal :=
  if s.phase = .absent then .refused .noInstance
  else if i.selected s.ctx then .next (effect s.begin)
  else .refused .notSelected

/-! Device functions (I9, I11): the state a device function returns is taken over within the bounds that R31, R35 to R37, R53, R54 and R56 give each field. -/

/-- A provider may change `dev` and `store` (R89, R163; log entry 6). -/
def State.adoptProvider (s : State) (d : Device) : State :=
  { s with store := cellsFrom d.store s.store, dev := d.dev }

/-- A write handler may change `store`, `meas` and `dev` (R261; log entry 8). -/
def State.adoptHandler (s : State) (d : Device) : State :=
  { s with store := cellsFrom d.store s.store, meas := measFrom d.meas s.meas, dev := d.dev }

/-- Whether a command code is registered (R250). -/
def registered (cmds : List CmdEntry) (code : Code) : Bool := cmds.any fun e => e.code == code

/-- An observer may change any field of S (R164; log entry 7). -/
def State.adoptObserver (s : State) (d : Device) : State :=
  { s with
    store := cellsFrom d.store s.store
    spi := { d.spi with addr := fitAddr s.cfg.wrap spiAddrBits d.spi.addr }
    i2c := { d.i2c with addr := fitAddr s.cfg.wrap i2cAddrBits d.i2c.addr }
    cmd := { pending := d.cmd.pending.filter (registered s.cfg.cmds) }
    fifo := d.fifo
    last := d.last
    frames := d.frames
    fidx := if d.fidx < d.frames.length then d.fidx else 0
    buf := d.buf
    cur := min d.cur d.buf.length
    live := d.live
    meas := measFrom d.meas s.meas
    dev := d.dev }

end Sys2Proof.Machine
end

