-- ==== Sys2Proof/Machine/Command.lean ====
section
/-! DEFINITION. The command dispatch engine with CRC interleaving (R250 to R262). -/
namespace Sys2Proof.Machine

/-- `P_CMD_TABLE[code]` (R250). -/
def commandAt (cmds : List CmdEntry) (code : Code) : Option CmdEntry := cmds.find? fun e => e.code == code

/-- `cmd.pending <- p` (R37). -/
def State.setPending (s : State) (p : Option Code) : State := { s with cmd := { pending := p } }

/-- Run a write handler (R261). -/
def State.callWriteHandler (s : State) (payload : List Byte) : WriteHandler → State
  | .storePayload => { s with dev := payload }
  | .device id =>
    let (d, diags) := Config.deviceWriteHandler id payload s.toDevice
    (s.adoptHandler d).emitAll (diags.map Event.diag)

/-- The first `k` bytes of a read handler's raw sequence (R260). -/
def State.rawTake (s : State) (k : Nat) : ReadHandler → List Byte
  | .fixed raw => raw.take k
  | .cycle b raw => cycleTake b raw k
  | .devBytes => s.dev.take k
  | .device id => lazyTake (Config.deviceReadHandler id s.toDevice) 0 k

/-- `take(N, interleave(raw))` from the raw bytes it needs (R256, R258). -/
def State.cmdResponse (s : State) (n : Nat) (rd : ReadHandler) : List Byte :=
  (interleave s.cfg.crc (s.rawTake (rawNeeded n) rd)).take n

/-- A command write with a whole code (R251, R253, R254). -/
def State.dispatchWrite (s : State) (code : Code) (payload : List Byte) : State :=
  match commandAt s.cfg.cmds code with
  | none => (s.setPending none).raise (.cmdUnknownCode code)
  | some e =>
    let s := s.setPending (some code)
    match e.wr with
    | some h => s.callWriteHandler payload h
    | none => if payload.isEmpty then s else s.raise (.cmdPayloadIgnored code)

/-- CMD_WRITE (R251, R252). -/
def effCmdWrite (f : CmdFrame) (s : State) : State :=
  match f with
  | .short _ => s.raise .cmdShortWrite
  | .command code payload => s.dispatchWrite code payload

/-- CMD_WRITE where R119 selects it. -/
def execCmdWrite (f : CmdFrame) (s : State) : Host.Outcome State Fault Refusal := s.perform (.cmdWrite f) (effCmdWrite f)

/-- CMD_READ (R255, R262). A pending code outside the table, which no run reaches, reads as one with no read handler (log entry 18). -/
def effCmdRead (n : Nat) (s : State) : State :=
  match s.cmd.pending with
  | none => (s.raise .cmdReadNoPending).respond (.bytes (fallback s.cfg.noAddr n))
  | some code =>
    match (commandAt s.cfg.cmds code).bind CmdEntry.rd with
    | none => (s.raise (.cmdNoReadHandler code)).respond (.bytes (fallback s.cfg.noAddr n))
    | some rd => s.respond (.bytes (s.cmdResponse n rd))

/-- CMD_READ where R119 selects it. -/
def execCmdRead (n : Nat) (s : State) : Host.Outcome State Fault Refusal := s.perform (.cmdRead n) (effCmdRead n)

/-- CMD_FINISH (R259). -/
def effCmdFinish (s : State) : State := s.setPending none

/-- CMD_FINISH where R119 selects it. -/
def execCmdFinish (s : State) : Host.Outcome State Fault Refusal := s.perform .cmdFinish effCmdFinish

end Sys2Proof.Machine
end

