-- ==== Sys2Proof/Machine/Flags.lean ====
section
/-! DEFINITION. The core's flags (R40, R45): READY, STREAM_EN, DMA_EN and TRIGGER are register fields that the map places; reading and setting a stored field by its name. -/
namespace Sys2Proof.Machine

/-- The register declared at an address, when the mode's address space reaches it (R15, R31; log entry 13). -/
def Cfg.regAt (c : Cfg) (a : Nat) : Option RegDecl :=
  if a < addrSpace c.mode then c.regmap.find? fun r => r.addr == a else none

/-- The declaration a field name stands for. -/
def Cfg.fieldAt (c : Cfg) (r : FieldRef) : Option FieldDecl :=
  match Cfg.regAt c r.addr with
  | some reg => reg.fields.find? fun f => f.off == r.off
  | none => none

/-- `store[a]`; every address of `dom(P_REGMAP)` has a byte (R31; log entry 18). -/
def State.storeAt (s : State) (a : Nat) : Byte := (cellAt s.store a).getD 0

/-- `store[a] <- b`. -/
def State.setStore (s : State) (a : Nat) (b : Byte) : State := { s with store := cellSet s.store a b }

/-- The stored value of a named core field; 0 when the configuration names none (log entry 12). -/
def State.flag (s : State) (r : Option FieldRef) : Byte :=
  match r with
  | some r =>
    match Cfg.fieldAt s.cfg r with
    | some f => fieldOf f (s.storeAt r.addr)
    | none => 0
  | none => 0

/-- Set the stored value of a named core field (R292, R301); nothing when the configuration names none. -/
def State.setFlag (s : State) (r : Option FieldRef) (v : Byte) : State :=
  match r with
  | some r =>
    match Cfg.fieldAt s.cfg r with
    | some f => s.setStore r.addr (setBits (s.storeAt r.addr) f.off f.w v)
    | none => s
  | none => s

end Sys2Proof.Machine
end

