-- ==== Sys2Proof/Machine/Configure.lean ====
section
/-! DEFINITION. Configuration (R320, R329, R391): the checks of a `Cfg` in their order, the power-on state, the call `configure`, and REGISTER_CMD. -/
namespace Sys2Proof.Machine

/-! Check 1: the register map. -/

/-- A field fits its register (R161, R320). -/
def fieldFits (f : FieldDecl) : Bool := decide (f.off + f.w ≤ 8) && decide (f.w ≠ 0)

/-- A core provider stands on an 8-bit Read field (R320). -/
def providerFits (f : FieldDecl) : Bool :=
  match f.prov with
  | some .burst => decide (f.w = 8) && decide (f.acc = .read)
  | some (.length _) => decide (f.w = 8) && decide (f.acc = .read)
  | some (.device _) => true
  | none => true

/-- Two fields share no bit (R162). -/
def fieldsApart (f g : FieldDecl) : Bool := decide (f.off + f.w ≤ g.off) || decide (g.off + g.w ≤ f.off)

/-- No two fields of a list share a bit (R162). -/
def allApart : List FieldDecl → Bool
  | [] => true
  | f :: fs => fs.all (fieldsApart f) && allApart fs

/-- The conditions on one register. -/
def regFits (r : RegDecl) : Bool := allApart r.fields && r.fields.all fieldFits && r.fields.all providerFits

/-- No two registers have one address (R162). -/
def addrsApart : List RegDecl → Bool
  | [] => true
  | r :: rs => rs.all (fun q => decide (q.addr ≠ r.addr)) && addrsApart rs

/-- A core field parameter names a declared field, or nothing (R320). DEDUCED (log entry 13): a field of a register at or above the mode's address space counts as not declared, so that naming it is BAD_REGMAP. -/
def Cfg.declares (c : Cfg) (r : Option FieldRef) : Bool :=
  match r with
  | some r => (Cfg.fieldAt c r).isSome
  | none => true

/-- Check 1 of R320. -/
def Cfg.regmapOk (c : Cfg) : Bool :=
  addrsApart c.regmap && c.regmap.all regFits
    && Cfg.declares c c.triggerField && Cfg.declares c c.readyField
    && Cfg.declares c c.streamEnField && Cfg.declares c c.dmaEnField
    && (!c.dma || (c.streamEnField.isSome && c.dmaEnField.isSome))

/-- Check 2 of R320 (R147). -/
def Cfg.crcOk (c : Cfg) : Bool :=
  !(decide (c.mode = .i2cCmd) && decide (c.crc.width ≠ 8)) && decide (8 ≤ c.crc.width)
    && decide (c.crc.poly < 2 ^ c.crc.width) && decide (c.crc.init < 2 ^ c.crc.width)
    && decide (c.crc.xorOut < 2 ^ c.crc.width)

/-- One REGISTER_CMD (R320 check 3). -/
def registerOne (table : List CmdEntry) (e : CmdEntry) : Except CfgError (List CmdEntry) :=
  if registered table e.code then .error (.duplicateCommand e.code) else .ok (table ++ [e])

/-- The registrations, in the order given. -/
def registerAll : List CmdEntry → List CmdEntry → Except CfgError (List CmdEntry)
  | table, [] => .ok table
  | table, e :: es =>
    match registerOne table e with
    | .ok table => registerAll table es
    | .error err => .error err

/-- Check 4 of R320. DESIGN CHOICE (log entry 10): of several initial values outside their ranges, the first in declaration order is reported. -/
def measCheck : List MeasDecl → Option CfgError
  | [] => none
  | m :: ms => if m.lo ≤ m.init ∧ m.init ≤ m.hi then measCheck ms else some (.measOutOfRange m.id m.init)

/-- The checks of R320 in order; the configuration with its command table, or the first error. -/
def Cfg.build (c : Cfg) (cmds : List CmdEntry) : Except CfgError Cfg :=
  if Cfg.regmapOk c then
    if Cfg.crcOk c then
      match registerAll [] cmds with
      | .error e => .error e
      | .ok table =>
        match measCheck c.meas with
        | some e => .error e
        | none => .ok { c with cmds := table }
    else .error .badCrcParams
  else .error .badRegmap

/-! The power-on state (R65, R391). -/

/-- The storage of `dom(P_REGMAP)` at its reset values (R31, R65, R180). -/
def resetStore (mode : Mode) : List RegDecl → List Host.Cell
  | [] => []
  | r :: rs => if r.addr < addrSpace mode then cellPut (resetStore mode rs) r.addr r.reset else resetStore mode rs

/-- The device at power-on (R65). -/
def powerOn (c : Cfg) : Device where
  store := resetStore c.mode c.regmap
  spi := { st := .idle, addr := 0, cs := false }
  i2c := { st := .idle, addr := 0 }
  cmd := { pending := none }
  fifo := []
  last := 0
  frames := []
  fidx := 0
  buf := []
  cur := 0
  live := false
  meas := c.meas.map fun m => (m.id, m.init)
  dev := c.devInit

/-- A failed configuration: the error goes to the caller and no instance exists (R329). -/
def State.discard (s : State) (e : CfgError) : State :=
  { s with toDevice := Device.blank, cfg := Cfg.blank, phase := .absent, resp := .error e, events := [] }

/-- The call `configure` (R320): before the first operation, or while no instance exists (log entry 14). -/
def State.configure (s : State) (c : Cfg) (cmds : List CmdEntry) : Host.Outcome State Fault Refusal :=
  match s.phase with
  | .running => .refused .configurationClosed
  | .configuring | .absent =>
    match Cfg.build c cmds with
    | .error e => .next (s.discard e)
    | .ok c => .next { s with toDevice := powerOn c, cfg := c, phase := .configuring, resp := .ok, events := [] }

/-- REGISTER_CMD (R320 check 3): only in the configuration phase (D49). DESIGN CHOICE (log entry 14): sent by itself it comes after `configure` has passed all four checks, check 4 among them. -/
def execRegisterCmd (code : Code) (wr : Option WriteHandler) (rd : Option ReadHandler) (s : State) :
    Host.Outcome State Fault Refusal :=
  match s.phase with
  | .absent => .refused .noInstance
  | .running => .refused .configurationClosed
  | .configuring =>
    match registerOne s.cfg.cmds { code := code, wr := wr, rd := rd } with
    | .error e => .next (s.discard e)
    | .ok table => .next { s with cfg := { s.cfg with cmds := table }, resp := .ok, events := [] }

end Sys2Proof.Machine
end

