-- ==== Sys2Proof/Machine/Streaming.lean ====
section
/-! DEFINITION. The streaming subsystem (R280 to R304): sample FIFO, frame store, active buffer, capture, burst read, length and DMA push; and the meanings of its operations. -/
namespace Sys2Proof.Machine

/-! Frame sources. -/

/-- The live source's answer (R290): one the environment has fixed, or else a free value (log entry 5). -/
def State.takeLive (s : State) : Frame × State :=
  match s.liveIn with
  | f :: rest => (f, { s with liveIn := rest })
  | [] => (Config.liveFrame s.draws, { s with draws := s.draws + 1 })

/-- `READ_FRAME` (R286). -/
def State.nextFrame (s : State) : Frame × State :=
  match s.frames with
  | [] => ([], s.raise .frameStoreEmpty)
  | _ :: _ => ((s.frames[s.fidx]?).getD [], { s with fidx := (s.fidx + 1) % s.frames.length })

/-- `selectFrame(S)` (R289): live source, frame store, empty fallback. -/
def State.selectFrame (s : State) : Frame × State :=
  if s.live then s.takeLive
  else
    match s.frames with
    | [] => ([], s)
    | _ :: _ => s.nextFrame

/-- `attached(S)` (R303). -/
def State.attached (s : State) : Bool := s.live || !s.frames.isEmpty

/-! Capture. -/

/-- Load the active buffer (R54, R288, R292). -/
def State.loadBuffer (s : State) (f : Frame) : State := { s with buf := f, cur := 0 }

/-- `capture()` (R292). -/
def State.doCapture (s : State) : State :=
  let (f, s) := s.selectFrame
  (s.loadBuffer f).setFlag s.cfg.readyField 1

/-- The observer `CAPTURE(old, new)` (R291). -/
def State.captureObserver (s : State) (_old new : Byte) : State :=
  match s.cfg.triggerCond with
  | .anyWrite => s.doCapture
  | .writeNonzero => if new = 0 then s else s.doCapture

/-! Burst read and length. -/

/-- The provider `BURST` (R295, R297). -/
def State.burst (s : State) : Byte × State :=
  match s.buf[s.cur]? with
  | some v => (v, { s with cur := s.cur + 1 })
  | none => (0, s.raise .burstPastEnd)

/-- The provider `LENGTH(k)` (R296). -/
def State.lengthByte (s : State) (k : Nat) : Byte := BitVec.ofNat 8 (s.buf.length >>> (8 * k))

/-! DMA push. -/

/-- `P_DMA_ADDR(store)`, a host address of P_HOST_ADDR_BITS bits (R10, R301; log entry 4). -/
def State.dmaAddress (s : State) : Nat :=
  (match s.cfg.dmaAddr with
    | .linear terms => (terms.map fun t => (s.storeAt t.1).toNat <<< t.2).sum
    | .device id => Config.deviceDmaAddr id s.store) % 2 ^ s.cfg.hostAddrBits

/-- `push()` (R301): the frame, then the `HostWrite`, then STREAM_EN cleared, then the pulse. -/
def State.push (s : State) : State :=
  let (f, s) := s.selectFrame
  ((s.emit (.hostWrite s.dmaAddress f)).setFlag s.cfg.streamEnField 0).emit .irqPulse

/-- The observer `DMA_ENABLE(old, new)` (R299, R302). -/
def State.dmaObserver (s : State) (old new : Byte) : State :=
  if old = 0 ∧ new = 1 then
    if s.flag s.cfg.streamEnField = 0 then s.raise .dmaStreamNotEnabled
    else if s.attached then s.push else s.raise .dmaNoSource
  else s

/-! Meanings. -/

/-- FEED_SAMPLE (R280). -/
def effFeedSample (v : Byte) (s : State) : State := ({ s with fifo := s.fifo ++ [v] }).respond .ok

/-- FEED_SAMPLE where R119 selects it. -/
def execFeedSample (v : Byte) (s : State) : Host.Outcome State Fault Refusal := s.perform (.feedSample v) (effFeedSample v)

/-- Append samples (R282). -/
def State.feed (s : State) (vs : List Byte) : State := { s with fifo := s.fifo ++ vs }

/-- FEED_SAMPLES (R282). -/
def effFeedSamples (vs : List Byte) (s : State) : State := (s.feed vs).respond .ok

/-- FEED_SAMPLES where R119 selects it. -/
def execFeedSamples (vs : List Byte) (s : State) : Host.Outcome State Fault Refusal := s.perform (.feedSamples vs) (effFeedSamples vs)

/-- SPI_SAMPLE_XCHG (R281): the byte sent is ignored. -/
def effSpiSampleXchg (_x : Byte) (s : State) : State :=
  match s.fifo with
  | [] => s.respond (.byte s.last)
  | v :: rest => ({ s with fifo := rest, last := v }).respond (.byte v)

/-- SPI_SAMPLE_XCHG where R119 selects it. -/
def execSpiSampleXchg (x : Byte) (s : State) : Host.Outcome State Fault Refusal := s.perform (.spiSampleXchg x) (effSpiSampleXchg x)

/-- Append a frame (R285). -/
def State.appendFrame (s : State) (f : Frame) : State := { s with frames := s.frames ++ [f] }

/-- ADD_FRAME (R285). -/
def effAddFrame (f : Frame) (s : State) : State := (s.appendFrame f).respond .ok

/-- ADD_FRAME where R119 selects it. -/
def execAddFrame (f : Frame) (s : State) : Host.Outcome State Fault Refusal := s.perform (.addFrame f) (effAddFrame f)

/-- READ_FRAME (R286). -/
def effReadFrame (s : State) : State :=
  let (f, s) := s.nextFrame
  s.respond (.bytes f)

/-- READ_FRAME where R119 selects it. -/
def execReadFrame (s : State) : Host.Outcome State Fault Refusal := s.perform .readFrame effReadFrame

/-- DROP_FRAMES (R287). -/
def effDropFrames (s : State) : State := ({ s with frames := [], fidx := 0 }).respond .ok

/-- DROP_FRAMES where R119 selects it. -/
def execDropFrames (s : State) : Host.Outcome State Fault Refusal := s.perform .dropFrames effDropFrames

/-- LOAD_ACTIVE (R288). -/
def effLoadActive (f : Frame) (s : State) : State := (s.loadBuffer f).respond .ok

/-- LOAD_ACTIVE where R119 selects it. -/
def execLoadActive (f : Frame) (s : State) : Host.Outcome State Fault Refusal := s.perform (.loadActive f) (effLoadActive f)

/-- CAPTURE (R291), invoked by itself (log entry 16). -/
def effCapture (old new : Byte) (s : State) : State := s.captureObserver old new

/-- CAPTURE where R119 selects it. -/
def execCapture (old new : Byte) (s : State) : Host.Outcome State Fault Refusal := s.perform (.capture old new) (effCapture old new)

/-- BURST_READ (R295), invoked by itself (log entry 16). -/
def effBurstRead (s : State) : State :=
  let (v, s) := s.burst
  s.respond (.byte v)

/-- BURST_READ where R119 selects it. -/
def execBurstRead (s : State) : Host.Outcome State Fault Refusal := s.perform .burstRead effBurstRead

/-- LENGTH_READ (R296), invoked by itself (log entry 16). -/
def effLengthRead (k : Nat) (s : State) : State := s.respond (.byte (s.lengthByte k))

/-- LENGTH_READ where R119 selects it. -/
def execLengthRead (k : Nat) (s : State) : Host.Outcome State Fault Refusal := s.perform (.lengthRead k) (effLengthRead k)

/-- DMA_ENABLE (R299), invoked by itself (log entry 16). -/
def effDmaEnable (old new : BitVec 1) (s : State) : State := s.dmaObserver (old.setWidth 8) (new.setWidth 8)

/-- DMA_ENABLE where R119 selects it. -/
def execDmaEnable (old new : BitVec 1) (s : State) : Host.Outcome State Fault Refusal := s.perform (.dmaEnable old new) (effDmaEnable old new)

end Sys2Proof.Machine
end

