-- ==== Sys2Proof/Machine/HostOps.lean ====
section
/-! DEFINITION. The host operations of R321 to R327 and the explicit reset (R180, R390). -/
namespace Sys2Proof.Machine

/-- ATTACH_LIVE (R321). -/
def effAttachLive (s : State) : State := ({ s with live := true }).respond .ok

/-- ATTACH_LIVE where R119 selects it. -/
def execAttachLive (s : State) : Host.Outcome State Fault Refusal := s.perform .attachLive effAttachLive

/-- DETACH_LIVE (R322). -/
def effDetachLive (s : State) : State := ({ s with live := false }).respond .ok

/-- DETACH_LIVE where R119 selects it. -/
def execDetachLive (s : State) : Host.Outcome State Fault Refusal := s.perform .detachLive effDetachLive

/-- The declaration of a channel (R324; log entry 10). -/
def channelAt (meas : List MeasDecl) (c : Nat) : Option MeasDecl := meas.find? fun m => m.id == c

/-- `meas[c] <- v` (R324). -/
def State.setMeas (s : State) (c : Nat) (v : Rat) : State := { s with meas := measSet s.meas c v }

/-- SET_MEAS (R324 to R326): the bounds are inclusive. -/
def effSetMeas (c : Nat) (v : Rat) (s : State) : State :=
  match channelAt s.cfg.meas c with
  | none => s.fail (.unknownChannel c)
  | some m =>
    if m.lo ≤ v ∧ v ≤ m.hi then (s.setMeas c v).respond .ok
    else
      match m.policy with
      | .reject => s.fail (.measOutOfRange c v)
      | .clamp => ((s.setMeas c (if v < m.lo then m.lo else m.hi)).raise (.measClamped c v)).respond .ok

/-- SET_MEAS where R119 selects it. -/
def execSetMeas (c : Nat) (v : Rat) (s : State) : Host.Outcome State Fault Refusal := s.perform (.setMeas c v) (effSetMeas c v)

/-- LOAD_PATH (R327). -/
def effLoadPath (target : Target) (res : LoadResult) (s : State) : State :=
  match res, target with
  | .fail, _ => s.fail .loadFailed
  | .bytes d, .frame => (s.appendFrame d).respond .ok
  | .bytes d, .samples => (s.feed d).respond .ok

/-- LOAD_PATH where R119 selects it. -/
def execLoadPath (target : Target) (res : LoadResult) (s : State) : Host.Outcome State Fault Refusal := s.perform (.loadPath target res) (effLoadPath target res)

/-- RESET (R390, R180): no provider, no observer and no event; FIFO, frame store, live attachment and measurements stay. -/
def effReset (s : State) : State :=
  ({ s with
    store := resetStore s.cfg.mode s.cfg.regmap
    spi := { st := .idle, addr := 0, cs := false }
    i2c := { st := .idle, addr := 0 }
    cmd := { pending := none }
    last := 0
    buf := []
    cur := 0
    dev := s.cfg.devInit }).respond .ok

/-- RESET where R119 selects it. -/
def execReset (s : State) : Host.Outcome State Fault Refusal := s.perform .reset effReset

end Sys2Proof.Machine
end

