-- ==== Sys2Proof/Machine/RegFile.lean ====
section
/-! DEFINITION. The register file (R160 to R181): read and write of one byte through the fields of its register, and the meanings of RF_READ, RF_WRITE and CRC_CALC. -/
namespace Sys2Proof.Machine

/-! Read. -/

/-- Call a value-provider (R163): its value and the state after it. -/
def State.callProvider (s : State) : Provider → Byte × State
  | .burst => s.burst
  | .length k => (s.lengthByte k, s)
  | .device id =>
    let (v, d, diags) := Config.deviceProvider id s.toDevice
    (v, (s.adoptProvider d).emitAll (diags.map Event.diag))

/-- The value of one field on a read (R170, R172 to R174), truncated to its width (R163). -/
def State.readField (s : State) (a : Nat) (f : FieldDecl) : Byte × State :=
  match f.acc with
  | .reservedConstant => (fieldConst f, s)
  | .write => (0, s)
  | .read | .readWrite =>
    match f.prov with
    | some p =>
      let (v, s) := s.callProvider p
      (v &&& widthMask f.w, s)
    | none => (fieldOf f (s.storeAt a), s)

/-- The fields of a register, in declaration order (R181), composed into a byte. -/
def State.readFields (s : State) (a : Nat) : List FieldDecl → Byte × State
  | [] => (0, s)
  | f :: fs =>
    let (v, s) := s.readField a f
    let (rest, s) := s.readFields a fs
    ((v <<< f.off) ||| rest, s)

/-- `RF.read(a)` (R170, R171); bits no field covers read as the reset bits (R165). -/
def State.rfRead (s : State) (a : Nat) : Byte × State :=
  match Cfg.regAt s.cfg a with
  | none => (s.cfg.regDefault, s.raise (.undefRegRead a))
  | some r =>
    let (v, s) := s.readFields a r.fields
    (v ||| (r.reset &&& ~~~ coveredMask r.fields), s)

/-! Write. -/

/-- The diagnostic of one field on a write of `b` over `old` (R178, R179). -/
def fieldDiag (a : Nat) (old b : Byte) (f : FieldDecl) : Option Diag :=
  match f.acc with
  | .read => if fieldOf f b = fieldOf f old then none else some (.roFieldWrite a f.off)
  | .reservedConstant => if fieldOf f b = fieldConst f then none else some (.reservedMismatch a f.off)
  | .write | .readWrite => none

/-- The observer of a field: the core's for P_TRIGGER_FIELD and, when P_DMA, P_DMA_EN_FIELD (R45, R291, R299), else the declared one (R164; log entry 11). -/
def Cfg.observerOf (c : Cfg) (a : Nat) (f : FieldDecl) : Option Observer :=
  if c.triggerField = some { addr := a, off := f.off } then some .capture
  else if c.dma ∧ c.dmaEnField = some { addr := a, off := f.off } then some .dmaEnable
  else
    match f.obs with
    | some .dmaEnable => if c.dma then some .dmaEnable else none
    | some .capture => some .capture
    | some (.device id) => some (.device id)
    | none => none

/-- Call a write-observer (R164). The spec gives no rule for the address of a `HostWrite` that a device observer emits: it is taken as emitted, not cut to P_HOST_ADDR_BITS (DESIGN CHOICE, log entry 4). -/
def State.callObserver (s : State) (old new : Byte) : Observer → State
  | .capture => s.captureObserver old new
  | .dmaEnable => s.dmaObserver old new
  | .device id =>
    let (d, events) := Config.deviceObserver id old new s.toDevice
    (s.adoptObserver d).emitAll events

/-- The observers of a written register, in declaration order (R175, R176). -/
def State.runObservers (s : State) (a : Nat) (old b : Byte) : List FieldDecl → State
  | [] => s
  | f :: fs =>
    let s :=
      if Access.stores f.acc then
        match Cfg.observerOf s.cfg a f with
        | some o => s.callObserver (fieldOf f old) (fieldOf f b) o
        | none => s
      else s
    s.runObservers a old b fs

/-- `RF.write(a, b)` (R175, R177): diagnostics, then every stored value, then the observers. -/
def State.rfWrite (s : State) (a : Nat) (b : Byte) : State :=
  match Cfg.regAt s.cfg a with
  | none => s.raise (.undefRegWrite a)
  | some r =>
    let old := s.storeAt a
    let s := (r.fields.filterMap (fieldDiag a old b)).foldl State.raise s
    (s.setStore a (mergeFields old b r.fields)).runObservers a old b r.fields

/-! Meanings. -/

/-- RF_READ (R170), invoked by itself (log entry 16). -/
def effRfRead (a : Nat) (s : State) : State :=
  let (v, s) := s.rfRead a
  s.respond (.byte v)

/-- RF_READ where R119 selects it. -/
def execRfRead (a : Nat) (s : State) : Host.Outcome State Fault Refusal := s.perform (.rfRead a) (effRfRead a)

/-- RF_WRITE (R175), invoked by itself (log entry 16). -/
def effRfWrite (a : Nat) (b : Byte) (s : State) : State := s.rfWrite a b

/-- RF_WRITE where R119 selects it. -/
def execRfWrite (a : Nat) (b : Byte) (s : State) : Host.Outcome State Fault Refusal := s.perform (.rfWrite a b) (effRfWrite a b)

/-- CRC_CALC (R140), invoked by itself (log entry 16). -/
def effCrcCalc (data : List Byte) (s : State) : State := s.respond (.checksum (crc s.cfg.crc data))

/-- CRC_CALC where R119 selects it. -/
def execCrcCalc (data : List Byte) (s : State) : Host.Outcome State Fault Refusal := s.perform (.crcCalc data) (effCrcCalc data)

end Sys2Proof.Machine
end

