-- ==== Sys2Proof/Machine/I2cPort.lean ====
section
/-! DEFINITION. The I2C slave transaction state machine (R230 to R237). -/
namespace Sys2Proof.Machine

/-- Move the I2C address pointer on (R15, R231, R233). -/
def State.advanceI2c (s : State) : State :=
  { s with i2c := { s.i2c with addr := incAddr s.cfg.wrap i2cAddrBits s.i2c.addr } }

/-- The data bytes of a write, one register each, in order (R231). -/
def State.i2cWriteAll (s : State) : List Byte → State
  | [] => s
  | b :: bs => (s.rfWrite s.i2c.addr b).advanceI2c.i2cWriteAll bs

/-- `n` sequential register reads (R233). -/
def State.i2cReadAll (s : State) : Nat → List Byte × State
  | 0 => ([], s)
  | n + 1 =>
    let (v, s) := s.rfRead s.i2c.addr
    let (rest, s) := s.advanceI2c.i2cReadAll n
    (v :: rest, s)

/-- I2C_WRITE (R231, R232). -/
def effI2cWrite (f : I2cFrame) (s : State) : State :=
  match f with
  | .empty => s.raise .i2cEmptyWrite
  | .write a data => ({ s with i2c := { st := .processing, addr := a.toNat } }).i2cWriteAll data

/-- I2C_WRITE where R119 selects it. -/
def execI2cWrite (f : I2cFrame) (s : State) : Host.Outcome State Fault Refusal := s.perform (.i2cWrite f) (effI2cWrite f)

/-- I2C_READ (R233, R234). -/
def effI2cRead (n : Nat) (s : State) : State :=
  match s.i2c.st with
  | .idle => (s.raise .i2cReadNoAddress).respond (.bytes (fallback s.cfg.noAddr n))
  | .processing =>
    let (out, s) := s.i2cReadAll n
    s.respond (.bytes out)

/-- I2C_READ where R119 selects it. -/
def execI2cRead (n : Nat) (s : State) : Host.Outcome State Fault Refusal := s.perform (.i2cRead n) (effI2cRead n)

/-- I2C_FINISH (R236). -/
def effI2cFinish (s : State) : State := { s with i2c := { st := .idle, addr := 0 } }

/-- I2C_FINISH where R119 selects it. -/
def execI2cFinish (s : State) : Host.Outcome State Fault Refusal := s.perform .i2cFinish effI2cFinish

end Sys2Proof.Machine
end

