-- ==== Sys2Proof/Machine/SpiPort.lean ====
section
/-! DEFINITION. The SPI slave transaction state machine (R200 to R209). -/
namespace Sys2Proof.Machine

/-- Move the SPI address pointer on (R15, R203, R204). -/
def State.advanceSpi (s : State) : State :=
  { s with spi := { s.spi with addr := incAddr s.cfg.wrap spiAddrBits s.spi.addr } }

/-- SPI_HDR_READ (R201). -/
def effSpiHdrRead (a : BitVec 7) (s : State) : State :=
  ({ s with spi := { s.spi with st := .reading, addr := a.toNat } }).respond (.byte 0)

/-- SPI_HDR_READ where R119 selects it. -/
def execSpiHdrRead (a : BitVec 7) (s : State) : Host.Outcome State Fault Refusal := s.perform (.spiHdrRead a) (effSpiHdrRead a)

/-- SPI_HDR_WRITE (R202). -/
def effSpiHdrWrite (a : BitVec 7) (s : State) : State :=
  ({ s with spi := { s.spi with st := .writing, addr := a.toNat } }).respond (.byte 0)

/-- SPI_HDR_WRITE where R119 selects it. -/
def execSpiHdrWrite (a : BitVec 7) (s : State) : Host.Outcome State Fault Refusal := s.perform (.spiHdrWrite a) (effSpiHdrWrite a)

/-- SPI_DATA_READ (R203): the byte sent is ignored. -/
def effSpiDataRead (_x : Byte) (s : State) : State :=
  let (v, s) := s.rfRead s.spi.addr
  s.advanceSpi.respond (.byte v)

/-- SPI_DATA_READ where R119 selects it. -/
def execSpiDataRead (x : Byte) (s : State) : Host.Outcome State Fault Refusal := s.perform (.spiDataRead x) (effSpiDataRead x)

/-- SPI_DATA_WRITE (R204). -/
def effSpiDataWrite (d : Byte) (s : State) : State := (s.rfWrite s.spi.addr d).advanceSpi.respond (.byte 0)

/-- SPI_DATA_WRITE where R119 selects it. -/
def execSpiDataWrite (d : Byte) (s : State) : Host.Outcome State Fault Refusal := s.perform (.spiDataWrite d) (effSpiDataWrite d)

/-- SPI_GATED (R205): an exchange dropped while chip-select is deasserted. -/
def effSpiGated (_x : Byte) (s : State) : State := (s.raise .spiCsInactive).respond (.byte 0)

/-- SPI_GATED where R119 selects it. -/
def execSpiGated (x : Byte) (s : State) : Host.Outcome State Fault Refusal := s.perform (.spiGated x) (effSpiGated x)

/-- SPI_CS (R206). -/
def effSpiCs (level : Level) (s : State) : State :=
  match level with
  | .asserted => { s with spi := { s.spi with cs := true } }
  | .deasserted => { s with spi := { s.spi with st := .idle, cs := false } }

/-- SPI_CS where R119 selects it. -/
def execSpiCs (level : Level) (s : State) : Host.Outcome State Fault Refusal := s.perform (.spiCs level) (effSpiCs level)

/-- SPI_FINISH (R207): "In mode `SPI_SAMPLE` it has no effect." -/
def effSpiFinish (s : State) : State :=
  if s.cfg.mode = .spiSample then s else { s with spi := { s.spi with st := .idle } }

/-- SPI_FINISH where R119 selects it. -/
def execSpiFinish (s : State) : Host.Outcome State Fault Refusal := s.perform .spiFinish effSpiFinish

end Sys2Proof.Machine
end

