-- ==== Sys2Proof/Machine/Dispatch.lean ====
section
/-! DEFINITION. One arm per operation (R119): a direct call of its meaning. -/
namespace Sys2Proof.Machine

def exec (i : Instr) (s : State) : Host.Outcome State Fault Refusal :=
  match i with
  | .spiHdrRead a => Sys2Proof.Machine.execSpiHdrRead a s
  | .spiHdrWrite a => Sys2Proof.Machine.execSpiHdrWrite a s
  | .spiDataRead x => Sys2Proof.Machine.execSpiDataRead x s
  | .spiDataWrite d => Sys2Proof.Machine.execSpiDataWrite d s
  | .spiGated x => Sys2Proof.Machine.execSpiGated x s
  | .spiCs level => Sys2Proof.Machine.execSpiCs level s
  | .spiFinish => Sys2Proof.Machine.execSpiFinish s
  | .spiSampleXchg x => Sys2Proof.Machine.execSpiSampleXchg x s
  | .i2cWrite f => Sys2Proof.Machine.execI2cWrite f s
  | .i2cRead n => Sys2Proof.Machine.execI2cRead n s
  | .i2cFinish => Sys2Proof.Machine.execI2cFinish s
  | .cmdWrite f => Sys2Proof.Machine.execCmdWrite f s
  | .cmdRead n => Sys2Proof.Machine.execCmdRead n s
  | .cmdFinish => Sys2Proof.Machine.execCmdFinish s
  | .rfRead a => Sys2Proof.Machine.execRfRead a s
  | .rfWrite a b => Sys2Proof.Machine.execRfWrite a b s
  | .crcCalc data => Sys2Proof.Machine.execCrcCalc data s
  | .capture old new => Sys2Proof.Machine.execCapture old new s
  | .burstRead => Sys2Proof.Machine.execBurstRead s
  | .lengthRead k => Sys2Proof.Machine.execLengthRead k s
  | .dmaEnable old new => Sys2Proof.Machine.execDmaEnable old new s
  | .feedSample v => Sys2Proof.Machine.execFeedSample v s
  | .feedSamples vs => Sys2Proof.Machine.execFeedSamples vs s
  | .addFrame f => Sys2Proof.Machine.execAddFrame f s
  | .readFrame => Sys2Proof.Machine.execReadFrame s
  | .dropFrames => Sys2Proof.Machine.execDropFrames s
  | .loadActive f => Sys2Proof.Machine.execLoadActive f s
  | .attachLive => Sys2Proof.Machine.execAttachLive s
  | .detachLive => Sys2Proof.Machine.execDetachLive s
  | .setMeas c v => Sys2Proof.Machine.execSetMeas c v s
  | .loadPath target res => Sys2Proof.Machine.execLoadPath target res s
  | .registerCmd code wr rd => Sys2Proof.Machine.execRegisterCmd code wr rd s
  | .reset => Sys2Proof.Machine.execReset s

end Sys2Proof.Machine
end

