-- ==== Sys2Proof/Machine/Step.lean ====
section
/-! DEFINITION. One step: the oldest operation sent is taken, decoded and run to completion (R88, R90); with nothing sent, the block waits (log entry 2). -/
namespace Sys2Proof.Machine

/-- One step. -/
def step (s : State) : Host.Outcome State Fault Refusal :=
  match s.inbox with
  | [] => .next s
  | .configure c cmds :: rest => State.configure { s with inbox := rest } c cmds
  | call :: rest =>
    match decode s.ctx call with
    | .rejected e => .refused (.undecoded e)
    | .op i => exec i { s with inbox := rest }

/-- `s` with a table word sent as the next operation, in a mode and state that take it: the mode of its port, an instance, SPI Idle and, under gating DROP, chip-select asserted (log entry 20). -/
def State.withFetchWord (s : State) (nbits w : Nat) : State :=
  match tableCall nbits w with
  | none => s
  | some call =>
    { s with
      cfg := { s.cfg with mode := tableMode nbits }
      phase := match s.phase with
        | .absent => .configuring
        | .configuring => .configuring
        | .running => .running
      spi := { s.spi with st := .idle, cs := s.spi.cs || decide (s.cfg.gating = .drop) }
      inbox := call :: s.inbox }

end Sys2Proof.Machine
end

