-- ==== Sys2Proof/Safety.lean ====
section
/-! DEFINITION. What a good state is, in the spec's own bounds on each field (R31, R35 to R37, R53, R54, R56), and what a safe outcome is: the block never stops on an operation it exposes (R94, R352). -/
namespace Sys2Proof.Machine

/-- The bounds the spec gives the fields of S, for the configuration the state runs under. -/
structure State.Inv (s : State) : Prop where
  /-- Register storage and host memory are in canonical form. -/
  storeWf : Memory.wf s.store = true
  hostWf : Memory.wf s.hostMem = true
  /-- Storage exists exactly at `dom(P_REGMAP)` (R31). -/
  storeDom : ∀ a, (cellAt s.store a).isSome = (Cfg.regAt s.cfg a).isSome
  /-- Under MODULO the SPI pointer has 7 bits (R35). -/
  spiAddr : s.cfg.wrap = .modulo → s.spi.addr < 2 ^ spiAddrBits
  /-- Under MODULO the I2C pointer has 8 bits (R36). -/
  i2cAddr : s.cfg.wrap = .modulo → s.i2c.addr < 2 ^ i2cAddrBits
  /-- A pending command is registered (R37, R251). -/
  pending : ∀ c, s.cmd.pending = some c → registered s.cfg.cmds c = true
  /-- The cyclic index (R53). -/
  fidxEmpty : s.frames = [] → s.fidx = 0
  fidxBound : s.frames ≠ [] → s.fidx < s.frames.length
  /-- The read cursor (R54). -/
  curBound : s.cur ≤ s.buf.length
  /-- A value for exactly the channels of P_MEAS_IDS (R56). -/
  measDom : ∀ c, (measAt s.meas c).isSome = (channelAt s.cfg.meas c).isSome

/-- A transport operation completed: every SPI exchange answered a byte, every I2C read a sequence (R352). -/
def Response.isByte : Response → Bool
  | .byte _ => true
  | .nothing => false
  | .bytes _ => false
  | .checksum _ => false
  | .ok => false
  | .error _ => false

/-- The response is a byte sequence. -/
def Response.isBytes : Response → Bool
  | .bytes _ => true
  | .nothing => false
  | .byte _ => false
  | .checksum _ => false
  | .ok => false
  | .error _ => false

/-- The response is a configuration error (R355). -/
def Response.isError : Response → Bool
  | .error _ => true
  | .nothing => false
  | .byte _ => false
  | .bytes _ => false
  | .checksum _ => false
  | .ok => false

/-! Several operations, and the events of one, in the terms claims use. -/

/-- Run operations one after another (R90): their responses in order and the last state, when none stops. -/
def runAll : List Instr → State → Option (List Response × State)
  | [], s => some ([], s)
  | i :: is, s =>
    match exec i s with
    | .next t => (runAll is t).map fun out => (t.resp :: out.1, out.2)
    | .fault _ => none
    | .refused _ => none

/-- Host memory after an event: a `HostWrite` puts byte `i` at `addr + i` (R84, R300). -/
def Event.apply (m : List Host.Cell) : Event → List Host.Cell
  | .hostWrite a bytes => cellPutAll m a bytes
  | .irqPulse => m
  | .diag _ => m

/-- Every pulse stands right after a `HostWrite`, and every `HostWrite` right before a pulse (R98, R361). -/
def pulsesPaired : List Event → Bool
  | [] => true
  | .diag _ :: es => pulsesPaired es
  | .hostWrite _ _ :: .irqPulse :: es => pulsesPaired es
  | .hostWrite _ _ :: _ => false
  | .irqPulse :: _ => false

/-- The register map names no device write-observer (R164), so that every observer is one of the core's. -/
def Cfg.coreObserversOnly (c : Cfg) : Bool :=
  c.regmap.all fun r => r.fields.all fun f =>
    match f.obs with
    | none => true
    | some .capture => true
    | some .dmaEnable => true
    | some (.device _) => false

/-- The calls of the bus port that a mode exposes (R119). -/
def Call.onBus (mode : Mode) : Call → Bool
  | .spiExchange _ => decide (mode = .spiReg) || decide (mode = .spiSample)
  | .spiCs _ => decide (mode = .spiReg) || decide (mode = .spiSample)
  | .spiFinish => decide (mode = .spiReg) || decide (mode = .spiSample)
  | .i2cWrite _ => decide (mode = .i2cReg) || decide (mode = .i2cCmd)
  | .i2cRead _ => decide (mode = .i2cReg) || decide (mode = .i2cCmd)
  | .i2cStop => decide (mode = .i2cReg) || decide (mode = .i2cCmd)
  | .named _ => false
  | .configure _ _ => false

end Sys2Proof.Machine
end

