-- ==== Sys2Proof/Certificates/Slice0/Obligations.lean ====
section
/-! DEFINITION. The statements for the provers. Each docstring names the rule of spec/ it comes from; where a clause rests on a decision the spec marks as its own (D<n>) or on a choice of the model (log entry <n>), the docstring says so. A next state written as an update of `s` says also that every field not named in it is unchanged. -/
section

open Sys2Proof Sys2Proof.Machine

/-! The machine as a whole. -/

/-- R119, R90: a step takes the oldest call and runs the operation it decodes to, on the state without that call; with nothing sent it changes nothing; a call that is no operation of the instance is refused. The inbox is the model's (log entry 2). -/
def Obligations.StepRunsTheDecodedOperation : Prop :=
  (∀ (s : State) (call : Call) (rest : List Call) (i : Instr), s.inbox = call :: rest → decode s.ctx call = .op i →
    step s = exec i { s with inbox := rest }) ∧
  (∀ s : State, s.inbox = [] → step s = .next s) ∧
  (∀ (s : State) (call : Call) (rest : List Call) (e : DecodeError), s.inbox = call :: rest →
    (∀ c cmds, call ≠ .configure c cmds) → decode s.ctx call = .rejected e → step s = .refused (.undecoded e))

/-- R352: "Every SPI exchange returns a byte, every I2C read returns a sequence, and every other transport operation completes, for every input in every state." -/
def Obligations.TransportOperationsAlwaysAnswer : Prop :=
  ∀ (s : State) (call : Call) (rest : List Call), s.phase ≠ .absent → s.inbox = call :: rest →
    Call.onBus s.cfg.mode call = true →
    ∃ t, step s = .next t ∧ t.inbox = rest ∧ t.resp.isError = false ∧
      (∀ b, call = .spiExchange b → t.resp.isByte = true) ∧ (∀ n, call = .i2cRead n → t.resp.isBytes = true)

/-- The bounds of R31, R35 to R37, R53, R54 and R56 (`State.Inv`) hold at reset. The configuration at reset is the model's (log entry 1). -/
def Obligations.ResetMeetsTheInvariant : Prop := State.reset.Inv

/-- R31, R35 to R37, R53, R54, R56: every step keeps the bounds the spec gives the fields of S, and the canonical form of both memories. -/
def Obligations.EveryStepKeepsTheInvariant : Prop :=
  ∀ s t : State, s.Inv → step s = .next t → t.Inv

/-- R392: "After configuration, no port operation changes `Cfg`." Once the first operation has come, the configuration is fixed for good. -/
def Obligations.ConfigurationIsFixed : Prop :=
  (∀ (s t : State) (i : Instr), exec i s = .next t → (∀ code wr rd, i ≠ .registerCmd code wr rd) →
    t.cfg = s.cfg ∧ t.phase = .running) ∧
  (∀ s t : State, step s = .next t → s.phase = .running → t.cfg = s.cfg ∧ t.phase = .running)

/-- R361, R98: in the events of one operation every interrupt pulse stands right after a `HostWrite` and every `HostWrite` right before a pulse, for every configuration whose observers are the core's (a device observer may emit events of its own, R164). The order of the two is the spec's own (D40). -/
def Obligations.EveryPulseFollowsItsPush : Prop :=
  ∀ (s t : State) (i : Instr), Cfg.coreObserversOnly s.cfg = true → exec i s = .next t → pulsesPaired t.events = true

/-- R300, R84: host memory changes only by the `HostWrite` events of the operation, byte `i` at `addr + i`, in their order; an operation that emits none leaves every byte of it as it was. The byte order is the spec's own (D40); `hostMem` is the model's (log entry 4). -/
def Obligations.HostMemoryChangesOnlyByHostWrites : Prop :=
  ∀ (s t : State) (i : Instr), exec i s = .next t →
    t.hostMem = t.events.foldl Event.apply s.hostMem ∧
    ((∀ a bytes, Event.hostWrite a bytes ∉ t.events) → ∀ a, cellAt t.hostMem a = cellAt s.hostMem a)

/-- R356: a configuration error comes only from a host or configuration operation, and comes with no event. The spec marks the rule as derived. -/
def Obligations.ErrorsComeFromTheHostAlone : Prop :=
  ∀ (s t : State) (i : Instr), exec i s = .next t → t.resp.isError = true →
    (i.port = .host ∨ i.port = .config) ∧ t.events = []

/-- R367, R119: what arrives on the bus decodes to an operation of the bus or to none, never to one of the host or of the configuration phase; and a bus call the mode does not expose is refused. The spec's own decisions D47 and D53. -/
def Obligations.TheBusReachesTheBusPortOnly : Prop :=
  (∀ (x : Ctx) (call : Call) (i : Instr), Call.onBus x.mode call = true → decode x call = .op i →
    i.port = .spi ∨ i.port = .i2c) ∧
  (∀ (s : State) (call : Call) (rest : List Call), s.inbox = call :: rest → Call.onBus s.cfg.mode call = false →
    (∀ i, call ≠ .named i) → (∀ c cmds, call ≠ .configure c cmds) → step s = .refused (.undecoded .portNotExposed))

/-- R205, R232, R252: an exchange gated by DROP, an I2C write of no byte and a command write of fewer than two change no state and raise one diagnostic each; the exchange answers 0x00. The spec's own decisions D6, D12 and D22. -/
def Obligations.MisusedTransfersChangeNothing : Prop :=
  ∀ s : State, s.phase ≠ .absent →
    (∀ x, (s.cfg.mode = .spiReg ∨ s.cfg.mode = .spiSample) → s.cfg.gating = .drop → s.spi.cs = false →
      exec (.spiGated x) s = .next { s with phase := .running, resp := .byte 0, events := [.diag .spiCsInactive] }) ∧
    (s.cfg.mode = .i2cReg → exec (.i2cWrite .empty) s =
      .next { s with phase := .running, resp := .nothing, events := [.diag .i2cEmptyWrite] }) ∧
    (∀ bytes, s.cfg.mode = .i2cCmd → exec (.cmdWrite (.short bytes)) s =
      .next { s with phase := .running, resp := .nothing, events := [.diag .cmdShortWrite] })

/-! Encodings. -/

/-- Words written out from R110, R113 and R115. That a 16-bit table word has the first byte sent in bits 7:0, and the mode and SPI state a table word is read in, are the model's choice (log entry 20). -/
def Obligations.WordsDecodeAsTheFormatsSay : Prop :=
  decodeTableWord 8 0b10000000 = some (.spiHdrRead 0) ∧ decodeTableWord 8 0b10000101 = some (.spiHdrRead 5) ∧
  decodeTableWord 8 0b00010010 = some (.spiHdrWrite 0x12) ∧ decodeTableWord 8 0b01111111 = some (.spiHdrWrite 0x7F) ∧
  decodeTableWord 16 0x0024 = some (.cmdWrite (.command 0x2400 [])) ∧
  decode { mode := .i2cReg, gating := .ignore, cs := false, spiSt := .idle, dma := false } (.i2cWrite [0x10, 0xAA, 0xBB]) =
    .op (.i2cWrite (.write 0x10 [0xAA, 0xBB]))

/-- R110 to R119: every well-formed operation that the machine's state selects is what its encoding decodes to, with every operand at every value. -/
def Obligations.DecodeOfEncode : Prop :=
  ∀ (x : Ctx) (i : Instr), i.wellFormed = true → i.selected x = true → decode x (encode i) = .op i

/-- R110 to R119: the other direction: what decodes is selected, and encodes to the very call it came from, so that no bit of a transfer is dropped. -/
def Obligations.EncodeOfDecode : Prop :=
  ∀ (x : Ctx) (call : Call) (i : Instr), decode x call = .op i → encode i = call ∧ i.selected x = true

/-- R82: a command code is big-endian: `bytes[0]` is `code[15:8]` and `bytes[1]` is `code[7:0]`. -/
def Obligations.CommandCodeIsBigEndian : Prop :=
  ∀ (x : Ctx) (b0 b1 : Byte) (payload : List Byte), x.mode = .i2cCmd →
    ∃ code : Code, decode x (.i2cWrite (b0 :: b1 :: payload)) = .op (.cmdWrite (.command code payload)) ∧
      code.toNat = b0.toNat * 256 + b1.toNat ∧ code.extractLsb' 8 8 = b0 ∧ code.extractLsb' 0 8 = b1

/-! The SPI machine. -/

/-- R200: in Idle, bits 6:0 of a byte are the address and bit 7 the direction, and the header accesses no register. -/
def Obligations.SpiHeaderByte : Prop :=
  ∀ (s : State) (b : Byte) (rest : List Call), s.phase ≠ .absent → s.cfg.mode = .spiReg →
    (s.cfg.gating = .ignore ∨ s.spi.cs = true) → s.spi.st = .idle → s.inbox = .spiExchange b :: rest →
    ∃ t, step s = .next t ∧
      t.spi.st = (if b.getLsbD 7 then .reading else .writing) ∧ t.spi.addr = b.toNat % 128 ∧
      t = { s with
        spi := { st := t.spi.st, addr := t.spi.addr, cs := s.spi.cs }
        inbox := rest, phase := .running, resp := t.resp, events := [] }

/-- R201, R202: a header loads the pointer, selects the direction and answers 0x00. The answer is the spec's own decision D3. -/
def Obligations.SpiHeaders : Prop :=
  ∀ (s : State) (a : BitVec 7), s.phase ≠ .absent → s.cfg.mode = .spiReg →
    (s.cfg.gating = .ignore ∨ s.spi.cs = true) → s.spi.st = .idle →
    exec (.spiHdrRead a) s =
      .next { s with
        spi := { st := .reading, addr := a.toNat, cs := s.spi.cs }, phase := .running, resp := .byte 0, events := [] } ∧
    exec (.spiHdrWrite a) s =
      .next { s with
        spi := { st := .writing, addr := a.toNat, cs := s.spi.cs }, phase := .running, resp := .byte 0, events := [] }

/-- R203, R15: an exchange in Reading is one register read at the pointer; it answers what the read answers, and then only the pointer moves. That the byte sent is ignored is the spec's own decision D5. -/
def Obligations.SpiDataReadIsARegisterRead : Prop :=
  ∀ (s : State) (x : Byte), s.phase ≠ .absent → s.cfg.mode = .spiReg → (s.cfg.gating = .ignore ∨ s.spi.cs = true) →
    s.spi.st = .reading →
    ∃ t v, exec (.rfRead s.spi.addr) s = .next t ∧ t.resp = .byte v ∧
      exec (.spiDataRead x) s = .next { t with
        spi := { s.spi with addr := match s.cfg.wrap with
          | .modulo => (s.spi.addr + 1) % 128
          | .unbounded => s.spi.addr + 1 } }

/-- R204, R15: an exchange in Writing is one register write at the pointer; it answers 0x00 (the spec's own decision D4), and then only the pointer moves. A device observer may have moved it before (R164); the core's never do. -/
def Obligations.SpiDataWriteIsARegisterWrite : Prop :=
  ∀ (s : State) (d : Byte), s.phase ≠ .absent → s.cfg.mode = .spiReg → (s.cfg.gating = .ignore ∨ s.spi.cs = true) →
    s.spi.st = .writing →
    ∃ t, exec (.rfWrite s.spi.addr d) s = .next t ∧ (Cfg.coreObserversOnly s.cfg = true → t.spi = s.spi) ∧
      exec (.spiDataWrite d) s = .next { t with
        spi := { t.spi with addr := match s.cfg.wrap with
          | .modulo => (t.spi.addr + 1) % 128
          | .unbounded => t.spi.addr + 1 }
        resp := .byte 0 }

/-- R206, R207: deassertion and finish return the machine to Idle, assertion changes only the level, and in SPI_SAMPLE a finish has no effect. The spec's own decisions D7, D9 and D59. -/
def Obligations.SpiSignals : Prop :=
  ∀ s : State, s.phase ≠ .absent → (s.cfg.mode = .spiReg ∨ s.cfg.mode = .spiSample) →
    exec (.spiCs .asserted) s = .next { s with
      spi := { s.spi with cs := true }, phase := .running, resp := .nothing, events := [] } ∧
    exec (.spiCs .deasserted) s = .next { s with
      spi := { s.spi with st := .idle, cs := false }, phase := .running, resp := .nothing, events := [] } ∧
    exec .spiFinish s = .next { s with
      spi := if s.cfg.mode = .spiReg then { s.spi with st := .idle } else s.spi
      phase := .running, resp := .nothing, events := [] }

/-- R281: an exchange in SPI_SAMPLE dequeues the oldest sample, or repeats the last one returned with no diagnostic; so as many exchanges as there are samples return them all in order, whatever bytes are sent, and one more repeats the last. What `last` holds before any sample is the spec's own decision D30. -/
def Obligations.SamplesComeOutInOrder : Prop :=
  ∀ s : State, s.phase ≠ .absent → s.cfg.mode = .spiSample → (s.cfg.gating = .ignore ∨ s.spi.cs = true) →
    (∀ x, s.fifo = [] → exec (.spiSampleXchg x) s =
      .next { s with phase := .running, resp := .byte s.last, events := [] }) ∧
    (∀ x v rest, s.fifo = v :: rest → exec (.spiSampleXchg x) s =
      .next { s with fifo := rest, last := v, phase := .running, resp := .byte v, events := [] }) ∧
    (∀ xs : List Byte, xs.length = s.fifo.length →
      ∃ t, runAll (xs.map Instr.spiSampleXchg) s = some (s.fifo.map Response.byte, t) ∧
        t.toDevice = { s.toDevice with fifo := [], last := s.fifo.getLast?.getD s.last } ∧ t.hostMem = s.hostMem ∧
        ∀ x, ∃ u, exec (.spiSampleXchg x) t = .next u ∧ u.resp = .byte (s.fifo.getLast?.getD s.last) ∧
          u.toDevice = t.toDevice)

/-! The I2C machine. -/

/-- R230, R231, R88: the first byte of a write sets the pointer and moves to Processing, whatever the state was, and accesses no register; each further byte is one register write at the pointer, which then moves on by `inc` (R15). The accesses happen in order and each finishes before the next. -/
def Obligations.I2cWriteWritesInOrder : Prop :=
  ∀ (s : State) (a b : Byte) (data : List Byte), s.phase ≠ .absent → s.cfg.mode = .i2cReg →
    exec (.i2cWrite (.write a [])) s = .next { s with
      i2c := { st := .processing, addr := a.toNat }, phase := .running, resp := .nothing, events := [] } ∧
    ∃ t u, exec (.i2cWrite (.write a data)) s = .next t ∧ t.rfWrite t.i2c.addr b = u ∧
      exec (.i2cWrite (.write a (data ++ [b]))) s = .next { u with
        i2c := { u.i2c with addr := match s.cfg.wrap with
          | .modulo => (u.i2c.addr + 1) % 256
          | .unbounded => u.i2c.addr + 1 } }

/-- R231, R237, R15: after a write of `k` data bytes the machine is Processing with the pointer `k` places on, under either wrap policy, when every observer is the core's. -/
def Obligations.I2cWriteMovesThePointer : Prop :=
  ∀ (s : State) (a : Byte) (data : List Byte), s.phase ≠ .absent → s.cfg.mode = .i2cReg →
    Cfg.coreObserversOnly s.cfg = true →
    ∃ t, exec (.i2cWrite (.write a data)) s = .next t ∧
      t.i2c = { st := .processing, addr := match s.cfg.wrap with
        | .modulo => (a.toNat + data.length) % 256
        | .unbounded => a.toNat + data.length } ∧ t.spi = s.spi ∧ t.cmd = s.cmd ∧ t.fifo = s.fifo ∧ t.last = s.last

/-- R233, R235, R15: in Processing, a read of no byte changes nothing, and a read of one byte more is the read before it and one register read at the pointer, which then moves on. -/
def Obligations.I2cReadReadsInOrder : Prop :=
  ∀ s : State, s.phase ≠ .absent → s.cfg.mode = .i2cReg → s.i2c.st = .processing →
    exec (.i2cRead 0) s = .next { s with phase := .running, resp := .bytes [], events := [] } ∧
    ∀ n, ∃ t out v u, exec (.i2cRead n) s = .next t ∧ t.resp = .bytes out ∧ out.length = n ∧ t.i2c.st = .processing ∧
      t.rfRead t.i2c.addr = (v, u) ∧
      exec (.i2cRead (n + 1)) s = .next { u with
        i2c := { u.i2c with addr := match s.cfg.wrap with
          | .modulo => (u.i2c.addr + 1) % 256
          | .unbounded => u.i2c.addr + 1 }
        resp := .bytes (out ++ [v]) }

/-- R234: a read in Idle reads no register, changes no state, raises one diagnostic and returns the fallback of P_NOADDR_READ. -/
def Obligations.I2cReadWithNoAddress : Prop :=
  ∀ (s : State) (n : Nat), s.phase ≠ .absent → s.cfg.mode = .i2cReg → s.i2c.st = .idle →
    exec (.i2cRead n) s = .next { s with
      phase := .running
      resp := .bytes (match s.cfg.noAddr with
        | .empty => []
        | .zeroFilled => List.replicate n 0)
      events := [.diag .i2cReadNoAddress] }

/-- R236: the stop clears the address and returns to Idle; what was written stays; a read after it takes the fallback of R234 and not the old address. -/
def Obligations.I2cStop : Prop :=
  ∀ (s : State) (n : Nat), s.phase ≠ .absent → s.cfg.mode = .i2cReg →
    ∃ t u, t = { s with i2c := { st := .idle, addr := 0 }, phase := .running, resp := .nothing, events := [] } ∧
      exec .i2cFinish s = .next t ∧ exec .i2cFinish t = .next t ∧ exec (.i2cRead n) t = .next u ∧
      u.resp = .bytes (match s.cfg.noAddr with
        | .empty => []
        | .zeroFilled => List.replicate n 0) ∧ u.events = [.diag .i2cReadNoAddress]

/-! The command engine. -/

/-- R251, R253, R254, R261: what a command write of a whole code does, for every table entry. An unknown code clears the pending command (the spec's own decision D23). A device handler changes only `store`, `meas` and `dev`, within their domains (log entry 8). -/
def Obligations.CommandWrite : Prop :=
  ∀ (s : State) (code : Code) (payload : List Byte), s.phase ≠ .absent → s.cfg.mode = .i2cCmd →
    exec (.cmdWrite (.command code payload)) s = .next (match commandAt s.cfg.cmds code with
      | none => { s with
          cmd := { pending := none }, phase := .running, resp := .nothing, events := [.diag (.cmdUnknownCode code)] }
      | some e =>
        match e.wr with
        | none => { s with
            cmd := { pending := some code }, phase := .running, resp := .nothing
            events := if payload = [] then [] else [.diag (.cmdPayloadIgnored code)] }
        | some .storePayload => { s with
            cmd := { pending := some code }, dev := payload, phase := .running, resp := .nothing, events := [] }
        | some (.device id) =>
          let out := Config.deviceWriteHandler id payload { s.toDevice with cmd := { pending := some code } }
          { s with
            cmd := { pending := some code }, store := cellsFrom out.1.store s.store
            meas := measFrom out.1.meas s.meas, dev := out.1.dev
            phase := .running, resp := .nothing, events := out.2.map Event.diag })

/-- R255, R256, R258: a read of a pending command with a read handler returns the first `n` bytes of the interleaved stream of the handler's raw bytes, and changes no field of S. Taking only the raw bytes the answer needs gives the same as taking any more of them (the spec marks that as derived). That the answer is never padded and may be shorter than `n` is the spec's own decision D27, that the handler is pure D28. -/
def Obligations.CommandReadIsAPrefixOfTheStream : Prop :=
  ∀ (s : State) (n m : Nat) (code : Code) (e : CmdEntry) (rd : ReadHandler), s.phase ≠ .absent → s.cfg.mode = .i2cCmd →
    s.cmd.pending = some code → commandAt s.cfg.cmds code = some e → e.rd = some rd →
    2 * (n / 3) + min (n % 3) 2 ≤ m →
    exec (.cmdRead n) s = .next { s with
      phase := .running, resp := .bytes ((interleave s.cfg.crc (s.rawTake m rd)).take n), events := [] }

/-- R116, R256, R257: the interleaved stream: byte `3j` is `raw[2j]`, byte `3j+1` is `raw[2j+1]`, byte `3j+2` is their checksum; an odd last byte stands alone (the spec's own decision D26). -/
def Obligations.InterleavedStream : Prop :=
  ∀ (p : CrcParams) (raw : List Byte),
    (interleave p raw).length = raw.length + raw.length / 2 ∧
    (∀ j x y, raw[2 * j]? = some x → raw[2 * j + 1]? = some y →
      (interleave p raw)[3 * j]? = some x ∧ (interleave p raw)[3 * j + 1]? = some y ∧
      (interleave p raw)[3 * j + 2]? = some (BitVec.ofNat 8 (crc p [x, y]))) ∧
    (raw.length % 2 = 1 → (interleave p raw).getLast? = raw.getLast?)

/-- R398: each read starts the handler again: a second read of `n2` bytes gets the first `n2` bytes of the stream, whatever was read before, and S is as before both. That the handler is pure is the spec's own decision D28 (R260); that the answer may be shorter than `n2` and is never padded is D27 (R258). -/
def Obligations.CommandReadsRestart : Prop :=
  ∀ (s : State) (n1 n2 m : Nat) (code : Code) (e : CmdEntry) (rd : ReadHandler), s.phase ≠ .absent →
    s.cfg.mode = .i2cCmd → s.cmd.pending = some code → commandAt s.cfg.cmds code = some e → e.rd = some rd → n2 ≤ m →
    ∃ t u, exec (.cmdRead n1) s = .next t ∧ exec (.cmdRead n2) t = .next u ∧
      u.resp = .bytes ((interleave s.cfg.crc (s.rawTake m rd)).take n2) ∧ u.toDevice = s.toDevice

/-- R255, R262: a read with no pending command, or of a command with no read handler, returns the fallback of P_NOADDR_READ with a diagnostic. The spec's own decisions D24 and D25. -/
def Obligations.CommandReadFallback : Prop :=
  ∀ (s : State) (n : Nat), s.phase ≠ .absent → s.cfg.mode = .i2cCmd →
    (s.cmd.pending = none → exec (.cmdRead n) s = .next { s with
      phase := .running
      resp := .bytes (match s.cfg.noAddr with
        | .empty => []
        | .zeroFilled => List.replicate n 0)
      events := [.diag .cmdReadNoPending] }) ∧
    (∀ code e, s.cmd.pending = some code → commandAt s.cfg.cmds code = some e → e.rd = none →
      exec (.cmdRead n) s = .next { s with
        phase := .running
        resp := .bytes (match s.cfg.noAddr with
          | .empty => []
          | .zeroFilled => List.replicate n 0)
        events := [.diag (.cmdNoReadHandler code)] })

/-- R259: the stop clears the pending command and nothing else; a read after it takes the fallback of R255, the spec's own decision D24. -/
def Obligations.CommandStop : Prop :=
  ∀ (s : State) (n : Nat), s.phase ≠ .absent → s.cfg.mode = .i2cCmd →
    ∃ t u, t = { s with cmd := { pending := none }, phase := .running, resp := .nothing, events := [] } ∧
      exec .cmdFinish s = .next t ∧ exec .cmdFinish t = .next t ∧ exec (.cmdRead n) t = .next u ∧
      u.resp = .bytes (match s.cfg.noAddr with
        | .empty => []
        | .zeroFilled => List.replicate n 0) ∧ u.events = [.diag .cmdReadNoPending]

/-! The register file. -/

/-- R171, R177: a read of an address with no register returns P_REG_DEFAULT, and a write to one is discarded; each raises one diagnostic and changes no state. -/
def Obligations.UndefinedAddresses : Prop :=
  ∀ (s : State) (a : Nat) (b : Byte), s.phase ≠ .absent → Cfg.regAt s.cfg a = none →
    exec (.rfRead a) s = .next { s with
      phase := .running, resp := .byte s.cfg.regDefault, events := [.diag (.undefRegRead a)] } ∧
    exec (.rfWrite a b) s = .next { s with
      phase := .running, resp := .nothing, events := [.diag (.undefRegWrite a)] }

/-- R170, R181, R163, R172 to R174: a read gives each field's bits the value that field has in the state the fields before it left, and the bits no field covers their reset value; a register with a BURST or LENGTH field answers and does what BURST_READ or LENGTH_READ does (R295, R296); a device provider is called once and its value cut to the field. For a register of any fields and providers. The spec's own decisions D14 (uncovered bits), D16 (order), D15 and D21. That a device provider changes only `dev` and stored bytes, and so leaves both bus machines and the pending command alone, is log entry 6 (R89); a constant too wide is cut as log entry 17 says. -/
def Obligations.RegisterReadTakesEachFieldInOrder : Prop :=
  (∀ (s : State) (a : Nat) (r : RegDecl), s.phase ≠ .absent → Cfg.regAt s.cfg a = some r → regFits r = true →
    (∃ t v, exec (.rfRead a) s = .next t ∧ t.resp = .byte v ∧
      (∀ i f, r.fields[i]? = some f →
        fieldOf f v = (State.readField (s.begin.readFields a (r.fields.take i)).2 a f).1) ∧
      v &&& ~~~ coveredMask r.fields = r.reset &&& ~~~ coveredMask r.fields ∧
      t = { (s.begin.readFields a r.fields).2 with resp := .byte v } ∧
      t.spi = s.spi ∧ t.i2c = s.i2c ∧ t.cmd = s.cmd ∧ t.hostMem = s.hostMem) ∧
    (∀ f ∈ r.fields, f.prov = some .burst → f.acc = .read → exec (.rfRead a) s = exec .burstRead s) ∧
    (∀ k, ∀ f ∈ r.fields, f.prov = some (.length k) → f.acc = .read → exec (.rfRead a) s = exec (.lengthRead k) s)) ∧
  (∀ (u : State) (a : Nat) (f : FieldDecl) (fs : List FieldDecl),
    (u.readFields a []).2 = u ∧ (u.readFields a (f :: fs)).2 = ((u.readField a f).2.readFields a fs).2 ∧
    (f.acc = .reservedConstant → u.readField a f = (f.const &&& widthMask f.w, u)) ∧
    (f.acc = .write → u.readField a f = (0, u)) ∧
    (f.acc = .read ∨ f.acc = .readWrite →
      (f.prov = none → u.readField a f = (fieldOf f (u.storeAt a), u)) ∧
      (∀ id, f.prov = some (.device id) →
        let out := Config.deviceProvider id u.toDevice
        u.readField a f = (out.1 &&& widthMask f.w, { u with
          store := cellsFrom out.2.1.store u.store, dev := out.2.1.dev
          events := u.events ++ out.2.2.map Event.diag }))))

/-- R89, R170, R172 to R174: a register whose readable fields have no provider reads as its stored bits, its constants, 0 for a write-only field (the spec's own decision D15) and its reset bits where no field is (D14), and the read changes nothing. A constant too wide for its field is cut to it (log entry 17). -/
def Obligations.RegisterReadWithoutProviders : Prop :=
  ∀ (s : State) (a : Nat) (r : RegDecl), s.phase ≠ .absent → Cfg.regAt s.cfg a = some r → regFits r = true →
    (∀ f ∈ r.fields, (f.acc = .read ∨ f.acc = .readWrite) → f.prov = none) →
    ∃ v, exec (.rfRead a) s = .next { s with phase := .running, resp := .byte v, events := [] } ∧
      (∀ f ∈ r.fields, fieldOf f v = match f.acc with
        | .read => fieldOf f (s.storeAt a)
        | .readWrite => fieldOf f (s.storeAt a)
        | .write => 0
        | .reservedConstant => f.const &&& widthMask f.w) ∧
      v &&& ~~~ coveredMask r.fields = r.reset &&& ~~~ coveredMask r.fields

/-- R172: a ReservedConstant field, whose constant is a value of its width (R161), reads as that constant in every state, also after any write of its register. -/
def Obligations.ReservedFieldReadsItsConstant : Prop :=
  ∀ (s : State) (a : Nat) (r : RegDecl) (f : FieldDecl), s.phase ≠ .absent → Cfg.regAt s.cfg a = some r →
    regFits r = true → f ∈ r.fields → f.acc = .reservedConstant → f.const &&& widthMask f.w = f.const →
    (∃ t v, exec (.rfRead a) s = .next t ∧ t.resp = .byte v ∧ fieldOf f v = f.const) ∧
    (∀ b, ∃ u t v, exec (.rfWrite a b) s = .next u ∧ exec (.rfRead a) u = .next t ∧ t.resp = .byte v ∧
      fieldOf f v = f.const)

/-- R175, R176, R181, R165: a write first stores the written bits of every Write and ReadWrite field and no other bit, with the diagnostics in declaration order, and then calls on that state the observer of each Write and ReadWrite field once, in declaration order, with the field's old stored bits and the written bits. The core's observers do what CAPTURE and DMA_ENABLE do (R291, R299), their events after those of the operation so far; a device observer's result is taken over within the bounds of each field (R164; log entry 7). The order is the spec's own decision D16, the uncovered bits D14; which observer a field has is log entry 11, an edge on a field wider than one bit log entry 12. -/
def Obligations.RegisterWriteStoresThenObserves : Prop :=
  (∀ (s : State) (a : Nat) (b : Byte) (r : RegDecl), s.phase ≠ .absent → Cfg.regAt s.cfg a = some r → regFits r = true →
    exec (.rfWrite a b) s = .next ((r.fields.filterMap fun f =>
        if f.acc = .write ∨ f.acc = .readWrite then (Cfg.observerOf s.cfg a f).map (Prod.mk f) else none).foldl
      (fun u p => u.callObserver (fieldOf p.1 (s.storeAt a)) (fieldOf p.1 b) p.2)
      { s with
        store := cellSet s.store a (mergeFields (s.storeAt a) b r.fields), phase := .running, resp := .nothing
        events := (r.fields.filterMap (fieldDiag a (s.storeAt a) b)).map Event.diag }) ∧
    (∀ f ∈ r.fields, fieldOf f (mergeFields (s.storeAt a) b r.fields) = match f.acc with
      | .write => fieldOf f b
      | .readWrite => fieldOf f b
      | .read => fieldOf f (s.storeAt a)
      | .reservedConstant => fieldOf f (s.storeAt a)) ∧
    mergeFields (s.storeAt a) b r.fields &&& ~~~ coveredMask r.fields = s.storeAt a &&& ~~~ coveredMask r.fields) ∧
  (∀ u : State, u.phase ≠ .absent →
    (∀ old new, ∃ t, exec (.capture old new) u = .next t ∧
      u.callObserver old new .capture = { t with phase := u.phase, resp := u.resp, events := u.events ++ t.events }) ∧
    (u.cfg.dma = true → ∃ t, exec (.dmaEnable 0 1) u = .next t ∧
      u.callObserver 0 1 .dmaEnable = { t with phase := u.phase, resp := u.resp, events := u.events ++ t.events }) ∧
    (∀ old new, ¬ (old = 0 ∧ new = 1) → u.callObserver old new .dmaEnable = u) ∧
    (∀ old new id,
      let out := Config.deviceObserver id old new u.toDevice
      u.callObserver old new (.device id) = { u with
        store := cellsFrom out.1.store u.store
        spi := { out.1.spi with addr := fitAddr u.cfg.wrap 7 out.1.spi.addr }
        i2c := { out.1.i2c with addr := fitAddr u.cfg.wrap 8 out.1.i2c.addr }
        cmd := { pending := out.1.cmd.pending.filter (registered u.cfg.cmds) }
        fifo := out.1.fifo, last := out.1.last, frames := out.1.frames
        fidx := if out.1.fidx < out.1.frames.length then out.1.fidx else 0
        buf := out.1.buf, cur := min out.1.cur out.1.buf.length, live := out.1.live
        meas := measFrom out.1.meas u.meas, dev := out.1.dev
        events := u.events ++ out.2, hostMem := out.2.foldl Event.apply u.hostMem }))

/-- R175, R178, R179: the frame of a write of a register with no observer: the one byte changes as its fields say, every other register keeps its byte, and a Read or ReservedConstant field raises its diagnostic exactly when the written bits differ. The condition for a Read field is the spec's own decision D18; a constant too wide for its field is cut to it (log entry 17). -/
def Obligations.RegisterWriteWithoutObservers : Prop :=
  ∀ (s : State) (a : Nat) (b : Byte) (r : RegDecl), s.phase ≠ .absent → s.Inv → Cfg.regAt s.cfg a = some r →
    regFits r = true →
    (∀ f ∈ r.fields, (f.acc = .write ∨ f.acc = .readWrite) → Cfg.observerOf s.cfg a f = none) →
    ∃ t, exec (.rfWrite a b) s = .next t ∧
      t = { s with store := t.store, phase := .running, resp := .nothing, events := t.events } ∧
      (∀ k, k ≠ a → cellAt t.store k = cellAt s.store k) ∧
      (∀ f ∈ r.fields, fieldOf f (t.storeAt a) = match f.acc with
        | .write => fieldOf f b
        | .readWrite => fieldOf f b
        | .read => fieldOf f (s.storeAt a)
        | .reservedConstant => fieldOf f (s.storeAt a)) ∧
      (∀ f ∈ r.fields, f.acc = .read →
        (Event.diag (.roFieldWrite a f.off) ∈ t.events ↔ fieldOf f b ≠ fieldOf f (s.storeAt a))) ∧
      (∀ f ∈ r.fields, f.acc = .reservedConstant →
        (Event.diag (.reservedMismatch a f.off) ∈ t.events ↔ fieldOf f b ≠ f.const &&& widthMask f.w))

/-! The CRC engine. -/

/-- R149: bit `i` of `reflect_n(v)` is bit `n-1-i` of `v`. -/
def Obligations.ReflectReversesTheBits : Prop :=
  ∀ n v i : Nat, (reflect n v).testBit i = (decide (i < n) && v.testBit (n - 1 - i))

/-- R140, R146: CRC_CALC answers the checksum of the data under the instance's parameters and changes nothing; so equal inputs give equal checksums, whatever happened between. -/
def Obligations.CrcCalcIsPure : Prop :=
  ∀ (s t : State) (data : List Byte), s.phase ≠ .absent → t.phase ≠ .absent → s.cfg.crc = t.cfg.crc →
    exec (.crcCalc data) s =
      .next { s with phase := .running, resp := .checksum (crc s.cfg.crc data), events := [] } ∧
    exec (.crcCalc data) t =
      .next { t with phase := .running, resp := .checksum (crc s.cfg.crc data), events := [] }

/-- R140, R142 to R145: the checksum of no byte is the initial value, reflected when P_CRC_REFOUT, XOR P_CRC_XOROUT; each byte more is one injection and eight bit steps on the register; and a bit step shifts the register left by one within its width and XORs the polynomial in when the bit shifted out of the top was 1. The top-bit condition and the alignment above 8 bits are general knowledge, as the spec says (G1, G2; log entries 21 and 22). -/
def Obligations.CrcRegister : Prop :=
  (∀ (p : CrcParams) (data : List Byte) (b : Byte), ∃ reg : Nat,
    crc p data = (if p.refOut then reflect p.width reg else reg) ^^^ p.xorOut ∧ (data = [] → reg = p.init) ∧
    crc p (data ++ [b]) =
      (if p.refOut then reflect p.width (crcSteps p 8 (reg ^^^ ((if p.refIn then reflect 8 b.toNat else b.toNat) <<< (p.width - 8))))
        else crcSteps p 8 (reg ^^^ ((if p.refIn then reflect 8 b.toNat else b.toNat) <<< (p.width - 8)))) ^^^ p.xorOut) ∧
  (∀ (p : CrcParams) (k reg : Nat), crcSteps p 0 reg = reg ∧
    crcSteps p (k + 1) reg = crcSteps p k
      (if reg.testBit (p.width - 1) then (2 * reg % 2 ^ p.width) ^^^ p.poly else 2 * reg % 2 ^ p.width))

/-- R145, R147: for parameters that configuration accepts, the checksum is a value of P_CRC_W bits; the command engine's is one byte. -/
def Obligations.ChecksumFitsItsWidth : Prop :=
  ∀ (c : Cfg) (data : List Byte), Cfg.crcOk c = true →
    crc c.crc data < 2 ^ c.crc.width ∧ (c.mode = .i2cCmd → crc c.crc data < 256)

/-- R140, R143: the bit-serial CRC is affine: the checksum of the XOR of two messages of one length is the XOR of theirs and that of the zero message, for every parameter set. It rests on the condition for the XOR, the top bit, which is general knowledge, as the spec says (G2; log entry 22). -/
def Obligations.CrcIsAffine : Prop :=
  ∀ (p : CrcParams) (xs ys : List Byte), xs.length = ys.length →
    crc p (List.zipWith (· ^^^ ·) xs ys) = crc p xs ^^^ crc p ys ^^^ crc p (List.replicate xs.length 0)

/-! Capture, burst and length. -/

/-- R289 to R292: a capture takes its frame from the live source, else from the frame store, else takes the empty one, puts it into the active buffer with the cursor at 0 and sets READY; it raises no event. The order of sources is the spec's own decision D34, the trigger condition D35, READY D36; the live source is the environment's (log entry 5). -/
def Obligations.CaptureFillsTheActiveBuffer : Prop :=
  ∀ (s : State) (old new : Byte), s.phase ≠ .absent →
    ((s.cfg.triggerCond = .writeNonzero ∧ new = 0) →
      exec (.capture old new) s = .next { s with phase := .running, resp := .nothing, events := [] }) ∧
    ((s.cfg.triggerCond = .anyWrite ∨ new ≠ 0) →
      exec (.capture old new) s = .next { s with
        buf := if s.live then s.liveIn.head?.getD (Config.liveFrame s.draws) else (s.frames[s.fidx]?).getD []
        cur := 0
        fidx := if s.live then s.fidx else if s.frames = [] then s.fidx else (s.fidx + 1) % s.frames.length
        liveIn := if s.live then s.liveIn.tail else s.liveIn
        draws := if s.live ∧ s.liveIn = [] then s.draws + 1 else s.draws
        store := match s.cfg.readyField with
          | none => s.store
          | some r =>
            match Cfg.fieldAt s.cfg r with
            | none => s.store
            | some f => cellSet s.store r.addr (setBits (s.storeAt r.addr) f.off f.w 1)
        phase := .running, resp := .nothing, events := [] })

/-- R292, R400: whatever byte starts a capture, READY is set after it, even when the same byte wrote 0 to READY: a write of a register that holds the TRIGGER field and no other observed field. READY on an empty capture is the spec's own decision D36, the trigger condition D35. -/
def Obligations.CaptureByAWriteLeavesReadySet : Prop :=
  ∀ (s : State) (a : Nat) (b : Byte) (r : RegDecl) (f : FieldDecl) (rr : FieldRef) (g : FieldDecl),
    s.phase ≠ .absent → s.Inv → Cfg.regAt s.cfg a = some r → regFits r = true → f ∈ r.fields →
    s.cfg.triggerField = some { addr := a, off := f.off } → (f.acc = .write ∨ f.acc = .readWrite) →
    (∀ h ∈ r.fields, h.off ≠ f.off → (h.acc = .write ∨ h.acc = .readWrite) → Cfg.observerOf s.cfg a h = none) →
    (s.cfg.triggerCond = .anyWrite ∨ fieldOf f b ≠ 0) →
    s.cfg.readyField = some rr → Cfg.fieldAt s.cfg rr = some g → fieldFits g = true →
    ∃ t, exec (.rfWrite a b) s = .next t ∧ t.flag t.cfg.readyField = 1 ∧ t.cur = 0 ∧ t.live = s.live ∧
      t.hostMem = s.hostMem ∧ (∀ k, k ≠ a → k ≠ rr.addr → cellAt t.store k = cellAt s.store k)

/-- R295, R297: a burst read returns the byte at the cursor and moves the cursor; at the end of the buffer it returns 0x00, raises one diagnostic and moves nothing. -/
def Obligations.BurstRead : Prop :=
  ∀ s : State, s.phase ≠ .absent →
    (∀ v, s.buf[s.cur]? = some v → exec .burstRead s =
      .next { s with cur := s.cur + 1, phase := .running, resp := .byte v, events := [] }) ∧
    (s.buf.length ≤ s.cur → exec .burstRead s =
      .next { s with phase := .running, resp := .byte 0, events := [.diag .burstPastEnd] })

/-- R295: from the cursor on, burst reads return the rest of the buffer in order and leave the cursor at its end. -/
def Obligations.BurstReadsDrainTheBuffer : Prop :=
  ∀ s : State, s.phase ≠ .absent → s.cur ≤ s.buf.length →
    ∃ t, runAll (List.replicate (s.buf.length - s.cur) .burstRead) s = some ((s.buf.drop s.cur).map Response.byte, t) ∧
      t.toDevice = { s.toDevice with cur := s.buf.length } ∧ t.hostMem = s.hostMem

/-- R296: byte `k` of the buffer's length, with no side effect. The spec's own decision D56. -/
def Obligations.LengthReadGivesByteK : Prop :=
  ∀ (s : State) (k : Nat), s.phase ≠ .absent →
    ∃ v : Byte, exec (.lengthRead k) s = .next { s with phase := .running, resp := .byte v, events := [] } ∧
      v.toNat = s.buf.length / 256 ^ k % 256

/-! The DMA push. -/

/-- R302, R299, R401: an aborted DMA enable changes nothing, emits no `HostWrite` and no pulse, and raises one diagnostic: STREAM_EN is looked at first. Invoked by itself it writes no DMA_EN bit (log entry 16). By a write of the register that holds DMA_EN, with no other observed field: the stored DMA_EN bit takes the written bit, also on an abort; a STREAM_EN bit in the same byte is stored first; and a write that is no rising edge, such as a second 1, stores and does no more. The spec's own decisions D38, D39 and D60. -/
def Obligations.AbortedDmaEnable : Prop :=
  (∀ s : State, s.phase ≠ .absent → s.cfg.dma = true →
    (s.flag s.cfg.streamEnField = 0 → exec (.dmaEnable 0 1) s =
      .next { s with phase := .running, resp := .nothing, events := [.diag .dmaStreamNotEnabled] }) ∧
    (s.flag s.cfg.streamEnField ≠ 0 → s.live = false → s.frames = [] → exec (.dmaEnable 0 1) s =
      .next { s with phase := .running, resp := .nothing, events := [.diag .dmaNoSource] })) ∧
  (∀ (s u : State) (a : Nat) (b : Byte) (r : RegDecl) (f : FieldDecl), s.phase ≠ .absent → s.Inv →
    Cfg.regAt s.cfg a = some r → regFits r = true → f ∈ r.fields → (f.acc = .write ∨ f.acc = .readWrite) →
    Cfg.observerOf s.cfg a f = some .dmaEnable →
    (∀ h ∈ r.fields, h.off ≠ f.off → (h.acc = .write ∨ h.acc = .readWrite) → Cfg.observerOf s.cfg a h = none) →
    u = { s with
      store := cellSet s.store a (mergeFields (s.storeAt a) b r.fields), phase := .running, resp := .nothing
      events := (r.fields.filterMap (fieldDiag a (s.storeAt a) b)).map Event.diag } →
    fieldOf f (u.storeAt a) = fieldOf f b ∧
    (∀ g ∈ r.fields, s.cfg.streamEnField = some { addr := a, off := g.off } → (g.acc = .write ∨ g.acc = .readWrite) →
      u.flag u.cfg.streamEnField = fieldOf g b) ∧
    (¬ (fieldOf f (s.storeAt a) = 0 ∧ fieldOf f b = 1) → exec (.rfWrite a b) s = .next u) ∧
    (fieldOf f (s.storeAt a) = 0 → fieldOf f b = 1 → u.flag u.cfg.streamEnField = 0 →
      exec (.rfWrite a b) s = .next { u with events := u.events ++ [.diag .dmaStreamNotEnabled] }) ∧
    (fieldOf f (s.storeAt a) = 0 → fieldOf f b = 1 → u.flag u.cfg.streamEnField ≠ 0 → s.live = false → s.frames = [] →
      exec (.rfWrite a b) s = .next { u with events := u.events ++ [.diag .dmaNoSource] }))

/-- R299, R301, R304, R84, R401: without a rising edge DMA_ENABLE has no effect; a DMA push writes the frame of its source into host memory from `P_DMA_ADDR(store)` on, byte `i` at `addr + i`, and nowhere else, sets the STREAM_EN bits to 0 and no other stored bit, raises one pulse after the write, and leaves the active buffer alone. A write of the register that holds DMA_EN, with no other observed field, that takes the bit from 0 to 1 is that push on the state with the byte stored, and DMA_EN keeps the written bit. The spec's own decisions D34, D38, D40, D60 and D63; the width of the address is applied as log entry 4 says. -/
def Obligations.DmaPush : Prop :=
  (∀ (s : State) (old new : BitVec 1), s.phase ≠ .absent → s.cfg.dma = true → ¬ (old = 0 ∧ new = 1) →
    exec (.dmaEnable old new) s = .next { s with phase := .running, resp := .nothing, events := [] }) ∧
  (∀ s : State, s.phase ≠ .absent → s.cfg.dma = true → s.flag s.cfg.streamEnField ≠ 0 →
    (s.live = true ∨ s.frames ≠ []) →
    ∃ (t : State) (frame : Frame), exec (.dmaEnable 0 1) s = .next t ∧
      frame = (if s.live then s.liveIn.head?.getD (Config.liveFrame s.draws) else (s.frames[s.fidx]?).getD []) ∧
      (∀ i, i < frame.length → cellAt t.hostMem (s.dmaAddress + i) = frame[i]?) ∧
      (∀ k, k < s.dmaAddress ∨ s.dmaAddress + frame.length ≤ k → cellAt t.hostMem k = cellAt s.hostMem k) ∧
      t.flag t.cfg.streamEnField = 0 ∧
      t = { s with
        fidx := if s.live then s.fidx else (s.fidx + 1) % s.frames.length
        liveIn := if s.live then s.liveIn.tail else s.liveIn
        draws := if s.live ∧ s.liveIn = [] then s.draws + 1 else s.draws
        store := match s.cfg.streamEnField with
          | none => s.store
          | some r =>
            match Cfg.fieldAt s.cfg r with
            | none => s.store
            | some f => cellSet s.store r.addr (setBits (s.storeAt r.addr) f.off f.w 0)
        hostMem := t.hostMem, phase := .running, resp := .nothing
        events := [.hostWrite s.dmaAddress frame, .irqPulse] }) ∧
  (∀ (s u : State) (a : Nat) (b : Byte) (r : RegDecl) (f : FieldDecl), s.phase ≠ .absent → s.Inv →
    Cfg.regAt s.cfg a = some r → regFits r = true → f ∈ r.fields → (f.acc = .write ∨ f.acc = .readWrite) →
    Cfg.observerOf s.cfg a f = some .dmaEnable →
    (∀ h ∈ r.fields, h.off ≠ f.off → (h.acc = .write ∨ h.acc = .readWrite) → Cfg.observerOf s.cfg a h = none) →
    u = { s with
      store := cellSet s.store a (mergeFields (s.storeAt a) b r.fields), phase := .running, resp := .nothing
      events := (r.fields.filterMap (fieldDiag a (s.storeAt a) b)).map Event.diag } →
    fieldOf f (s.storeAt a) = 0 → fieldOf f b = 1 →
    ∃ t, exec (.dmaEnable 0 1) u = .next t ∧
      exec (.rfWrite a b) s = .next { t with events := u.events ++ t.events } ∧
      (s.cfg.streamEnField ≠ some { addr := a, off := f.off } → fieldOf f (t.storeAt a) = fieldOf f b))

/-! The host port. -/

/-- R280, R282, R321, R322, R327: feeding and loading append, attaching and detaching set `live`; a load that fails is an error that changes nothing of S. The spec's own decisions D30, D31, D50 and D54; that a failed load ends the configuration phase is the model's choice (log entry 14). -/
def Obligations.IngestionOperations : Prop :=
  ∀ (s : State) (v : Byte) (vs : List Byte) (target : Target), s.phase ≠ .absent →
    exec (.feedSample v) s = .next { s with fifo := s.fifo ++ [v], phase := .running, resp := .ok, events := [] } ∧
    exec (.feedSamples vs) s = .next { s with fifo := s.fifo ++ vs, phase := .running, resp := .ok, events := [] } ∧
    exec (.loadPath .samples (.bytes vs)) s =
      .next { s with fifo := s.fifo ++ vs, phase := .running, resp := .ok, events := [] } ∧
    exec (.loadPath .frame (.bytes vs)) s =
      .next { s with frames := s.frames ++ [vs], phase := .running, resp := .ok, events := [] } ∧
    exec (.loadPath target .fail) s = .next { s with phase := .running, resp := .error .loadFailed, events := [] } ∧
    exec .attachLive s = .next { s with live := true, phase := .running, resp := .ok, events := [] } ∧
    exec .detachLive s = .next { s with live := false, phase := .running, resp := .ok, events := [] }

/-- R285 to R288: the frame store's operations and the explicit load. The spec's own decisions D31, D32, D33 and D37. -/
def Obligations.FrameStoreOperations : Prop :=
  ∀ (s : State) (f : Frame), s.phase ≠ .absent →
    exec (.addFrame f) s = .next { s with frames := s.frames ++ [f], phase := .running, resp := .ok, events := [] } ∧
    exec .dropFrames s = .next { s with frames := [], fidx := 0, phase := .running, resp := .ok, events := [] } ∧
    exec (.loadActive f) s = .next { s with buf := f, cur := 0, phase := .running, resp := .ok, events := [] } ∧
    (s.frames = [] → exec .readFrame s =
      .next { s with phase := .running, resp := .bytes [], events := [.diag .frameStoreEmpty] }) ∧
    (∀ g, s.frames[s.fidx]? = some g → exec .readFrame s =
      .next { s with
        fidx := (s.fidx + 1) % s.frames.length, phase := .running, resp := .bytes g, events := [] })

/-- R286: adding frames to an empty store and reading twice as often returns each frame exactly twice, in the order they were added, and the index is 0 again. -/
def Obligations.FramesComeRoundTwice : Prop :=
  ∀ (s : State) (fs : List Frame), s.phase ≠ .absent → s.frames = [] → s.fidx = 0 → fs ≠ [] →
    ∃ t, runAll (fs.map Instr.addFrame ++ List.replicate (2 * fs.length) .readFrame) s =
        some (fs.map (fun _ => Response.ok) ++ fs.map Response.bytes ++ fs.map Response.bytes, t) ∧
      t.toDevice = { s.toDevice with frames := fs, fidx := 0 }

/-- R324: a value within the inclusive bounds is taken, and no other channel changes; an unknown channel is an error that changes nothing of S. The bounds are the spec's own decision D42; that a failed operation ends the configuration phase is the model's choice (log entry 14). -/
def Obligations.SetMeasurement : Prop :=
  ∀ (s : State) (c : Nat) (v : Rat), s.phase ≠ .absent → s.Inv →
    (channelAt s.cfg.meas c = none → exec (.setMeas c v) s =
      .next { s with phase := .running, resp := .error (.unknownChannel c), events := [] }) ∧
    (∀ m, channelAt s.cfg.meas c = some m → m.lo ≤ v → v ≤ m.hi →
      ∃ t, exec (.setMeas c v) s = .next t ∧ measAt t.meas c = some v ∧ (∀ k, k ≠ c → measAt t.meas k = measAt s.meas k) ∧
        t = { s with meas := t.meas, phase := .running, resp := .ok, events := [] })

/-- R325, R326: an out-of-range value is replaced by the nearer bound, with one diagnostic and the result `ok`, on a CLAMP channel; on a REJECT channel it is refused with MEAS_OUT_OF_RANGE and the measurement keeps its value. That a refused operation ends the configuration phase is the model's choice (log entry 14). -/
def Obligations.OutOfRangeMeasurement : Prop :=
  ∀ (s : State) (c : Nat) (v : Rat) (m : MeasDecl), s.phase ≠ .absent → s.Inv → channelAt s.cfg.meas c = some m →
    m.lo ≤ m.hi → (v < m.lo ∨ m.hi < v) →
    (m.policy = .clamp →
      ∃ t, exec (.setMeas c v) s = .next t ∧ measAt t.meas c = some (if v < m.lo then m.lo else m.hi) ∧
        (∀ k, k ≠ c → measAt t.meas k = measAt s.meas k) ∧
        t = { s with meas := t.meas, phase := .running, resp := .ok, events := [.diag (.measClamped c v)] }) ∧
    (m.policy = .reject → exec (.setMeas c v) s =
      .next { s with phase := .running, resp := .error (.measOutOfRange c v), events := [] })

/-! Configuration and reset. -/

/-- R320 check 3, R250: in the configuration phase REGISTER_CMD adds one entry for a new code and changes no other; a code registered twice is an error that leaves no instance (R329); after the first operation it is refused (the spec's own decision D49). The phases are the model's (log entry 14). -/
def Obligations.RegisterCommand : Prop :=
  ∀ (s : State) (code : Code) (wr : Option WriteHandler) (rd : Option ReadHandler),
    (s.phase = .configuring → registered s.cfg.cmds code = false →
      ∃ t, exec (.registerCmd code wr rd) s = .next t ∧
        commandAt t.cfg.cmds code = some { code := code, wr := wr, rd := rd } ∧
        (∀ k, k ≠ code → commandAt t.cfg.cmds k = commandAt s.cfg.cmds k) ∧
        t = { s with cfg := { s.cfg with cmds := t.cfg.cmds }, resp := .ok, events := [] }) ∧
    (s.phase = .configuring → registered s.cfg.cmds code = true →
      ∃ t, exec (.registerCmd code wr rd) s = .next t ∧ t.phase = .absent ∧ t.resp = .error (.duplicateCommand code) ∧
        t.events = []) ∧
    (s.phase = .running → exec (.registerCmd code wr rd) s = .refused .configurationClosed)

/-- R320, R250: an accepted configuration has the given commands, no code twice; one that gives a code twice, with a register map and CRC parameters in order, fails with the first code that was given before, and leaves no instance. The order of the checks is the spec's own decision D44. -/
def Obligations.DuplicateCommandsFailSetup : Prop :=
  (∀ (c c' : Cfg) (cmds : List CmdEntry), Cfg.build c cmds = .ok c' →
    c' = { c with cmds := cmds } ∧ cmds.Pairwise fun e f => e.code ≠ f.code) ∧
  (∀ (s : State) (c : Cfg) (cmds : List CmdEntry) (rest : List Call), s.phase ≠ .running →
    s.inbox = .configure c cmds :: rest → Cfg.regmapOk c = true → Cfg.crcOk c = true →
    (¬ cmds.Pairwise fun e f => e.code ≠ f.code) →
    ∃ t code, step s = .next t ∧ t.phase = .absent ∧ t.resp = .error (.duplicateCommand code) ∧
      (∃ pre e post, cmds = pre ++ e :: post ∧ e.code = code ∧ (pre.Pairwise fun x y => x.code ≠ y.code) ∧
        ∃ x ∈ pre, x.code = code))

/-- R329: a failed configuration, by the call `configure` or by a failed REGISTER_CMD, leaves no instance, so that every operation is refused, and no command; a host operation that fails leaves every field of S, the configuration and host memory as they were. The phases, and that a failed operation ends the configuration phase too, are the model's choice (log entry 14). -/
def Obligations.FailureIsAllOrNothing : Prop :=
  (∀ (s : State) (c : Cfg) (cmds : List CmdEntry) (rest : List Call) (e : CfgError), s.phase ≠ .running →
    s.inbox = .configure c cmds :: rest → Cfg.build c cmds = .error e →
    ∃ t, step s = .next t ∧ t.resp = .error e ∧ t.phase = .absent ∧ t.cfg.cmds = [] ∧
      ∀ i, exec i t = .refused .noInstance) ∧
  (∀ (s t : State) (code : Code) (wr : Option WriteHandler) (rd : Option ReadHandler) (e : CfgError),
    exec (.registerCmd code wr rd) s = .next t → t.resp = .error e →
    t.phase = .absent ∧ t.cfg.cmds = [] ∧ ∀ i, exec i t = .refused .noInstance) ∧
  (∀ (s t : State) (i : Instr) (e : CfgError), exec i s = .next t → i.port = .host → t.resp = .error e →
    t = { s with phase := .running, resp := .error e, events := [] })

/-- R65, R391, R320: a configuration that passes leaves the power-on state of R65, which an explicit reset then does not change. The spec's own decisions D45 and D46; the call `configure` and the fields beside S are the model's (log entry 14), and a register declared above the mode's address space has no storage (log entry 13). -/
def Obligations.PowerOnState : Prop :=
  ∀ (s : State) (c c' : Cfg) (cmds : List CmdEntry) (rest : List Call), s.phase ≠ .running →
    s.inbox = .configure c cmds :: rest → Cfg.build c cmds = .ok c' →
    ∃ t u, step s = .next t ∧ (∀ a, cellAt t.store a = (Cfg.regAt c' a).map RegDecl.reset) ∧
      (∀ k, measAt t.meas k = (channelAt c'.meas k).map MeasDecl.init) ∧
      t = { s with
        store := t.store, spi := { st := .idle, addr := 0, cs := false }, i2c := { st := .idle, addr := 0 }
        cmd := { pending := none }, fifo := [], last := 0, frames := [], fidx := 0, buf := [], cur := 0, live := false
        meas := t.meas, dev := c'.devInit, cfg := c', phase := .configuring, inbox := rest, resp := .ok, events := [] } ∧
      exec .reset t = .next u ∧ u.toDevice = t.toDevice

/-- R180: reset gives every defined register its reset value, and of its other words this says only that it emits no event, writes no host memory and takes no live frame; which fields it keeps is `Obligations.ResetClearsAndKeeps` (D45). That no other address has storage is R31's; a register declared above the mode's address space has none either (log entry 13). -/
def Obligations.ResetRestoresTheRegisters : Prop :=
  ∀ s : State, s.phase ≠ .absent →
    ∃ t, exec .reset s = .next t ∧ (∀ a, cellAt t.store a = (Cfg.regAt s.cfg a).map RegDecl.reset) ∧ t.events = [] ∧
      t.hostMem = s.hostMem ∧ t.liveIn = s.liveIn ∧ t.draws = s.draws

/-- R390: what an explicit reset clears and what it keeps. The spec's own decision D45. -/
def Obligations.ResetClearsAndKeeps : Prop :=
  ∀ s : State, s.phase ≠ .absent →
    ∃ t, exec .reset s = .next t ∧ t = { s with
      store := t.store, spi := { st := .idle, addr := 0, cs := false }, i2c := { st := .idle, addr := 0 }
      cmd := { pending := none }, last := 0, buf := [], cur := 0, dev := s.cfg.devInit
      phase := .running, resp := .ok, events := [] }

end
end

