-- ==== Sys2Proof/Laws/Memory.lean ====
section
/-! SUPPORT. Memory and measurements: read after write, what a write leaves alone, and that every operation keeps the canonical form. -/
namespace Sys2Proof.Machine

/-! Reads after writes. -/

theorem cellAt_cellSet (m : List Host.Cell) (a b' : Nat) (b : Byte) :
    cellAt (cellSet m a b) b' = if b' = a ∧ (cellAt m a).isSome then some b else cellAt m b' := by
  induction m with
  | nil => simp [cellSet, cellAt]
  | cons e m ih =>
    obtain ⟨k, v⟩ := e
    by_cases h : k = a
    · subst h
      by_cases h' : k = b'
      · subst h'; simp [cellSet, cellAt]
      · simp [cellSet, cellAt, h', Ne.symm h']
    · by_cases h' : k = b'
      · subst h'; simp [cellSet, cellAt, h]
      · simp [cellSet, cellAt, h, h', ih]

theorem cellAt_cellPut (m : List Host.Cell) (a b' : Nat) (b : Byte) :
    cellAt (cellPut m a b) b' = if b' = a then some b else cellAt m b' := by
  induction m with
  | nil => simp [cellPut, cellAt, eq_comm]
  | cons e m ih =>
    obtain ⟨k, v⟩ := e
    by_cases h : a < k
    · by_cases h' : b' = a
      · subst h'; simp [cellPut, cellAt, h]
      · simp [cellPut, cellAt, h, h', Ne.symm h']
    · by_cases h2 : k = a
      · subst h2
        by_cases h' : b' = k
        · subst h'; simp [cellPut, cellAt]
        · simp [cellPut, cellAt, h', Ne.symm h']
      · by_cases h' : k = b'
        · subst h'; simp [cellPut, cellAt, h, h2]
        · simp [cellPut, cellAt, h, h2, h', ih]

/-- A push leaves every host address below or above its bytes alone. -/
theorem cellAt_cellPutAll_outside (m : List Host.Cell) (a b' : Nat) (bs : List Byte)
    (h : b' < a ∨ a + bs.length ≤ b') : cellAt (cellPutAll m a bs) b' = cellAt m b' := by
  induction bs generalizing m a with
  | nil => rfl
  | cons b bs ih =>
    simp only [List.length_cons] at h
    rw [cellPutAll, ih _ _ (by omega), cellAt_cellPut, if_neg (by omega)]

/-- A push puts byte `i` at `a + i` (R84). -/
theorem cellAt_cellPutAll_inside (m : List Host.Cell) (a i : Nat) (bs : List Byte) (h : i < bs.length) :
    cellAt (cellPutAll m a bs) (a + i) = some bs[i] := by
  induction bs generalizing m a i with
  | nil => simp at h
  | cons b bs ih =>
    cases i with
    | zero =>
      rw [cellPutAll, cellAt_cellPutAll_outside _ _ _ _ (by omega), cellAt_cellPut]
      simp
    | succ i =>
      have := ih (cellPut m a b) (a + 1) i (by simpa using h)
      simpa [cellPutAll, Nat.add_assoc, Nat.add_comm 1 i] using this

/-! The canonical form. -/

theorem cellsAbove_of_le {a a' : Nat} {m : List Host.Cell} (h : a ≤ a') (hm : cellsAbove a' m = true) :
    cellsAbove a m = true := by
  cases m with
  | nil => rfl
  | cons e m =>
    obtain ⟨k, v⟩ := e
    simp only [cellsAbove, Bool.and_eq_true, decide_eq_true_eq] at hm ⊢
    exact ⟨by omega, hm.2⟩

theorem Memory.wf_of_cellsAbove {a : Nat} {m : List Host.Cell} (h : cellsAbove a m = true) : Memory.wf m = true := by
  cases m with
  | nil => rfl
  | cons e m => simp only [cellsAbove, Bool.and_eq_true] at h; exact h.2

theorem cellsAbove_cellSet {a : Nat} {m : List Host.Cell} (k : Nat) (b : Byte) (h : cellsAbove a m = true) :
    cellsAbove a (cellSet m k b) = true := by
  induction m generalizing a with
  | nil => rfl
  | cons e m ih =>
    obtain ⟨k', v⟩ := e
    simp only [cellsAbove, Bool.and_eq_true] at h
    by_cases hk : k' = k
    · subst hk
      simpa only [cellSet, if_true, cellsAbove, Bool.and_eq_true] using h
    · simp only [cellSet, hk, if_false, cellsAbove, Bool.and_eq_true]
      exact ⟨h.1, ih h.2⟩

theorem Memory.wf_cellSet {m : List Host.Cell} (k : Nat) (b : Byte) (h : Memory.wf m = true) :
    Memory.wf (cellSet m k b) = true := by
  cases m with
  | nil => rfl
  | cons e m =>
    obtain ⟨k', v⟩ := e
    by_cases hk : k' = k
    · simpa [cellSet, hk, Memory.wf] using (show cellsAbove k m = true from hk ▸ h)
    · simpa [cellSet, hk, Memory.wf] using cellsAbove_cellSet k b (show cellsAbove k' m = true from h)

theorem cellsAbove_cellPut {a : Nat} {m : List Host.Cell} (k : Nat) (b : Byte) (hak : a < k)
    (h : cellsAbove a m = true) : cellsAbove a (cellPut m k b) = true := by
  induction m generalizing a with
  | nil => simpa [cellPut, cellsAbove] using hak
  | cons e m ih =>
    obtain ⟨k', v⟩ := e
    simp only [cellsAbove, Bool.and_eq_true, decide_eq_true_eq] at h
    by_cases h1 : k < k'
    · simp [cellPut, cellsAbove, h1, hak, h.2]
    · by_cases h2 : k' = k
      · subst h2; simp [cellPut, cellsAbove, hak, h.2]
      · simp only [cellPut, h1, h2, if_false, cellsAbove, Bool.and_eq_true, decide_eq_true_eq]
        exact ⟨h.1, ih (by omega) h.2⟩

theorem Memory.wf_cellPut {m : List Host.Cell} (k : Nat) (b : Byte) (h : Memory.wf m = true) :
    Memory.wf (cellPut m k b) = true := by
  cases m with
  | nil => rfl
  | cons e m =>
    obtain ⟨k', v⟩ := e
    simp only [Memory.wf] at h
    by_cases h1 : k < k'
    · simp [cellPut, h1, Memory.wf, cellsAbove, h]
    · by_cases h2 : k' = k
      · subst h2; simpa [cellPut, Memory.wf] using h
      · simpa [cellPut, h1, h2, Memory.wf] using cellsAbove_cellPut k b (by omega) h

theorem Memory.wf_cellPutAll {m : List Host.Cell} (a : Nat) (bs : List Byte) (h : Memory.wf m = true) :
    Memory.wf (cellPutAll m a bs) = true := by
  induction bs generalizing m a with
  | nil => exact h
  | cons b bs ih => exact ih (a + 1) (Memory.wf_cellPut a b h)

theorem cellsAbove_cellsFrom {a : Nat} {m : List Host.Cell} (new : List Host.Cell) (h : cellsAbove a m = true) :
    cellsAbove a (cellsFrom new m) = true := by
  induction m generalizing a with
  | nil => rfl
  | cons e m ih =>
    obtain ⟨k', v⟩ := e
    simp only [cellsAbove, Bool.and_eq_true, cellsFrom] at h ⊢
    exact ⟨h.1, ih h.2⟩

theorem Memory.wf_cellsFrom {m : List Host.Cell} (new : List Host.Cell) (h : Memory.wf m = true) :
    Memory.wf (cellsFrom new m) = true := by
  cases m with
  | nil => rfl
  | cons e m => exact cellsAbove_cellsFrom new h

theorem Memory.wf_resetStore (mode : Mode) (rs : List RegDecl) : Memory.wf (resetStore mode rs) = true := by
  induction rs with
  | nil => rfl
  | cons r rs ih =>
    unfold resetStore
    split
    · exact Memory.wf_cellPut _ _ ih
    · exact ih

/-- The memory of the reset state is in canonical form. -/
theorem Memory.wf_reset : Memory.wf State.reset.store = true ∧ Memory.wf State.reset.hostMem = true := ⟨rfl, rfl⟩

/-! Which addresses have a byte, and which channels a value. -/

@[simp] theorem isSome_cellAt_cellSet (m : List Host.Cell) (a b' : Nat) (b : Byte) :
    (cellAt (cellSet m a b) b').isSome = (cellAt m b').isSome := by
  rw [cellAt_cellSet]
  split
  · rename_i h; obtain ⟨rfl, h⟩ := h; simp [h]
  · rfl

@[simp] theorem isSome_cellAt_cellsFrom (new m : List Host.Cell) (a : Nat) :
    (cellAt (cellsFrom new m) a).isSome = (cellAt m a).isSome := by
  induction m with
  | nil => rfl
  | cons e m ih =>
    obtain ⟨k, v⟩ := e
    by_cases h : k = a <;> simp [cellsFrom, cellAt, h, ih]

theorem isSome_resetStore (mode : Mode) (rs : List RegDecl) (a : Nat) :
    (cellAt (resetStore mode rs) a).isSome = (decide (a < addrSpace mode) && rs.any fun r => r.addr == a) := by
  induction rs with
  | nil => simp [resetStore, cellAt]
  | cons r rs ih =>
    unfold resetStore
    split
    · rename_i h
      rw [cellAt_cellPut]
      by_cases hr : a = r.addr
      · subst hr; simp [h]
      · have : (r.addr == a) = false := by simpa using fun h => hr h.symm
        simp [hr, ih, this]
    · rename_i h
      by_cases hr : a = r.addr
      · subst hr; simp [ih, h]
      · have : (r.addr == a) = false := by simpa using fun h => hr h.symm
        simp [ih, this]

/-- At reset, storage exists exactly at `dom(P_REGMAP)` (R31, R65). -/
theorem isSome_resetStore_regAt (c : Cfg) (a : Nat) :
    (cellAt (resetStore c.mode c.regmap) a).isSome = (Cfg.regAt c a).isSome := by
  rw [isSome_resetStore, Cfg.regAt]
  split <;> rename_i h <;> simp [h]
  rw [Bool.eq_iff_iff]; simp

@[simp] theorem isSome_measAt_measSet (m : List (Nat × Rat)) (c c' : Nat) (v : Rat) :
    (measAt (measSet m c v) c').isSome = (measAt m c').isSome := by
  induction m with
  | nil => rfl
  | cons e m ih =>
    obtain ⟨k, x⟩ := e
    by_cases h : k = c
    · by_cases h' : k = c' <;> simp_all [measSet, measAt]
    · by_cases h' : k = c' <;> simp_all [measSet, measAt]

theorem measAt_measSet (m : List (Nat × Rat)) (c c' : Nat) (v : Rat) :
    measAt (measSet m c v) c' = if c' = c ∧ (measAt m c).isSome then some v else measAt m c' := by
  induction m with
  | nil => simp [measSet, measAt]
  | cons e m ih =>
    obtain ⟨k, x⟩ := e
    by_cases h : k = c
    · subst h
      by_cases h' : k = c'
      · subst h'; simp [measSet, measAt]
      · simp [measSet, measAt, h', Ne.symm h']
    · by_cases h' : k = c'
      · subst h'; simp [measSet, measAt, h]
      · simp [measSet, measAt, h, h', ih]

@[simp] theorem isSome_measAt_measFrom (new m : List (Nat × Rat)) (c : Nat) :
    (measAt (measFrom new m) c).isSome = (measAt m c).isSome := by
  induction m with
  | nil => rfl
  | cons e m ih =>
    obtain ⟨k, v⟩ := e
    by_cases h : k = c <;> simp [measFrom, measAt, h, ih]

end Sys2Proof.Machine
end

