-- ==== Sys2Proof/Laws/State.lean ====
section
/-! SUPPORT. What each named update of the state leaves in each field, so that no proof unfolds a record update. `toDevice` stands for all thirteen fields of S. -/
namespace Sys2Proof.Machine

section
variable (s : State)

@[simp] theorem State.respond_toDevice (r : Response) : (s.respond r).toDevice = s.toDevice := rfl
@[simp] theorem State.respond_cfg (r : Response) : (s.respond r).cfg = s.cfg := rfl
@[simp] theorem State.respond_phase (r : Response) : (s.respond r).phase = s.phase := rfl
@[simp] theorem State.respond_inbox (r : Response) : (s.respond r).inbox = s.inbox := rfl
@[simp] theorem State.respond_resp (r : Response) : (s.respond r).resp = r := rfl
@[simp] theorem State.respond_events (r : Response) : (s.respond r).events = s.events := rfl
@[simp] theorem State.respond_hostMem (r : Response) : (s.respond r).hostMem = s.hostMem := rfl
@[simp] theorem State.respond_liveIn (r : Response) : (s.respond r).liveIn = s.liveIn := rfl
@[simp] theorem State.respond_draws (r : Response) : (s.respond r).draws = s.draws := rfl

@[simp] theorem State.begin_toDevice : s.begin.toDevice = s.toDevice := rfl
@[simp] theorem State.begin_cfg : s.begin.cfg = s.cfg := rfl
@[simp] theorem State.begin_phase : s.begin.phase = .running := rfl
@[simp] theorem State.begin_inbox : s.begin.inbox = s.inbox := rfl
@[simp] theorem State.begin_resp : s.begin.resp = .nothing := rfl
@[simp] theorem State.begin_events : s.begin.events = [] := rfl
@[simp] theorem State.begin_hostMem : s.begin.hostMem = s.hostMem := rfl
@[simp] theorem State.begin_liveIn : s.begin.liveIn = s.liveIn := rfl
@[simp] theorem State.begin_draws : s.begin.draws = s.draws := rfl

@[simp] theorem State.emit_toDevice (e : Event) : (s.emit e).toDevice = s.toDevice := rfl
@[simp] theorem State.emit_cfg (e : Event) : (s.emit e).cfg = s.cfg := rfl
@[simp] theorem State.emit_phase (e : Event) : (s.emit e).phase = s.phase := rfl
@[simp] theorem State.emit_inbox (e : Event) : (s.emit e).inbox = s.inbox := rfl
@[simp] theorem State.emit_resp (e : Event) : (s.emit e).resp = s.resp := rfl
@[simp] theorem State.emit_events (e : Event) : (s.emit e).events = s.events ++ [e] := rfl
@[simp] theorem State.emit_liveIn (e : Event) : (s.emit e).liveIn = s.liveIn := rfl
@[simp] theorem State.emit_draws (e : Event) : (s.emit e).draws = s.draws := rfl

@[simp] theorem State.raise_toDevice (d : Diag) : (s.raise d).toDevice = s.toDevice := rfl
@[simp] theorem State.raise_cfg (d : Diag) : (s.raise d).cfg = s.cfg := rfl
@[simp] theorem State.raise_phase (d : Diag) : (s.raise d).phase = s.phase := rfl
@[simp] theorem State.raise_inbox (d : Diag) : (s.raise d).inbox = s.inbox := rfl
@[simp] theorem State.raise_resp (d : Diag) : (s.raise d).resp = s.resp := rfl
@[simp] theorem State.raise_events (d : Diag) : (s.raise d).events = s.events ++ [.diag d] := rfl
@[simp] theorem State.raise_hostMem (d : Diag) : (s.raise d).hostMem = s.hostMem := rfl
@[simp] theorem State.raise_liveIn (d : Diag) : (s.raise d).liveIn = s.liveIn := rfl
@[simp] theorem State.raise_draws (d : Diag) : (s.raise d).draws = s.draws := rfl

@[simp] theorem State.fail_toDevice (e : CfgError) : (s.fail e).toDevice = s.toDevice := rfl
@[simp] theorem State.fail_cfg (e : CfgError) : (s.fail e).cfg = s.cfg := rfl
@[simp] theorem State.fail_phase (e : CfgError) : (s.fail e).phase = s.phase := rfl
@[simp] theorem State.fail_inbox (e : CfgError) : (s.fail e).inbox = s.inbox := rfl
@[simp] theorem State.fail_resp (e : CfgError) : (s.fail e).resp = .error e := rfl
@[simp] theorem State.fail_events (e : CfgError) : (s.fail e).events = s.events := rfl
@[simp] theorem State.fail_hostMem (e : CfgError) : (s.fail e).hostMem = s.hostMem := rfl
@[simp] theorem State.fail_liveIn (e : CfgError) : (s.fail e).liveIn = s.liveIn := rfl
@[simp] theorem State.fail_draws (e : CfgError) : (s.fail e).draws = s.draws := rfl

@[simp] theorem State.setStore_store (a : Nat) (b : Byte) : (s.setStore a b).store = cellSet s.store a b := rfl
@[simp] theorem State.setStore_spi (a : Nat) (b : Byte) : (s.setStore a b).spi = s.spi := rfl
@[simp] theorem State.setStore_i2c (a : Nat) (b : Byte) : (s.setStore a b).i2c = s.i2c := rfl
@[simp] theorem State.setStore_cmd (a : Nat) (b : Byte) : (s.setStore a b).cmd = s.cmd := rfl
@[simp] theorem State.setStore_fifo (a : Nat) (b : Byte) : (s.setStore a b).fifo = s.fifo := rfl
@[simp] theorem State.setStore_last (a : Nat) (b : Byte) : (s.setStore a b).last = s.last := rfl
@[simp] theorem State.setStore_frames (a : Nat) (b : Byte) : (s.setStore a b).frames = s.frames := rfl
@[simp] theorem State.setStore_fidx (a : Nat) (b : Byte) : (s.setStore a b).fidx = s.fidx := rfl
@[simp] theorem State.setStore_buf (a : Nat) (b : Byte) : (s.setStore a b).buf = s.buf := rfl
@[simp] theorem State.setStore_cur (a : Nat) (b : Byte) : (s.setStore a b).cur = s.cur := rfl
@[simp] theorem State.setStore_live (a : Nat) (b : Byte) : (s.setStore a b).live = s.live := rfl
@[simp] theorem State.setStore_meas (a : Nat) (b : Byte) : (s.setStore a b).meas = s.meas := rfl
@[simp] theorem State.setStore_dev (a : Nat) (b : Byte) : (s.setStore a b).dev = s.dev := rfl
@[simp] theorem State.setStore_cfg (a : Nat) (b : Byte) : (s.setStore a b).cfg = s.cfg := rfl
@[simp] theorem State.setStore_phase (a : Nat) (b : Byte) : (s.setStore a b).phase = s.phase := rfl
@[simp] theorem State.setStore_inbox (a : Nat) (b : Byte) : (s.setStore a b).inbox = s.inbox := rfl
@[simp] theorem State.setStore_resp (a : Nat) (b : Byte) : (s.setStore a b).resp = s.resp := rfl
@[simp] theorem State.setStore_events (a : Nat) (b : Byte) : (s.setStore a b).events = s.events := rfl
@[simp] theorem State.setStore_hostMem (a : Nat) (b : Byte) : (s.setStore a b).hostMem = s.hostMem := rfl
@[simp] theorem State.setStore_liveIn (a : Nat) (b : Byte) : (s.setStore a b).liveIn = s.liveIn := rfl
@[simp] theorem State.setStore_draws (a : Nat) (b : Byte) : (s.setStore a b).draws = s.draws := rfl

@[simp] theorem State.loadBuffer_store (f : Frame) : (s.loadBuffer f).store = s.store := rfl
@[simp] theorem State.loadBuffer_spi (f : Frame) : (s.loadBuffer f).spi = s.spi := rfl
@[simp] theorem State.loadBuffer_i2c (f : Frame) : (s.loadBuffer f).i2c = s.i2c := rfl
@[simp] theorem State.loadBuffer_cmd (f : Frame) : (s.loadBuffer f).cmd = s.cmd := rfl
@[simp] theorem State.loadBuffer_fifo (f : Frame) : (s.loadBuffer f).fifo = s.fifo := rfl
@[simp] theorem State.loadBuffer_last (f : Frame) : (s.loadBuffer f).last = s.last := rfl
@[simp] theorem State.loadBuffer_frames (f : Frame) : (s.loadBuffer f).frames = s.frames := rfl
@[simp] theorem State.loadBuffer_fidx (f : Frame) : (s.loadBuffer f).fidx = s.fidx := rfl
@[simp] theorem State.loadBuffer_buf (f : Frame) : (s.loadBuffer f).buf = f := rfl
@[simp] theorem State.loadBuffer_cur (f : Frame) : (s.loadBuffer f).cur = 0 := rfl
@[simp] theorem State.loadBuffer_live (f : Frame) : (s.loadBuffer f).live = s.live := rfl
@[simp] theorem State.loadBuffer_meas (f : Frame) : (s.loadBuffer f).meas = s.meas := rfl
@[simp] theorem State.loadBuffer_dev (f : Frame) : (s.loadBuffer f).dev = s.dev := rfl
@[simp] theorem State.loadBuffer_cfg (f : Frame) : (s.loadBuffer f).cfg = s.cfg := rfl
@[simp] theorem State.loadBuffer_phase (f : Frame) : (s.loadBuffer f).phase = s.phase := rfl
@[simp] theorem State.loadBuffer_inbox (f : Frame) : (s.loadBuffer f).inbox = s.inbox := rfl
@[simp] theorem State.loadBuffer_resp (f : Frame) : (s.loadBuffer f).resp = s.resp := rfl
@[simp] theorem State.loadBuffer_events (f : Frame) : (s.loadBuffer f).events = s.events := rfl
@[simp] theorem State.loadBuffer_hostMem (f : Frame) : (s.loadBuffer f).hostMem = s.hostMem := rfl
@[simp] theorem State.loadBuffer_liveIn (f : Frame) : (s.loadBuffer f).liveIn = s.liveIn := rfl
@[simp] theorem State.loadBuffer_draws (f : Frame) : (s.loadBuffer f).draws = s.draws := rfl

@[simp] theorem State.feed_store (vs : List Byte) : (s.feed vs).store = s.store := rfl
@[simp] theorem State.feed_spi (vs : List Byte) : (s.feed vs).spi = s.spi := rfl
@[simp] theorem State.feed_i2c (vs : List Byte) : (s.feed vs).i2c = s.i2c := rfl
@[simp] theorem State.feed_cmd (vs : List Byte) : (s.feed vs).cmd = s.cmd := rfl
@[simp] theorem State.feed_fifo (vs : List Byte) : (s.feed vs).fifo = s.fifo ++ vs := rfl
@[simp] theorem State.feed_last (vs : List Byte) : (s.feed vs).last = s.last := rfl
@[simp] theorem State.feed_frames (vs : List Byte) : (s.feed vs).frames = s.frames := rfl
@[simp] theorem State.feed_fidx (vs : List Byte) : (s.feed vs).fidx = s.fidx := rfl
@[simp] theorem State.feed_buf (vs : List Byte) : (s.feed vs).buf = s.buf := rfl
@[simp] theorem State.feed_cur (vs : List Byte) : (s.feed vs).cur = s.cur := rfl
@[simp] theorem State.feed_live (vs : List Byte) : (s.feed vs).live = s.live := rfl
@[simp] theorem State.feed_meas (vs : List Byte) : (s.feed vs).meas = s.meas := rfl
@[simp] theorem State.feed_dev (vs : List Byte) : (s.feed vs).dev = s.dev := rfl
@[simp] theorem State.feed_cfg (vs : List Byte) : (s.feed vs).cfg = s.cfg := rfl
@[simp] theorem State.feed_phase (vs : List Byte) : (s.feed vs).phase = s.phase := rfl
@[simp] theorem State.feed_inbox (vs : List Byte) : (s.feed vs).inbox = s.inbox := rfl
@[simp] theorem State.feed_resp (vs : List Byte) : (s.feed vs).resp = s.resp := rfl
@[simp] theorem State.feed_events (vs : List Byte) : (s.feed vs).events = s.events := rfl
@[simp] theorem State.feed_hostMem (vs : List Byte) : (s.feed vs).hostMem = s.hostMem := rfl
@[simp] theorem State.feed_liveIn (vs : List Byte) : (s.feed vs).liveIn = s.liveIn := rfl
@[simp] theorem State.feed_draws (vs : List Byte) : (s.feed vs).draws = s.draws := rfl

@[simp] theorem State.appendFrame_store (f : Frame) : (s.appendFrame f).store = s.store := rfl
@[simp] theorem State.appendFrame_spi (f : Frame) : (s.appendFrame f).spi = s.spi := rfl
@[simp] theorem State.appendFrame_i2c (f : Frame) : (s.appendFrame f).i2c = s.i2c := rfl
@[simp] theorem State.appendFrame_cmd (f : Frame) : (s.appendFrame f).cmd = s.cmd := rfl
@[simp] theorem State.appendFrame_fifo (f : Frame) : (s.appendFrame f).fifo = s.fifo := rfl
@[simp] theorem State.appendFrame_last (f : Frame) : (s.appendFrame f).last = s.last := rfl
@[simp] theorem State.appendFrame_frames (f : Frame) : (s.appendFrame f).frames = s.frames ++ [f] := rfl
@[simp] theorem State.appendFrame_fidx (f : Frame) : (s.appendFrame f).fidx = s.fidx := rfl
@[simp] theorem State.appendFrame_buf (f : Frame) : (s.appendFrame f).buf = s.buf := rfl
@[simp] theorem State.appendFrame_cur (f : Frame) : (s.appendFrame f).cur = s.cur := rfl
@[simp] theorem State.appendFrame_live (f : Frame) : (s.appendFrame f).live = s.live := rfl
@[simp] theorem State.appendFrame_meas (f : Frame) : (s.appendFrame f).meas = s.meas := rfl
@[simp] theorem State.appendFrame_dev (f : Frame) : (s.appendFrame f).dev = s.dev := rfl
@[simp] theorem State.appendFrame_cfg (f : Frame) : (s.appendFrame f).cfg = s.cfg := rfl
@[simp] theorem State.appendFrame_phase (f : Frame) : (s.appendFrame f).phase = s.phase := rfl
@[simp] theorem State.appendFrame_inbox (f : Frame) : (s.appendFrame f).inbox = s.inbox := rfl
@[simp] theorem State.appendFrame_resp (f : Frame) : (s.appendFrame f).resp = s.resp := rfl
@[simp] theorem State.appendFrame_events (f : Frame) : (s.appendFrame f).events = s.events := rfl
@[simp] theorem State.appendFrame_hostMem (f : Frame) : (s.appendFrame f).hostMem = s.hostMem := rfl
@[simp] theorem State.appendFrame_liveIn (f : Frame) : (s.appendFrame f).liveIn = s.liveIn := rfl
@[simp] theorem State.appendFrame_draws (f : Frame) : (s.appendFrame f).draws = s.draws := rfl

@[simp] theorem State.setMeas_store (c : Nat) (v : Rat) : (s.setMeas c v).store = s.store := rfl
@[simp] theorem State.setMeas_spi (c : Nat) (v : Rat) : (s.setMeas c v).spi = s.spi := rfl
@[simp] theorem State.setMeas_i2c (c : Nat) (v : Rat) : (s.setMeas c v).i2c = s.i2c := rfl
@[simp] theorem State.setMeas_cmd (c : Nat) (v : Rat) : (s.setMeas c v).cmd = s.cmd := rfl
@[simp] theorem State.setMeas_fifo (c : Nat) (v : Rat) : (s.setMeas c v).fifo = s.fifo := rfl
@[simp] theorem State.setMeas_last (c : Nat) (v : Rat) : (s.setMeas c v).last = s.last := rfl
@[simp] theorem State.setMeas_frames (c : Nat) (v : Rat) : (s.setMeas c v).frames = s.frames := rfl
@[simp] theorem State.setMeas_fidx (c : Nat) (v : Rat) : (s.setMeas c v).fidx = s.fidx := rfl
@[simp] theorem State.setMeas_buf (c : Nat) (v : Rat) : (s.setMeas c v).buf = s.buf := rfl
@[simp] theorem State.setMeas_cur (c : Nat) (v : Rat) : (s.setMeas c v).cur = s.cur := rfl
@[simp] theorem State.setMeas_live (c : Nat) (v : Rat) : (s.setMeas c v).live = s.live := rfl
@[simp] theorem State.setMeas_meas (c : Nat) (v : Rat) : (s.setMeas c v).meas = measSet s.meas c v := rfl
@[simp] theorem State.setMeas_dev (c : Nat) (v : Rat) : (s.setMeas c v).dev = s.dev := rfl
@[simp] theorem State.setMeas_cfg (c : Nat) (v : Rat) : (s.setMeas c v).cfg = s.cfg := rfl
@[simp] theorem State.setMeas_phase (c : Nat) (v : Rat) : (s.setMeas c v).phase = s.phase := rfl
@[simp] theorem State.setMeas_inbox (c : Nat) (v : Rat) : (s.setMeas c v).inbox = s.inbox := rfl
@[simp] theorem State.setMeas_resp (c : Nat) (v : Rat) : (s.setMeas c v).resp = s.resp := rfl
@[simp] theorem State.setMeas_events (c : Nat) (v : Rat) : (s.setMeas c v).events = s.events := rfl
@[simp] theorem State.setMeas_hostMem (c : Nat) (v : Rat) : (s.setMeas c v).hostMem = s.hostMem := rfl
@[simp] theorem State.setMeas_liveIn (c : Nat) (v : Rat) : (s.setMeas c v).liveIn = s.liveIn := rfl
@[simp] theorem State.setMeas_draws (c : Nat) (v : Rat) : (s.setMeas c v).draws = s.draws := rfl

@[simp] theorem State.advanceSpi_store : s.advanceSpi.store = s.store := rfl
@[simp] theorem State.advanceSpi_spi : s.advanceSpi.spi = { s.spi with addr := incAddr s.cfg.wrap spiAddrBits s.spi.addr } := rfl
@[simp] theorem State.advanceSpi_i2c : s.advanceSpi.i2c = s.i2c := rfl
@[simp] theorem State.advanceSpi_cmd : s.advanceSpi.cmd = s.cmd := rfl
@[simp] theorem State.advanceSpi_fifo : s.advanceSpi.fifo = s.fifo := rfl
@[simp] theorem State.advanceSpi_last : s.advanceSpi.last = s.last := rfl
@[simp] theorem State.advanceSpi_frames : s.advanceSpi.frames = s.frames := rfl
@[simp] theorem State.advanceSpi_fidx : s.advanceSpi.fidx = s.fidx := rfl
@[simp] theorem State.advanceSpi_buf : s.advanceSpi.buf = s.buf := rfl
@[simp] theorem State.advanceSpi_cur : s.advanceSpi.cur = s.cur := rfl
@[simp] theorem State.advanceSpi_live : s.advanceSpi.live = s.live := rfl
@[simp] theorem State.advanceSpi_meas : s.advanceSpi.meas = s.meas := rfl
@[simp] theorem State.advanceSpi_dev : s.advanceSpi.dev = s.dev := rfl
@[simp] theorem State.advanceSpi_cfg : s.advanceSpi.cfg = s.cfg := rfl
@[simp] theorem State.advanceSpi_phase : s.advanceSpi.phase = s.phase := rfl
@[simp] theorem State.advanceSpi_inbox : s.advanceSpi.inbox = s.inbox := rfl
@[simp] theorem State.advanceSpi_resp : s.advanceSpi.resp = s.resp := rfl
@[simp] theorem State.advanceSpi_events : s.advanceSpi.events = s.events := rfl
@[simp] theorem State.advanceSpi_hostMem : s.advanceSpi.hostMem = s.hostMem := rfl
@[simp] theorem State.advanceSpi_liveIn : s.advanceSpi.liveIn = s.liveIn := rfl
@[simp] theorem State.advanceSpi_draws : s.advanceSpi.draws = s.draws := rfl

@[simp] theorem State.advanceI2c_store : s.advanceI2c.store = s.store := rfl
@[simp] theorem State.advanceI2c_spi : s.advanceI2c.spi = s.spi := rfl
@[simp] theorem State.advanceI2c_i2c : s.advanceI2c.i2c = { s.i2c with addr := incAddr s.cfg.wrap i2cAddrBits s.i2c.addr } := rfl
@[simp] theorem State.advanceI2c_cmd : s.advanceI2c.cmd = s.cmd := rfl
@[simp] theorem State.advanceI2c_fifo : s.advanceI2c.fifo = s.fifo := rfl
@[simp] theorem State.advanceI2c_last : s.advanceI2c.last = s.last := rfl
@[simp] theorem State.advanceI2c_frames : s.advanceI2c.frames = s.frames := rfl
@[simp] theorem State.advanceI2c_fidx : s.advanceI2c.fidx = s.fidx := rfl
@[simp] theorem State.advanceI2c_buf : s.advanceI2c.buf = s.buf := rfl
@[simp] theorem State.advanceI2c_cur : s.advanceI2c.cur = s.cur := rfl
@[simp] theorem State.advanceI2c_live : s.advanceI2c.live = s.live := rfl
@[simp] theorem State.advanceI2c_meas : s.advanceI2c.meas = s.meas := rfl
@[simp] theorem State.advanceI2c_dev : s.advanceI2c.dev = s.dev := rfl
@[simp] theorem State.advanceI2c_cfg : s.advanceI2c.cfg = s.cfg := rfl
@[simp] theorem State.advanceI2c_phase : s.advanceI2c.phase = s.phase := rfl
@[simp] theorem State.advanceI2c_inbox : s.advanceI2c.inbox = s.inbox := rfl
@[simp] theorem State.advanceI2c_resp : s.advanceI2c.resp = s.resp := rfl
@[simp] theorem State.advanceI2c_events : s.advanceI2c.events = s.events := rfl
@[simp] theorem State.advanceI2c_hostMem : s.advanceI2c.hostMem = s.hostMem := rfl
@[simp] theorem State.advanceI2c_liveIn : s.advanceI2c.liveIn = s.liveIn := rfl
@[simp] theorem State.advanceI2c_draws : s.advanceI2c.draws = s.draws := rfl

@[simp] theorem State.adoptProvider_cfg (d : Device) : (s.adoptProvider d).cfg = s.cfg := rfl
@[simp] theorem State.adoptProvider_phase (d : Device) : (s.adoptProvider d).phase = s.phase := rfl
@[simp] theorem State.adoptProvider_inbox (d : Device) : (s.adoptProvider d).inbox = s.inbox := rfl
@[simp] theorem State.adoptProvider_resp (d : Device) : (s.adoptProvider d).resp = s.resp := rfl
@[simp] theorem State.adoptProvider_events (d : Device) : (s.adoptProvider d).events = s.events := rfl
@[simp] theorem State.adoptProvider_hostMem (d : Device) : (s.adoptProvider d).hostMem = s.hostMem := rfl
@[simp] theorem State.adoptProvider_liveIn (d : Device) : (s.adoptProvider d).liveIn = s.liveIn := rfl
@[simp] theorem State.adoptProvider_draws (d : Device) : (s.adoptProvider d).draws = s.draws := rfl

@[simp] theorem State.adoptHandler_cfg (d : Device) : (s.adoptHandler d).cfg = s.cfg := rfl
@[simp] theorem State.adoptHandler_phase (d : Device) : (s.adoptHandler d).phase = s.phase := rfl
@[simp] theorem State.adoptHandler_inbox (d : Device) : (s.adoptHandler d).inbox = s.inbox := rfl
@[simp] theorem State.adoptHandler_resp (d : Device) : (s.adoptHandler d).resp = s.resp := rfl
@[simp] theorem State.adoptHandler_events (d : Device) : (s.adoptHandler d).events = s.events := rfl
@[simp] theorem State.adoptHandler_hostMem (d : Device) : (s.adoptHandler d).hostMem = s.hostMem := rfl
@[simp] theorem State.adoptHandler_liveIn (d : Device) : (s.adoptHandler d).liveIn = s.liveIn := rfl
@[simp] theorem State.adoptHandler_draws (d : Device) : (s.adoptHandler d).draws = s.draws := rfl

@[simp] theorem State.adoptObserver_cfg (d : Device) : (s.adoptObserver d).cfg = s.cfg := rfl
@[simp] theorem State.adoptObserver_phase (d : Device) : (s.adoptObserver d).phase = s.phase := rfl
@[simp] theorem State.adoptObserver_inbox (d : Device) : (s.adoptObserver d).inbox = s.inbox := rfl
@[simp] theorem State.adoptObserver_resp (d : Device) : (s.adoptObserver d).resp = s.resp := rfl
@[simp] theorem State.adoptObserver_events (d : Device) : (s.adoptObserver d).events = s.events := rfl
@[simp] theorem State.adoptObserver_hostMem (d : Device) : (s.adoptObserver d).hostMem = s.hostMem := rfl
@[simp] theorem State.adoptObserver_liveIn (d : Device) : (s.adoptObserver d).liveIn = s.liveIn := rfl
@[simp] theorem State.adoptObserver_draws (d : Device) : (s.adoptObserver d).draws = s.draws := rfl

@[simp] theorem State.setPending_store (p : Option Code) : (s.setPending p).store = s.store := rfl
@[simp] theorem State.setPending_spi (p : Option Code) : (s.setPending p).spi = s.spi := rfl
@[simp] theorem State.setPending_i2c (p : Option Code) : (s.setPending p).i2c = s.i2c := rfl
@[simp] theorem State.setPending_cmd (p : Option Code) : (s.setPending p).cmd = Cmd.mk p := rfl
@[simp] theorem State.setPending_fifo (p : Option Code) : (s.setPending p).fifo = s.fifo := rfl
@[simp] theorem State.setPending_last (p : Option Code) : (s.setPending p).last = s.last := rfl
@[simp] theorem State.setPending_frames (p : Option Code) : (s.setPending p).frames = s.frames := rfl
@[simp] theorem State.setPending_fidx (p : Option Code) : (s.setPending p).fidx = s.fidx := rfl
@[simp] theorem State.setPending_buf (p : Option Code) : (s.setPending p).buf = s.buf := rfl
@[simp] theorem State.setPending_cur (p : Option Code) : (s.setPending p).cur = s.cur := rfl
@[simp] theorem State.setPending_live (p : Option Code) : (s.setPending p).live = s.live := rfl
@[simp] theorem State.setPending_meas (p : Option Code) : (s.setPending p).meas = s.meas := rfl
@[simp] theorem State.setPending_dev (p : Option Code) : (s.setPending p).dev = s.dev := rfl
@[simp] theorem State.setPending_cfg (p : Option Code) : (s.setPending p).cfg = s.cfg := rfl
@[simp] theorem State.setPending_phase (p : Option Code) : (s.setPending p).phase = s.phase := rfl
@[simp] theorem State.setPending_inbox (p : Option Code) : (s.setPending p).inbox = s.inbox := rfl
@[simp] theorem State.setPending_resp (p : Option Code) : (s.setPending p).resp = s.resp := rfl
@[simp] theorem State.setPending_events (p : Option Code) : (s.setPending p).events = s.events := rfl
@[simp] theorem State.setPending_hostMem (p : Option Code) : (s.setPending p).hostMem = s.hostMem := rfl
@[simp] theorem State.setPending_liveIn (p : Option Code) : (s.setPending p).liveIn = s.liveIn := rfl
@[simp] theorem State.setPending_draws (p : Option Code) : (s.setPending p).draws = s.draws := rfl

end

end Sys2Proof.Machine
end

