-- ==== Sys2Proof/Laws/Keeps.lean ====
section
/-! SUPPORT. What the shared operations leave alone: each keeps the configuration, the phase and the calls not yet taken, and carries the invariant of Safety.lean along. -/
namespace Sys2Proof.Machine

/-- `t` comes from `s` by an effect that keeps the configuration, the phase, the inbox and the invariant. -/
structure Keeps (s t : State) : Prop where
  cfg   : t.cfg = s.cfg
  phase : t.phase = s.phase
  inbox : t.inbox = s.inbox
  inv   : s.Inv → t.Inv

theorem Keeps.refl (s : State) : Keeps s s := ⟨rfl, rfl, rfl, id⟩

theorem Keeps.trans {s t u : State} (h : Keeps s t) (k : Keeps t u) : Keeps s u :=
  ⟨k.cfg.trans h.cfg, k.phase.trans h.phase, k.inbox.trans h.inbox, k.inv ∘ h.inv⟩

/-- The invariant speaks of S, the configuration and the form of host memory only. -/
theorem State.Inv.congr {s t : State} (hd : t.toDevice = s.toDevice) (hc : t.cfg = s.cfg)
    (hm : Memory.wf s.hostMem = true → Memory.wf t.hostMem = true) (h : s.Inv) : t.Inv where
  storeWf := hd ▸ h.storeWf
  hostWf := hm h.hostWf
  storeDom := by rw [hd, hc]; exact h.storeDom
  spiAddr := by rw [hd, hc]; exact h.spiAddr
  i2cAddr := by rw [hd, hc]; exact h.i2cAddr
  pending := by rw [hd, hc]; exact h.pending
  fidxEmpty := by rw [hd]; exact h.fidxEmpty
  fidxBound := by rw [hd]; exact h.fidxBound
  curBound := by rw [hd]; exact h.curBound
  measDom := by rw [hd, hc]; exact h.measDom

/-! Outputs. -/

theorem keeps_respond (s : State) (r : Response) : Keeps s (s.respond r) := ⟨rfl, rfl, rfl, .congr rfl rfl id⟩

theorem keeps_emit (s : State) (e : Event) : Keeps s (s.emit e) := by
  refine ⟨rfl, rfl, rfl, .congr rfl rfl fun h => ?_⟩
  cases e with
  | hostWrite a bytes => exact Memory.wf_cellPutAll a bytes h
  | irqPulse => exact h
  | diag d => exact h

theorem keeps_raise (s : State) (d : Diag) : Keeps s (s.raise d) := keeps_emit s (.diag d)

theorem keeps_fail (s : State) (e : CfgError) : Keeps s (s.fail e) := keeps_respond s _

theorem keeps_emitAll (s : State) (es : List Event) : Keeps s (s.emitAll es) := by
  induction es generalizing s with
  | nil => exact .refl s
  | cons e es ih => exact (keeps_emit s e).trans (ih _)

theorem keeps_raiseAll (s : State) (ds : List Diag) : Keeps s (ds.foldl State.raise s) := by
  induction ds generalizing s with
  | nil => exact .refl s
  | cons d ds ih => exact (keeps_raise s d).trans (ih _)

/-! Fields of S. -/

theorem keeps_setStore (s : State) (a : Nat) (b : Byte) : Keeps s (s.setStore a b) :=
  ⟨rfl, rfl, rfl, fun h =>
    { h with storeWf := Memory.wf_cellSet a b h.storeWf, storeDom := by simpa using h.storeDom }⟩

theorem keeps_setFlag (s : State) (r : Option FieldRef) (v : Byte) : Keeps s (s.setFlag r v) := by
  unfold State.setFlag
  split
  · split
    · exact keeps_setStore s _ _
    · exact .refl s
  · exact .refl s

theorem keeps_setMeas (s : State) (c : Nat) (v : Rat) : Keeps s (s.setMeas c v) :=
  ⟨rfl, rfl, rfl, fun h => { h with measDom := by simpa using h.measDom }⟩

theorem keeps_loadBuffer (s : State) (f : Frame) : Keeps s (s.loadBuffer f) :=
  ⟨rfl, rfl, rfl, fun h => { h with curBound := Nat.zero_le _ }⟩

theorem keeps_feed (s : State) (vs : List Byte) : Keeps s (s.feed vs) := ⟨rfl, rfl, rfl, fun h => { h with }⟩

theorem keeps_appendFrame (s : State) (f : Frame) : Keeps s (s.appendFrame f) := by
  refine ⟨rfl, rfl, rfl, fun h => { h with fidxEmpty := by simp, fidxBound := fun _ => ?_ }⟩
  by_cases hf : s.frames = []
  · simp [h.fidxEmpty hf]
  · have := h.fidxBound hf
    simp; omega

theorem incAddr_lt {wrap : Wrap} (bits a : Nat) (h : wrap = .modulo) : incAddr wrap bits a < 2 ^ bits := by
  subst h; exact Nat.mod_lt _ (Nat.two_pow_pos bits)

theorem fitAddr_lt {wrap : Wrap} (bits a : Nat) (h : wrap = .modulo) : fitAddr wrap bits a < 2 ^ bits := by
  subst h; exact Nat.mod_lt _ (Nat.two_pow_pos bits)

theorem keeps_advanceSpi (s : State) : Keeps s s.advanceSpi :=
  ⟨rfl, rfl, rfl, fun h => { h with spiAddr := incAddr_lt _ _ }⟩

theorem keeps_advanceI2c (s : State) : Keeps s s.advanceI2c :=
  ⟨rfl, rfl, rfl, fun h => { h with i2cAddr := incAddr_lt _ _ }⟩

/-! Device functions. -/

theorem keeps_adoptProvider (s : State) (d : Device) : Keeps s (s.adoptProvider d) :=
  ⟨rfl, rfl, rfl, fun h =>
    { h with
      storeWf := Memory.wf_cellsFrom d.store h.storeWf
      storeDom := fun a => (isSome_cellAt_cellsFrom d.store s.store a).trans (h.storeDom a) }⟩

theorem keeps_adoptHandler (s : State) (d : Device) : Keeps s (s.adoptHandler d) :=
  ⟨rfl, rfl, rfl, fun h =>
    { h with
      storeWf := Memory.wf_cellsFrom d.store h.storeWf
      storeDom := fun a => (isSome_cellAt_cellsFrom d.store s.store a).trans (h.storeDom a)
      measDom := fun c => (isSome_measAt_measFrom d.meas s.meas c).trans (h.measDom c) }⟩

theorem keeps_adoptObserver (s : State) (d : Device) : Keeps s (s.adoptObserver d) :=
  ⟨rfl, rfl, rfl, fun h =>
    { hostWf := h.hostWf
      storeWf := Memory.wf_cellsFrom d.store h.storeWf
      storeDom := fun a => (isSome_cellAt_cellsFrom d.store s.store a).trans (h.storeDom a)
      measDom := fun c => (isSome_measAt_measFrom d.meas s.meas c).trans (h.measDom c)
      spiAddr := fitAddr_lt _ _
      i2cAddr := fitAddr_lt _ _
      pending := fun c hc => (Option.filter_eq_some_iff.mp hc).2
      curBound := Nat.min_le_right _ _
      fidxEmpty := fun hf => by
        have hf : d.frames = [] := hf
        simp [State.adoptObserver, hf]
      fidxBound := fun hf => by
        have := List.length_pos_iff.mpr (show d.frames ≠ [] from hf)
        show (if d.fidx < d.frames.length then d.fidx else 0) < d.frames.length
        split <;> omega }⟩

/-! Streaming. -/

theorem keeps_takeLive (s : State) : Keeps s s.takeLive.2 := by
  unfold State.takeLive
  split
  · exact ⟨rfl, rfl, rfl, .congr rfl rfl id⟩
  · exact ⟨rfl, rfl, rfl, .congr rfl rfl id⟩

theorem keeps_nextFrame (s : State) : Keeps s s.nextFrame.2 := by
  unfold State.nextFrame
  split
  · exact keeps_raise s _
  · rename_i f fs hf
    refine ⟨rfl, rfl, rfl, fun h => { h with fidxEmpty := fun h0 => ?_, fidxBound := fun h0 => Nat.mod_lt _ ?_ }⟩
    · exact absurd (hf.symm.trans h0) (by simp)
    · exact List.length_pos_iff.mpr h0

theorem keeps_selectFrame (s : State) : Keeps s s.selectFrame.2 := by
  unfold State.selectFrame
  split
  · exact keeps_takeLive s
  · split
    · exact .refl s
    · exact keeps_nextFrame s

theorem keeps_doCapture (s : State) : Keeps s s.doCapture :=
  ((keeps_selectFrame s).trans (keeps_loadBuffer _ _)).trans (keeps_setFlag _ _ _)

theorem keeps_captureObserver (s : State) (old new : Byte) : Keeps s (s.captureObserver old new) := by
  unfold State.captureObserver
  split
  · exact keeps_doCapture s
  · split
    · exact .refl s
    · exact keeps_doCapture s

theorem keeps_push (s : State) : Keeps s s.push :=
  (((keeps_selectFrame s).trans (keeps_emit _ _)).trans (keeps_setFlag _ _ _)).trans (keeps_emit _ _)

theorem keeps_dmaObserver (s : State) (old new : Byte) : Keeps s (s.dmaObserver old new) := by
  unfold State.dmaObserver
  split
  · split
    · exact keeps_raise s _
    · split
      · exact keeps_push s
      · exact keeps_raise s _
  · exact .refl s

theorem keeps_burst (s : State) : Keeps s s.burst.2 := by
  unfold State.burst
  split
  · rename_i v hv
    refine ⟨rfl, rfl, rfl, fun h => { h with curBound := ?_ }⟩
    obtain ⟨h', -⟩ := List.getElem?_eq_some_iff.mp hv
    exact h'
  · exact keeps_raise s _

/-! The register file. -/

theorem keeps_callProvider (s : State) (p : Provider) : Keeps s (s.callProvider p).2 := by
  cases p with
  | burst => exact keeps_burst s
  | length k => exact .refl s
  | device id => exact (keeps_adoptProvider s _).trans (keeps_emitAll _ _)

theorem keeps_readField (s : State) (a : Nat) (f : FieldDecl) : Keeps s (s.readField a f).2 := by
  unfold State.readField
  split
  · exact .refl s
  · exact .refl s
  · split
    · exact keeps_callProvider s _
    · exact .refl s
  · split
    · exact keeps_callProvider s _
    · exact .refl s

theorem keeps_readFields (s : State) (a : Nat) (fs : List FieldDecl) : Keeps s (s.readFields a fs).2 := by
  induction fs generalizing s with
  | nil => exact .refl s
  | cons f fs ih => exact (keeps_readField s a f).trans (ih _)

theorem keeps_rfRead (s : State) (a : Nat) : Keeps s (s.rfRead a).2 := by
  unfold State.rfRead
  split
  · exact keeps_raise s _
  · exact keeps_readFields s a _

theorem keeps_callObserver (s : State) (old new : Byte) (o : Observer) : Keeps s (s.callObserver old new o) := by
  cases o with
  | capture => exact keeps_captureObserver s old new
  | dmaEnable => exact keeps_dmaObserver s old new
  | device id => exact (keeps_adoptObserver s _).trans (keeps_emitAll _ _)

theorem keeps_runObservers (s : State) (a : Nat) (old b : Byte) (fs : List FieldDecl) :
    Keeps s (s.runObservers a old b fs) := by
  induction fs generalizing s with
  | nil => exact .refl s
  | cons f fs ih =>
    refine .trans ?_ (ih _)
    split
    · split
      · exact keeps_callObserver s _ _ _
      · exact .refl s
    · exact .refl s

theorem keeps_rfWrite (s : State) (a : Nat) (b : Byte) : Keeps s (s.rfWrite a b) := by
  unfold State.rfWrite
  split
  · exact keeps_raise s _
  · exact ((keeps_raiseAll s _).trans (keeps_setStore _ _ _)).trans (keeps_runObservers _ _ _ _ _)

/-! The transports. -/

theorem keeps_i2cWriteAll (s : State) (bs : List Byte) : Keeps s (s.i2cWriteAll bs) := by
  induction bs generalizing s with
  | nil => exact .refl s
  | cons b bs ih => exact ((keeps_rfWrite s _ _).trans (keeps_advanceI2c _)).trans (ih _)

theorem keeps_i2cReadAll (s : State) (n : Nat) : Keeps s (s.i2cReadAll n).2 := by
  induction n generalizing s with
  | zero => exact .refl s
  | succ n ih => exact ((keeps_rfRead s _).trans (keeps_advanceI2c _)).trans (ih _)

theorem keeps_callWriteHandler (s : State) (payload : List Byte) (h : WriteHandler) :
    Keeps s (s.callWriteHandler payload h) := by
  cases h with
  | storePayload => exact ⟨rfl, rfl, rfl, fun h => { h with }⟩
  | device id => exact (keeps_adoptHandler s _).trans (keeps_emitAll _ _)

theorem registered_of_commandAt {cmds : List CmdEntry} {code : Code} {e : CmdEntry} (h : commandAt cmds code = some e) :
    registered cmds code = true := by
  have hp := List.find?_some (p := fun e : CmdEntry => e.code == code) h
  exact List.any_eq_true.mpr ⟨e, List.mem_of_find?_eq_some h, hp⟩

theorem keeps_setPending_none (s : State) : Keeps s (s.setPending none) :=
  ⟨rfl, rfl, rfl, fun h => { h with pending := fun c hc => absurd hc (by simp [State.setPending]) }⟩

theorem keeps_setPending_some {s : State} {code : Code} (h : registered s.cfg.cmds code = true) :
    Keeps s (s.setPending (some code)) :=
  ⟨rfl, rfl, rfl, fun hi => { hi with pending := fun _ hc => Option.some.inj hc ▸ h }⟩

theorem keeps_dispatchWrite (s : State) (code : Code) (payload : List Byte) : Keeps s (s.dispatchWrite code payload) := by
  unfold State.dispatchWrite
  split
  · exact (keeps_setPending_none s).trans (keeps_raise _ _)
  · rename_i e he
    have k := keeps_setPending_some (s := s) (registered_of_commandAt he)
    dsimp only
    split
    · exact k.trans (keeps_callWriteHandler _ _ _)
    · split
      · exact k
      · exact k.trans (keeps_raise _ _)

end Sys2Proof.Machine
end

