-- ==== Sys2Proof/Laws/Ops.lean ====
section
/-! SUPPORT. Everything taking an operation can do (`perform`), and everything a step can do around `exec`. -/
namespace Sys2Proof.Machine

/-- Where an instance exists and R119 selects the operation, its effect is the next state. -/
theorem perform_eq_next {s : State} {i : Instr} {effect : State → State} (hp : s.phase ≠ .absent)
    (hs : i.selected s.ctx = true) : s.perform i effect = .next (effect s.begin) := by
  simp [State.perform, hp, hs]

/-- If an operation gives a next state, an instance existed, R119 selected it, and that state is its effect. -/
theorem perform_inv {s t : State} {i : Instr} {effect : State → State} (h : s.perform i effect = .next t) :
    s.phase ≠ .absent ∧ i.selected s.ctx = true ∧ t = effect s.begin := by
  unfold State.perform at h
  split at h
  · cases h
  · rename_i hp
    split at h
    · rename_i hs
      cases h
      exact ⟨hp, hs, rfl⟩
    · cases h

/-- No operation faults. -/
theorem perform_no_fault (s : State) (i : Instr) (effect : State → State) (f : Fault) :
    s.perform i effect ≠ .fault f := nomatch f

/-- The start of an operation touches no field of S, no configuration and no memory. -/
theorem inv_begin {s : State} (h : s.Inv) : s.begin.Inv := State.Inv.congr (s := s) rfl rfl id h

/-- Taking a call from the inbox touches nothing the invariant speaks of. -/
theorem inv_inbox {s : State} (calls : List Call) (h : s.Inv) : State.Inv { s with inbox := calls } :=
  State.Inv.congr (s := s) rfl rfl id h

/-- The device at power-on meets the invariant, whatever the configuration (R65, R391). -/
theorem inv_powerOn (s : State) (c : Cfg) (h : Memory.wf s.hostMem = true) :
    State.Inv { s with toDevice := powerOn c, cfg := c } where
  storeWf := Memory.wf_resetStore c.mode c.regmap
  hostWf := h
  storeDom := isSome_resetStore_regAt c
  spiAddr _ := Nat.two_pow_pos spiAddrBits
  i2cAddr _ := Nat.two_pow_pos i2cAddrBits
  pending := fun _ hc => nomatch hc
  fidxEmpty _ := rfl
  fidxBound := fun hf => absurd rfl hf
  curBound := Nat.le_refl 0
  measDom k := by
    show (measAt (c.meas.map fun m => (m.id, m.init)) k).isSome = (channelAt c.meas k).isSome
    induction c.meas with
    | nil => rfl
    | cons m ms ih =>
      by_cases hm : m.id = k
      · simp [measAt, channelAt, hm]
      · have : (m.id == k) = false := by simpa using hm
        simpa [measAt, channelAt, List.find?_cons, hm, this] using ih

/-! Steps. -/

theorem step_of_empty {s : State} (h : s.inbox = []) : step s = .next s := by simp [step, h]

theorem step_of_configure {s : State} {c : Cfg} {cmds : List CmdEntry} {rest : List Call}
    (h : s.inbox = .configure c cmds :: rest) : step s = State.configure { s with inbox := rest } c cmds := by
  simp [step, h]

theorem step_of_op {s : State} {call : Call} {rest : List Call} {i : Instr} (h : s.inbox = call :: rest)
    (hd : decode s.ctx call = .op i) : step s = exec i { s with inbox := rest } := by
  cases call with
  | configure c cmds => exact nomatch hd
  | _ => simp [step, h, hd]

theorem step_of_rejected {s : State} {call : Call} {rest : List Call} {e : DecodeError} (h : s.inbox = call :: rest)
    (hc : ∀ c cmds, call ≠ .configure c cmds) (hd : decode s.ctx call = .rejected e) :
    step s = .refused (.undecoded e) := by
  cases call with
  | configure c cmds => exact absurd rfl (hc c cmds)
  | _ => simp [step, h, hd]

/-- Every way a step gives a next state. -/
theorem step_inv {s t : State} (h : step s = .next t) :
    (s.inbox = [] ∧ t = s) ∨
    (∃ c cmds rest, s.inbox = .configure c cmds :: rest ∧
      State.configure { s with inbox := rest } c cmds = .next t) ∨
    (∃ call rest i, s.inbox = call :: rest ∧ decode s.ctx call = .op i ∧
      exec i { s with inbox := rest } = .next t) := by
  cases hb : s.inbox with
  | nil =>
    rw [step_of_empty hb] at h
    cases h
    exact .inl ⟨rfl, rfl⟩
  | cons call rest =>
    by_cases hc : ∃ c cmds, call = .configure c cmds
    · obtain ⟨c, cmds, rfl⟩ := hc
      rw [step_of_configure hb] at h
      exact .inr (.inl ⟨c, cmds, rest, rfl, h⟩)
    · cases hd : decode s.ctx call with
      | rejected e =>
        rw [step_of_rejected hb (fun c cmds hcc => hc ⟨c, cmds, hcc⟩) hd] at h
        cases h
      | op i =>
        rw [step_of_op hb hd] at h
        exact .inr (.inr ⟨call, rest, i, rfl, hd, h⟩)

/-- Only well-formed operations come out of the decoder. -/
theorem decode_wellFormed {x : Ctx} {call : Call} {i : Instr} (h : decode x call = .op i) : i.wellFormed = true := by
  cases call with
  | spiExchange b =>
    simp only [decode, decodeExchange, decodeSpiReg, decodeHeader] at h
    repeat' split at h
    all_goals cases h <;> rfl
  | spiCs level => simp only [decode, decodeSpiSignal] at h; split at h <;> cases h <;> rfl
  | spiFinish => simp only [decode, decodeSpiSignal] at h; split at h <;> cases h <;> rfl
  | i2cWrite bytes =>
    simp only [decode, decodeI2cWrite] at h
    split at h <;> cases h
    · rfl
    · match bytes with
      | [] => rfl
      | [_] => rfl
      | _ :: _ :: _ => rfl
  | i2cRead n => simp only [decode, decodeI2cRead] at h; split at h <;> cases h <;> rfl
  | i2cStop => simp only [decode, decodeI2cStop] at h; split at h <;> cases h <;> rfl
  | named i =>
    simp only [decode] at h
    split at h
    · rename_i hn
      split at h <;> cases h
      cases i <;> first | rfl | cases hn
    · cases h
  | configure c cmds => cases h

end Sys2Proof.Machine
end

