-- ==== Sys2Proof/Laws/Exec.lean ====
section
/-! SUPPORT. Every instruction at once: `exec` is the instruction's named effect where R119 selects it, and every effect keeps the configuration, the phase, the inbox and the invariant. REGISTER_CMD, which changes the command table, stands by itself. -/
namespace Sys2Proof.Machine

/-- The named effect of an operation. REGISTER_CMD has none. -/
def effect : Instr → State → State
  | .spiHdrRead a => effSpiHdrRead a
  | .spiHdrWrite a => effSpiHdrWrite a
  | .spiDataRead x => effSpiDataRead x
  | .spiDataWrite d => effSpiDataWrite d
  | .spiGated x => effSpiGated x
  | .spiCs level => effSpiCs level
  | .spiFinish => effSpiFinish
  | .spiSampleXchg x => effSpiSampleXchg x
  | .i2cWrite f => effI2cWrite f
  | .i2cRead n => effI2cRead n
  | .i2cFinish => effI2cFinish
  | .cmdWrite f => effCmdWrite f
  | .cmdRead n => effCmdRead n
  | .cmdFinish => effCmdFinish
  | .rfRead a => effRfRead a
  | .rfWrite a b => effRfWrite a b
  | .crcCalc data => effCrcCalc data
  | .capture old new => effCapture old new
  | .burstRead => effBurstRead
  | .lengthRead k => effLengthRead k
  | .dmaEnable old new => effDmaEnable old new
  | .feedSample v => effFeedSample v
  | .feedSamples vs => effFeedSamples vs
  | .addFrame f => effAddFrame f
  | .readFrame => effReadFrame
  | .dropFrames => effDropFrames
  | .loadActive f => effLoadActive f
  | .attachLive => effAttachLive
  | .detachLive => effDetachLive
  | .setMeas c v => effSetMeas c v
  | .loadPath target res => effLoadPath target res
  | .registerCmd _ _ _ => id
  | .reset => effReset

/-- Every operation but REGISTER_CMD is its effect where R119 selects it and an instance exists. -/
theorem exec_eq_perform (i : Instr) (s : State) (h : ∀ code wr rd, i ≠ .registerCmd code wr rd) :
    exec i s = s.perform i (effect i) := by
  cases i with
  | registerCmd code wr rd => exact absurd rfl (h code wr rd)
  | _ => rfl

theorem exec_registerCmd (code : Code) (wr : Option WriteHandler) (rd : Option ReadHandler) (s : State) :
    exec (.registerCmd code wr rd) s = execRegisterCmd code wr rd s := rfl

/-- What no operation but REGISTER_CMD changes. -/
theorem keeps_effect (i : Instr) (s : State) : Keeps s (effect i s) := by
  cases i with
  | spiHdrRead a => exact ⟨rfl, rfl, rfl, fun h => { h with spiAddr := fun _ => a.isLt }⟩
  | spiHdrWrite a => exact ⟨rfl, rfl, rfl, fun h => { h with spiAddr := fun _ => a.isLt }⟩
  | spiDataRead x => exact ((keeps_rfRead s _).trans (keeps_advanceSpi _)).trans (keeps_respond _ _)
  | spiDataWrite d => exact ((keeps_rfWrite s _ _).trans (keeps_advanceSpi _)).trans (keeps_respond _ _)
  | spiGated x => exact (keeps_raise s _).trans (keeps_respond _ _)
  | spiCs level => cases level <;> exact ⟨rfl, rfl, rfl, fun h => { h with }⟩
  | spiFinish =>
    show Keeps s (effSpiFinish s)
    unfold effSpiFinish
    split
    · exact .refl s
    · exact ⟨rfl, rfl, rfl, fun h => { h with }⟩
  | spiSampleXchg x =>
    show Keeps s (effSpiSampleXchg x s)
    unfold effSpiSampleXchg
    split
    · exact keeps_respond s _
    · exact ⟨rfl, rfl, rfl, fun h => { h with }⟩
  | i2cWrite f =>
    cases f with
    | empty => exact keeps_raise s _
    | write a data =>
      refine .trans (t := { s with i2c := { st := .processing, addr := a.toNat } }) ?_ (keeps_i2cWriteAll _ _)
      exact ⟨rfl, rfl, rfl, fun h => { h with i2cAddr := fun _ => a.isLt }⟩
  | i2cRead n =>
    show Keeps s (effI2cRead n s)
    unfold effI2cRead
    split
    · exact (keeps_raise s _).trans (keeps_respond _ _)
    · exact (keeps_i2cReadAll s n).trans (keeps_respond _ _)
  | i2cFinish => exact ⟨rfl, rfl, rfl, fun h => { h with i2cAddr := fun _ => Nat.two_pow_pos i2cAddrBits }⟩
  | cmdWrite f =>
    cases f with
    | short bytes => exact keeps_raise s _
    | command code payload => exact keeps_dispatchWrite s code payload
  | cmdRead n =>
    show Keeps s (effCmdRead n s)
    unfold effCmdRead
    split
    · exact (keeps_raise s _).trans (keeps_respond _ _)
    · split
      · exact (keeps_raise s _).trans (keeps_respond _ _)
      · exact keeps_respond s _
  | cmdFinish => exact keeps_setPending_none s
  | rfRead a => exact (keeps_rfRead s a).trans (keeps_respond _ _)
  | rfWrite a b => exact keeps_rfWrite s a b
  | crcCalc data => exact keeps_respond s _
  | capture old new => exact keeps_captureObserver s old new
  | burstRead => exact (keeps_burst s).trans (keeps_respond _ _)
  | lengthRead k => exact keeps_respond s _
  | dmaEnable old new => exact keeps_dmaObserver s _ _
  | feedSample v => exact (keeps_feed s [v]).trans (keeps_respond _ _)
  | feedSamples vs => exact (keeps_feed s vs).trans (keeps_respond _ _)
  | addFrame f => exact (keeps_appendFrame s f).trans (keeps_respond _ _)
  | readFrame => exact (keeps_nextFrame s).trans (keeps_respond _ _)
  | dropFrames =>
    exact ⟨rfl, rfl, rfl, fun h => { h with fidxEmpty := fun _ => rfl, fidxBound := fun hf => absurd rfl hf }⟩
  | loadActive f => exact (keeps_loadBuffer s f).trans (keeps_respond _ _)
  | attachLive => exact ⟨rfl, rfl, rfl, fun h => { h with }⟩
  | detachLive => exact ⟨rfl, rfl, rfl, fun h => { h with }⟩
  | setMeas c v =>
    show Keeps s (effSetMeas c v s)
    unfold effSetMeas
    split
    · exact keeps_fail s _
    · split
      · exact (keeps_setMeas s c v).trans (keeps_respond _ _)
      · split
        · exact keeps_fail s _
        · exact ((keeps_setMeas s c _).trans (keeps_raise _ _)).trans (keeps_respond _ _)
  | loadPath target res =>
    cases res with
    | fail => exact keeps_fail s _
    | bytes d =>
      cases target with
      | frame => exact (keeps_appendFrame s d).trans (keeps_respond _ _)
      | samples => exact (keeps_feed s d).trans (keeps_respond _ _)
  | registerCmd code wr rd => exact .refl s
  | reset =>
    exact ⟨rfl, rfl, rfl, fun h =>
      { h with
        storeWf := Memory.wf_resetStore _ _
        storeDom := isSome_resetStore_regAt s.cfg
        spiAddr := fun _ => Nat.two_pow_pos spiAddrBits
        i2cAddr := fun _ => Nat.two_pow_pos i2cAddrBits
        pending := fun _ hc => (nomatch hc)
        curBound := Nat.le_refl 0 }⟩

/-- A configuration that fails leaves the blank device (R329), which meets the invariant. -/
theorem inv_discard {s : State} (e : CfgError) (h : Memory.wf s.hostMem = true) : (s.discard e).Inv :=
  State.Inv.congr (s := { s with toDevice := powerOn Cfg.blank, cfg := Cfg.blank }) rfl rfl id (inv_powerOn s Cfg.blank h)

end Sys2Proof.Machine
end

