-- ==== Sys2Proof/Laws/Configure.lean ====
section
/-! SUPPORT. Registering commands in order, and the register storage at reset. -/
namespace Sys2Proof.Machine

theorem registerAll_spec (es : List CmdEntry) : ∀ tb, match registerAll tb es with
   | .ok t => t = tb ++ es ∧ (∀ e ∈ es, registered tb e.code = false) ∧ es.Pairwise (fun e f => e.code ≠ f.code)
   | .error e => ∃ x ∈ es, e = .duplicateCommand x.code ∧ (¬ es.Pairwise (fun e f => e.code ≠ f.code) ∨ ∃ y ∈ es, registered tb y.code = true) := by
  induction es with
  | nil => intro tb; simp [registerAll]
  | cons e es ih =>
    intro tb
    unfold registerAll registerOne
    cases hr : registered tb e.code with
    | true => exact ⟨e, by simp, rfl, .inr ⟨e, by simp, hr⟩⟩
    | false =>
      simp only [Bool.false_eq_true, if_false]
      have := ih (tb ++ [e])
      have hreg : ∀ c, registered (tb ++ [e]) c = (registered tb c || e.code == c) := by intro c; simp [registered]
      split
      · rename_i t ht; rw [ht] at this
        obtain ⟨h1, h2, h3⟩ := this
        refine ⟨by simp [h1], ?_, ?_⟩
        · intro x hx; rcases List.mem_cons.mp hx with rfl | hx
          · exact hr
          · have := h2 x hx; rw [hreg] at this; simp at this; exact this.1
        · refine List.pairwise_cons.mpr ⟨fun x hx => ?_, h3⟩
          have := h2 x hx; rw [hreg] at this; simp at this; exact this.2
      · rename_i t ht; rw [ht] at this
        obtain ⟨x, hx, h1, h2⟩ := this
        refine ⟨x, by simp [hx], h1, ?_⟩
        rcases h2 with h2 | ⟨y, hy, h2⟩
        · exact .inl fun hp => h2 (List.pairwise_cons.mp hp).2
        · rw [hreg] at h2; simp at h2
          rcases h2 with h2 | h2
          · exact .inr ⟨y, by simp [hy], h2⟩
          · exact .inl fun hp => (List.pairwise_cons.mp hp).1 y hy h2

theorem cellAt_resetStore (c : Cfg) (a : Nat) : cellAt (resetStore c.mode c.regmap) a = (Cfg.regAt c a).map RegDecl.reset := by
  unfold Cfg.regAt
  induction c.regmap with
  | nil => simp [resetStore, cellAt]
  | cons r rs ih =>
    unfold resetStore
    by_cases hr : r.addr < addrSpace c.mode
    · rw [if_pos hr, cellAt_cellPut]
      by_cases ha : a = r.addr
      · subst ha; simp [hr]
      · have : (r.addr == a) = false := by simpa using fun h => ha h.symm
        rw [if_neg ha, ih, List.find?_cons, this]
    · rw [if_neg hr, ih]
      by_cases hlt : a < addrSpace c.mode
      · have : (r.addr == a) = false := by simp; omega
        rw [List.find?_cons, this]
      · simp [hlt]

/-- A registration fails with the first code that was given before. -/
theorem registerAll_error (es : List CmdEntry) : ∀ tb e, (tb.Pairwise fun x y => x.code ≠ y.code) → registerAll tb es = .error e →
   ∃ pre x post, es = pre ++ x :: post ∧ e = .duplicateCommand x.code ∧ ((tb ++ pre).Pairwise fun x y => x.code ≠ y.code) ∧ ∃ y ∈ tb ++ pre, y.code = x.code := by
  induction es with
  | nil => intro tb e _ h; cases h
  | cons x es ih =>
    intro tb e hp h
    unfold registerAll registerOne at h
    cases hr : registered tb x.code with
    | true =>
      simp only [hr, if_true] at h; cases h
      refine ⟨[], x, es, rfl, rfl, by simpa using hp, ?_⟩
      obtain ⟨y, hy, hc⟩ := List.any_eq_true.mp hr
      exact ⟨y, by simpa using hy, by simpa using hc⟩
    | false =>
      simp only [hr, Bool.false_eq_true, if_false] at h
      have hnew : (tb ++ [x]).Pairwise fun x y => x.code ≠ y.code := by
        rw [List.pairwise_append]; refine ⟨hp, by simp, ?_⟩
        intro y hy z hz; simp at hz; subst hz
        simp only [registered, List.any_eq_false] at hr; simpa using hr y hy
      obtain ⟨pre, y, post, h1, h2, h3, h4⟩ := ih _ _ hnew h
      exact ⟨x :: pre, y, post, by simp [h1], h2, by simpa using h3, by simpa using h4⟩

end Sys2Proof.Machine
end

