-- ==== Sys2Proof/Laws/Emits.lean ====
section
/-! SUPPORT. The events of every operation: host memory follows them, and pulses stand right after their pushes. -/
namespace Sys2Proof.Machine

/-- The events `t` has beyond those of `s`, and host memory changed by exactly those (R68, R300). -/
structure Emits (s t : State) : Prop where
  ex : ∃ es, t.events = s.events ++ es ∧ t.hostMem = es.foldl Event.apply s.hostMem

theorem Emits.refl (s : State) : Emits s s := ⟨[], by simp, rfl⟩

theorem Emits.trans {s t u : State} (h : Emits s t) (k : Emits t u) : Emits s u := by
  obtain ⟨es, h1, h2⟩ := h
  obtain ⟨fs, k1, k2⟩ := k
  exact ⟨es ++ fs, by simp [k1, h1], by simp [k2, h2]⟩

theorem Emits.of {s t : State} (h : t.events = s.events) (k : t.hostMem = s.hostMem) : Emits s t := ⟨[], by simp [h], k⟩

theorem emits_emit (s : State) (e : Event) : Emits s (s.emit e) := ⟨[e], rfl, by cases e <;> rfl⟩

theorem emits_emitAll (s : State) (es : List Event) : Emits s (s.emitAll es) := by
  induction es generalizing s with
  | nil => exact .refl s
  | cons e es ih => exact (emits_emit s e).trans (ih _)

theorem emits_raiseAll (s : State) (ds : List Diag) : Emits s (ds.foldl State.raise s) := by
  induction ds generalizing s with
  | nil => exact .refl s
  | cons d ds ih => exact (emits_emit s _).trans (ih _)

theorem emits_setFlag (s : State) (r) (v) : Emits s (s.setFlag r v) := by
  unfold State.setFlag; split
  · split
    · exact .of rfl rfl
    · exact .refl s
  · exact .refl s

theorem emits_nextFrame (s : State) : Emits s s.nextFrame.2 := by
  unfold State.nextFrame; split
  · exact emits_emit s _
  · exact .of rfl rfl

theorem emits_takeLive (s : State) : Emits s s.takeLive.2 := by
  unfold State.takeLive; split <;> exact .of rfl rfl

theorem emits_selectFrame (s : State) : Emits s s.selectFrame.2 := by
  unfold State.selectFrame; split
  · exact emits_takeLive s
  · split
    · exact .refl s
    · exact emits_nextFrame s

theorem emits_doCapture (s : State) : Emits s s.doCapture :=
  ((emits_selectFrame s).trans (t := s.selectFrame.2) (u := s.selectFrame.2.loadBuffer s.selectFrame.1) (.of rfl rfl)).trans (emits_setFlag _ _ _)

theorem emits_captureObserver (s : State) (o n : Byte) : Emits s (s.captureObserver o n) := by
  unfold State.captureObserver; split
  · exact emits_doCapture s
  · split
    · exact .refl s
    · exact emits_doCapture s

theorem emits_push (s : State) : Emits s s.push :=
  (((emits_selectFrame s).trans (emits_emit _ _)).trans (emits_setFlag _ _ _)).trans (emits_emit _ _)

theorem emits_dmaObserver (s : State) (o n : Byte) : Emits s (s.dmaObserver o n) := by
  unfold State.dmaObserver; split
  · split
    · exact emits_emit s _
    · split
      · exact emits_push s
      · exact emits_emit s _
  · exact .refl s

theorem emits_burst (s : State) : Emits s s.burst.2 := by
  unfold State.burst; split
  · exact .of rfl rfl
  · exact emits_emit s _

theorem emits_callProvider (s : State) (p : Provider) : Emits s (s.callProvider p).2 := by
  cases p with
  | burst => exact emits_burst s
  | length k => exact .refl s
  | device id => exact Emits.trans (t := s.adoptProvider _) (.of rfl rfl) (emits_emitAll _ _)

theorem emits_readField (s : State) (a : Nat) (f : FieldDecl) : Emits s (s.readField a f).2 := by
  unfold State.readField; split
  · exact .refl s
  · exact .refl s
  all_goals
    split
    · exact emits_callProvider s _
    · exact .refl s

theorem emits_readFields (s : State) (a : Nat) (fs) : Emits s (s.readFields a fs).2 := by
  induction fs generalizing s with
  | nil => exact .refl s
  | cons f fs ih => exact (emits_readField s a f).trans (ih _)

theorem emits_rfRead (s : State) (a : Nat) : Emits s (s.rfRead a).2 := by
  unfold State.rfRead; split
  · exact emits_emit s _
  · exact emits_readFields s a _

theorem emits_callObserver (s : State) (o n : Byte) (ob : Observer) : Emits s (s.callObserver o n ob) := by
  cases ob with
  | capture => exact emits_captureObserver s o n
  | dmaEnable => exact emits_dmaObserver s o n
  | device id => exact Emits.trans (t := s.adoptObserver _) (.of rfl rfl) (emits_emitAll _ _)

theorem emits_runObservers (s : State) (a : Nat) (o b : Byte) (fs) : Emits s (s.runObservers a o b fs) := by
  induction fs generalizing s with
  | nil => exact .refl s
  | cons f fs ih =>
    refine .trans ?_ (ih _)
    split
    · split
      · exact emits_callObserver s _ _ _
      · exact .refl s
    · exact .refl s

theorem emits_rfWrite (s : State) (a : Nat) (b : Byte) : Emits s (s.rfWrite a b) := by
  unfold State.rfWrite; split
  · exact emits_emit s _
  · exact ((emits_raiseAll s _).trans (u := State.setStore _ _ _) (.of rfl rfl)).trans (emits_runObservers _ _ _ _ _)

theorem emits_i2cWriteAll (s : State) (bs : List Byte) : Emits s (s.i2cWriteAll bs) := by
  induction bs generalizing s with
  | nil => exact .refl s
  | cons b bs ih => exact ((emits_rfWrite s _ _).trans (u := State.advanceI2c _) (.of rfl rfl)).trans (ih _)

theorem emits_i2cReadAll (s : State) (n : Nat) : Emits s (s.i2cReadAll n).2 := by
  induction n generalizing s with
  | zero => exact .refl s
  | succ n ih => exact ((emits_rfRead s _).trans (u := State.advanceI2c _) (.of rfl rfl)).trans (ih _)

theorem emits_effect (i : Instr) (s : State) : Emits s (effect i s) := by
  cases i with
  | spiDataRead x => exact (emits_rfRead s _).trans (.of rfl rfl)
  | spiDataWrite d => exact (emits_rfWrite s _ _).trans (.of rfl rfl)
  | spiGated x => exact (emits_emit s _).trans (.of rfl rfl)
  | spiCs l => cases l <;> exact .of rfl rfl
  | spiFinish => show Emits s (effSpiFinish s); unfold effSpiFinish; split <;> exact .of rfl rfl
  | spiSampleXchg x => show Emits s (effSpiSampleXchg x s); unfold effSpiSampleXchg; split <;> exact .of rfl rfl
  | i2cWrite f =>
    cases f with
    | empty => exact emits_emit s _
    | write a d => exact Emits.trans (t := { s with i2c := ⟨.processing, a.toNat⟩ }) (.of rfl rfl) (emits_i2cWriteAll _ _)
  | i2cRead n =>
    show Emits s (effI2cRead n s); unfold effI2cRead; split
    · exact (emits_emit s _).trans (.of rfl rfl)
    · exact (emits_i2cReadAll s _).trans (.of rfl rfl)
  | cmdWrite f =>
    cases f with
    | short b => exact emits_emit s _
    | command c p =>
      show Emits s (s.dispatchWrite c p)
      unfold State.dispatchWrite; split
      · exact Emits.trans (t := s.setPending none) (.of rfl rfl) (emits_emit _ _)
      · dsimp only; split
        · rename_i h _
          refine Emits.trans (t := s.setPending _) (.of rfl rfl) ?_
          cases h with
          | storePayload => exact .of rfl rfl
          | device id => exact Emits.trans (t := State.adoptHandler (s.setPending (some c)) (Config.deviceWriteHandler id p (s.setPending (some c)).toDevice).1) (.of rfl rfl) (emits_emitAll _ _)
        · split
          · exact .of rfl rfl
          · exact Emits.trans (t := s.setPending (some c)) (.of rfl rfl) (emits_emit _ _)
  | cmdRead n =>
    show Emits s (effCmdRead n s); unfold effCmdRead; split
    · exact (emits_emit s _).trans (.of rfl rfl)
    · split
      · exact (emits_emit s _).trans (.of rfl rfl)
      · exact .of rfl rfl
  | rfRead a => exact (emits_rfRead s a).trans (.of rfl rfl)
  | rfWrite a b => exact emits_rfWrite s a b
  | capture o n => exact emits_captureObserver s o n
  | burstRead => exact (emits_burst s).trans (.of rfl rfl)
  | dmaEnable o n => exact emits_dmaObserver s _ _
  | readFrame => exact (emits_nextFrame s).trans (.of rfl rfl)
  | setMeas c v =>
    show Emits s (effSetMeas c v s); unfold effSetMeas; split
    · exact .of rfl rfl
    · split
      · exact .of rfl rfl
      · split
        · exact .of rfl rfl
        · exact Emits.trans (t := s.setMeas c _) (.of rfl rfl) (Emits.trans (emits_emit _ _) (.of rfl rfl))
  | loadPath t r => cases r <;> cases t <;> exact .of rfl rfl
  | _ => exact .of rfl rfl

theorem foldl_apply_without_hostWrite (es : List Event) (m) (h : ∀ a bytes, Event.hostWrite a bytes ∉ es) : es.foldl Event.apply m = m := by
  induction es generalizing m with
  | nil => rfl
  | cons e es ih =>
    have := ih m (fun a b hm => h a b (List.mem_cons_of_mem _ hm))
    cases e with
    | hostWrite a b => exact absurd (List.mem_cons_self) (h a b)
    | _ => simpa [Event.apply] using this

theorem paired_append {es fs : List Event} (h : pulsesPaired es = true) (k : pulsesPaired fs = true) : pulsesPaired (es ++ fs) = true := by
  fun_induction pulsesPaired es with
  | case1 => exact k
  | case2 d es ih => simpa [pulsesPaired] using ih h
  | case3 a b es ih => simpa [pulsesPaired] using ih h
  | case4 => cases h
  | case5 => cases h

/-- The events `t` has beyond those of `s` pair every pulse with its push (R98, R361), under one configuration. -/
structure Paired (s t : State) : Prop where
  ex : ∃ es, t.events = s.events ++ es ∧ pulsesPaired es = true
  cfg : t.cfg = s.cfg

theorem Paired.refl (s : State) : Paired s s := ⟨⟨[], by simp, rfl⟩, rfl⟩

theorem Paired.trans {s t u : State} (h : Paired s t) (k : Paired t u) : Paired s u := by
  obtain ⟨⟨es, h1, h2⟩, hc⟩ := h
  obtain ⟨⟨fs, k1, k2⟩, kc⟩ := k
  exact ⟨⟨es ++ fs, by simp [k1, h1], paired_append h2 k2⟩, kc.trans hc⟩

theorem Paired.of {s t : State} (h : t.events = s.events) (k : t.cfg = s.cfg) : Paired s t := ⟨⟨[], by simp [h], rfl⟩, k⟩

theorem paired_raise (s : State) (d : Diag) : Paired s (s.raise d) := ⟨⟨[.diag d], rfl, rfl⟩, rfl⟩

theorem paired_emitAll (s : State) (ds : List Diag) : Paired s (s.emitAll (ds.map Event.diag)) := by
  induction ds generalizing s with
  | nil => exact .refl s
  | cons e es ih => exact (paired_raise s e).trans (ih _)

theorem paired_raiseAll (s : State) (ds : List Diag) : Paired s (ds.foldl State.raise s) := by
  induction ds generalizing s with
  | nil => exact .refl s
  | cons d ds ih => exact (paired_raise s _).trans (ih _)

theorem paired_setFlag (s : State) (r) (v) : Paired s (s.setFlag r v) := by
  unfold State.setFlag; split
  · split
    · exact .of rfl rfl
    · exact .refl s
  · exact .refl s

theorem paired_nextFrame (s : State) : Paired s s.nextFrame.2 := by
  unfold State.nextFrame; split
  · exact paired_raise s _
  · exact .of rfl rfl

theorem paired_takeLive (s : State) : Paired s s.takeLive.2 := by
  unfold State.takeLive; split <;> exact .of rfl rfl

theorem paired_selectFrame (s : State) : Paired s s.selectFrame.2 := by
  unfold State.selectFrame; split
  · exact paired_takeLive s
  · split
    · exact .refl s
    · exact paired_nextFrame s

theorem paired_doCapture (s : State) : Paired s s.doCapture :=
  ((paired_selectFrame s).trans (t := s.selectFrame.2) (u := s.selectFrame.2.loadBuffer s.selectFrame.1) (.of rfl rfl)).trans (paired_setFlag _ _ _)

theorem paired_captureObserver (s : State) (o n : Byte) : Paired s (s.captureObserver o n) := by
  unfold State.captureObserver; split
  · exact paired_doCapture s
  · split
    · exact .refl s
    · exact paired_doCapture s

theorem setFlag_events (s : State) (r v) : (s.setFlag r v).events = s.events := by
  unfold State.setFlag; split
  · split <;> rfl
  · rfl

theorem setFlag_cfg (s : State) (r v) : (s.setFlag r v).cfg = s.cfg := (keeps_setFlag s r v).cfg

theorem paired_push (s : State) : Paired s s.push := by
  refine (paired_selectFrame s).trans ⟨⟨[.hostWrite s.selectFrame.2.dmaAddress s.selectFrame.1, .irqPulse], ?_, rfl⟩, ?_⟩
  · show (State.setFlag (s.selectFrame.2.emit _) _ _).events ++ _ = _
    rw [setFlag_events]
    show (s.selectFrame.2.events ++ [_]) ++ [_] = s.selectFrame.2.events ++ [_, _]
    rw [List.append_assoc]; rfl
  · show (State.setFlag _ _ _).cfg = _
    rw [setFlag_cfg]; rfl

theorem paired_dmaObserver (s : State) (o n : Byte) : Paired s (s.dmaObserver o n) := by
  unfold State.dmaObserver; split
  · split
    · exact paired_raise s _
    · split
      · exact paired_push s
      · exact paired_raise s _
  · exact .refl s

theorem paired_burst (s : State) : Paired s s.burst.2 := by
  unfold State.burst; split
  · exact .of rfl rfl
  · exact paired_raise s _

theorem paired_callProvider (s : State) (p : Provider) : Paired s (s.callProvider p).2 := by
  cases p with
  | burst => exact paired_burst s
  | length k => exact .refl s
  | device id => exact Paired.trans (t := s.adoptProvider _) (.of rfl rfl) (paired_emitAll _ _)

theorem paired_readField (s : State) (a : Nat) (f : FieldDecl) : Paired s (s.readField a f).2 := by
  unfold State.readField; split
  · exact .refl s
  · exact .refl s
  all_goals
    split
    · exact paired_callProvider s _
    · exact .refl s

theorem paired_readFields (s : State) (a : Nat) (fs) : Paired s (s.readFields a fs).2 := by
  induction fs generalizing s with
  | nil => exact .refl s
  | cons f fs ih => exact (paired_readField s a f).trans (ih _)

theorem paired_rfRead (s : State) (a : Nat) : Paired s (s.rfRead a).2 := by
  unfold State.rfRead; split
  · exact paired_raise s _
  · exact paired_readFields s a _

theorem observerOf_of_coreObserversOnly {c : Cfg} {a : Nat} {r : RegDecl} {f : FieldDecl} {id : Nat} (hc : Cfg.coreObserversOnly c = true) (hr : Cfg.regAt c a = some r) (hf : f ∈ r.fields) : Cfg.observerOf c a f ≠ some (.device id) := by
  have hr' : r ∈ c.regmap := by
    unfold Cfg.regAt at hr; split at hr
    · exact List.mem_of_find?_eq_some hr
    · cases hr
  simp only [Cfg.coreObserversOnly, List.all_eq_true] at hc
  have := hc r hr' f hf
  unfold Cfg.observerOf
  split
  · simp
  · split
    · simp
    · revert this; cases f.obs with
      | none => simp
      | some o => cases o <;> simp

theorem paired_runObservers (s : State) (a : Nat) (o b : Byte) (fs) (h : ∀ f ∈ fs, ∀ id, Cfg.observerOf s.cfg a f ≠ some (.device id)) : Paired s (s.runObservers a o b fs) := by
  induction fs generalizing s with
  | nil => exact .refl s
  | cons f fs ih =>
    show Paired s (State.runObservers (if Access.stores f.acc then
        match Cfg.observerOf s.cfg a f with
        | some ob => s.callObserver (fieldOf f o) (fieldOf f b) ob
        | none => s
      else s) a o b fs)
    refine Paired.trans ?_ (ih _ ?_)
    · split
      · split
        · rename_i ob hob
          cases ob with
          | capture => exact paired_captureObserver s (fieldOf f o) (fieldOf f b)
          | dmaEnable => exact paired_dmaObserver s (fieldOf f o) (fieldOf f b)
          | device id => exact absurd hob (h f List.mem_cons_self id)
        · exact .refl s
      · exact .refl s
    · intro g hg id
      have : ∀ t : State, Keeps s t → Cfg.observerOf t.cfg a g ≠ some (.device id) := by
        intro t k; rw [k.cfg]; exact h g (List.mem_cons_of_mem _ hg) id
      apply this
      split
      · split
        · exact keeps_callObserver _ _ _ _
        · exact .refl s
      · exact .refl s

theorem paired_rfWrite (s : State) (a : Nat) (b : Byte) (hc : Cfg.coreObserversOnly s.cfg = true) : Paired s (s.rfWrite a b) := by
  unfold State.rfWrite; split
  · exact paired_raise s _
  · rename_i r hr
    have h0 := paired_raiseAll s (r.fields.filterMap (fieldDiag a (s.storeAt a) b))
    refine ((h0).trans (u := State.setStore _ _ _) (.of rfl rfl)).trans (paired_runObservers _ _ _ _ _ ?_)
    intro f hf id
    show Cfg.observerOf (State.cfg _) a f ≠ _
    rw [State.setStore_cfg, h0.cfg]
    exact observerOf_of_coreObserversOnly hc hr hf

theorem paired_i2cWriteAll (s : State) (bs : List Byte) (hc : Cfg.coreObserversOnly s.cfg = true) : Paired s (s.i2cWriteAll bs) := by
  induction bs generalizing s with
  | nil => exact .refl s
  | cons b bs ih =>
    have := (paired_rfWrite s s.i2c.addr b hc).trans (u := State.advanceI2c _) (.of rfl rfl)
    exact this.trans (ih _ (by rw [this.cfg]; exact hc))

theorem paired_i2cReadAll (s : State) (n : Nat) : Paired s (s.i2cReadAll n).2 := by
  induction n generalizing s with
  | zero => exact .refl s
  | succ n ih => exact ((paired_rfRead s _).trans (u := State.advanceI2c _) (.of rfl rfl)).trans (ih _)

theorem paired_effect (i : Instr) (s : State) (hc : Cfg.coreObserversOnly s.cfg = true) : Paired s (effect i s) := by
  cases i with
  | spiDataRead x => exact (paired_rfRead s _).trans (.of rfl rfl)
  | spiDataWrite d => exact (paired_rfWrite s _ _ hc).trans (.of rfl rfl)
  | spiGated x => exact (paired_raise s _).trans (.of rfl rfl)
  | spiCs l => cases l <;> exact .of rfl rfl
  | spiFinish => show Paired s (effSpiFinish s); unfold effSpiFinish; split <;> exact .of rfl rfl
  | spiSampleXchg x => show Paired s (effSpiSampleXchg x s); unfold effSpiSampleXchg; split <;> exact .of rfl rfl
  | i2cWrite f =>
    cases f with
    | empty => exact paired_raise s _
    | write a d => exact Paired.trans (t := { s with i2c := ⟨.processing, a.toNat⟩ }) (.of rfl rfl) (paired_i2cWriteAll _ _ hc)
  | i2cRead n =>
    show Paired s (effI2cRead n s); unfold effI2cRead; split
    · exact (paired_raise s _).trans (.of rfl rfl)
    · exact (paired_i2cReadAll s _).trans (.of rfl rfl)
  | cmdWrite f =>
    cases f with
    | short b => exact paired_raise s _
    | command c p =>
      show Paired s (s.dispatchWrite c p)
      unfold State.dispatchWrite; split
      · exact Paired.trans (t := s.setPending none) (.of rfl rfl) (paired_raise _ _)
      · dsimp only; split
        · rename_i h _
          refine Paired.trans (t := s.setPending _) (.of rfl rfl) ?_
          cases h with
          | storePayload => exact .of rfl rfl
          | device id => exact Paired.trans (t := State.adoptHandler (s.setPending (some c)) (Config.deviceWriteHandler id p (s.setPending (some c)).toDevice).1) (.of rfl rfl) (paired_emitAll _ _)
        · split
          · exact .of rfl rfl
          · exact Paired.trans (t := s.setPending (some c)) (.of rfl rfl) (paired_raise _ _)
  | cmdRead n =>
    show Paired s (effCmdRead n s); unfold effCmdRead; split
    · exact (paired_raise s _).trans (.of rfl rfl)
    · split
      · exact (paired_raise s _).trans (.of rfl rfl)
      · exact .of rfl rfl
  | rfRead a => exact (paired_rfRead s a).trans (.of rfl rfl)
  | rfWrite a b => exact paired_rfWrite s a b hc
  | capture o n => exact paired_captureObserver s o n
  | burstRead => exact (paired_burst s).trans (.of rfl rfl)
  | dmaEnable o n => exact paired_dmaObserver s _ _
  | readFrame => exact (paired_nextFrame s).trans (.of rfl rfl)
  | setMeas c v =>
    show Paired s (effSetMeas c v s); unfold effSetMeas; split
    · exact .of rfl rfl
    · split
      · exact .of rfl rfl
      · split
        · exact .of rfl rfl
        · exact Paired.trans (t := s.setMeas c _) (.of rfl rfl) (Paired.trans (paired_raise _ _) (.of rfl rfl))
  | loadPath t r => cases r <;> cases t <;> exact .of rfl rfl
  | _ => exact .of rfl rfl

end Sys2Proof.Machine
end

