-- ==== Sys2Proof/Laws/Fields.lean ====
section
/-! SUPPORT. Bit-fields of a register byte: which bits a mask, a read and a write concern. -/
namespace Sys2Proof.Machine

theorem bit_widthMask (w i : Nat) : (widthMask w).getLsbD i = (decide (i < 8) && decide (i < w)) := by
  simp [widthMask, BitVec.getLsbD_ofNat, Nat.testBit_two_pow_sub_one]

theorem bit_fieldMask (off w i : Nat) : (fieldMask off w).getLsbD i = (decide (i < 8) && decide (off ≤ i) && decide (i - off < w)) := by
  simp [fieldMask, bit_widthMask]
  by_cases h : i < 8 <;> by_cases h2 : off ≤ i <;> by_cases h3 : i - off < w <;> simp [h, h2, h3] <;> omega

theorem bit_getBits (b : Byte) (off w i : Nat) : (getBits b off w).getLsbD i = (decide (i < w) && b.getLsbD (off + i)) := by
  simp [getBits, bit_widthMask]
  by_cases h : i < 8
  · simp [h, Bool.and_comm]
  · have : b.getLsbD (off + i) = false := BitVec.getLsbD_of_ge _ _ (by omega)
    simp [h, this]

theorem bit_fieldOf (f : FieldDecl) (b : Byte) (i : Nat) : (fieldOf f b).getLsbD i = (decide (i < f.w) && b.getLsbD (f.off + i)) := bit_getBits _ _ _ _

theorem bit_setBits (b v : Byte) (off w i : Nat) : (setBits b off w v).getLsbD i = if i < 8 ∧ off ≤ i ∧ i - off < w then v.getLsbD (i - off) else b.getLsbD i := by
  simp only [setBits, BitVec.getLsbD_or, BitVec.getLsbD_and, BitVec.getLsbD_not, BitVec.getLsbD_shiftLeft, bit_fieldMask, bit_widthMask]
  by_cases h : i < 8
  · by_cases h2 : off ≤ i
    · have h4 : ¬ i < off := by omega
      have h5 : i - off < 8 := by omega
      by_cases h3 : i - off < w <;> simp [h, h2, h3, h4, h5]
    · have h4 : i < off := by omega
      simp [h, h2, h4]
  · have : b.getLsbD i = false := BitVec.getLsbD_of_ge _ _ (by omega)
    simp [h, this]

/-- Whether a field covers bit `i` of its register. -/
def covers (f : FieldDecl) (i : Nat) : Bool := decide (f.off ≤ i) && decide (i - f.off < f.w)

theorem bit_coveredMask (fs : List FieldDecl) (i : Nat) : (coveredMask fs).getLsbD i = (decide (i < 8) && fs.any fun f => covers f i) := by
  induction fs with
  | nil => simp [coveredMask]
  | cons f fs ih =>
    simp only [coveredMask, BitVec.getLsbD_or, bit_fieldMask, ih, List.any_cons, covers]
    cases decide (i < 8) <;> simp

theorem bit_mergeFields (fs : List FieldDecl) (old b : Byte) (i : Nat) : (mergeFields old b fs).getLsbD i = if (i < 8 ∧ fs.any fun f => Access.stores f.acc && covers f i) then b.getLsbD i else old.getLsbD i := by
  induction fs generalizing old with
  | nil => simp [mergeFields]
  | cons f fs ih =>
    unfold mergeFields
    split
    · rename_i hs
      rw [ih, bit_setBits, bit_fieldOf]
      simp only [List.any_cons, hs, Bool.true_and, covers]
      by_cases h : i < 8
      · by_cases h2 : f.off ≤ i <;> by_cases h3 : i - f.off < f.w <;> simp [h, h2, h3]
      · simp [h]
    · rename_i hs
      rw [ih]; simp [hs]

theorem byte_eq_of_bits {x y : Byte} (h : ∀ i, i < 8 → x.getLsbD i = y.getLsbD i) : x = y := BitVec.eq_of_getLsbD_eq (fun i hi => h i hi)

theorem apart_of_allApart {fs : List FieldDecl} (h : allApart fs = true) : ∀ {f g : FieldDecl}, f ∈ fs → g ∈ fs → f = g ∨ fieldsApart f g = true ∨ fieldsApart g f = true := by
  induction fs with
  | nil => intro f g hf; cases hf
  | cons a fs ih =>
    simp only [allApart, Bool.and_eq_true, List.all_eq_true] at h
    intro f g hf hg
    rcases List.mem_cons.mp hf with hf | hf <;> rcases List.mem_cons.mp hg with hg | hg
    · exact .inl (hf.trans hg.symm)
    · exact .inr (.inl (hf ▸ h.1 g hg))
    · exact .inr (.inr (hg ▸ h.1 f hf))
    · exact ih h.2 hf hg

theorem apart_covers {f g : FieldDecl} (h : fieldsApart f g = true ∨ fieldsApart g f = true) (i : Nat) (hf : covers f i = true) : covers g i = false := by
  simp [fieldsApart, covers] at *
  omega

theorem fieldOf_mergeFields {fs : List FieldDecl} (ha : allApart fs = true) (hfit : ∀ f ∈ fs, fieldFits f = true) (old b : Byte) {f} (hf : f ∈ fs) :
   fieldOf f (mergeFields old b fs) = if Access.stores f.acc then fieldOf f b else fieldOf f old := by
  have hfi := hfit f hf
  simp [fieldFits] at hfi
  apply byte_eq_of_bits; intro i hi
  rw [bit_fieldOf, bit_mergeFields]
  by_cases hw : i < f.w
  · have hc : covers f (f.off + i) = true := by simp [covers, hw]
    split
    · rename_i h
      obtain ⟨_, h⟩ := h
      obtain ⟨g, hg, hg2⟩ := List.any_eq_true.mp h
      simp only [Bool.and_eq_true] at hg2
      rcases apart_of_allApart ha hf hg with rfl | h'
      · simp [hg2.1, bit_fieldOf, hw]
      · have := apart_covers h' _ hc; rw [this] at hg2; cases hg2.2
    · rename_i h
      have : ¬ Access.stores f.acc = true := by
        intro hs; apply h; refine ⟨by omega, List.any_eq_true.mpr ⟨f, hf, by simp [hs, hc]⟩⟩
      simp [this, bit_fieldOf, hw]
  · have : ∀ x, (fieldOf f x).getLsbD i = false := by intro x; simp [bit_fieldOf, hw]
    by_cases hs : Access.stores f.acc = true <;> simp [hw, hs, this]

theorem mergeFields_uncovered (fs : List FieldDecl) (old b : Byte) : mergeFields old b fs &&& ~~~ coveredMask fs = old &&& ~~~ coveredMask fs := by
  apply byte_eq_of_bits; intro i hi
  simp only [BitVec.getLsbD_and, BitVec.getLsbD_not, bit_mergeFields, bit_coveredMask, hi, decide_true, Bool.true_and, true_and]
  by_cases h : (fs.any fun f => covers f i) = true
  · simp [h]
  · have : ¬ (fs.any fun f => Access.stores f.acc && covers f i) = true := by
      intro h2; apply h
      obtain ⟨g, hg, hg2⟩ := List.any_eq_true.mp h2
      exact List.any_eq_true.mpr ⟨g, hg, by simp at hg2; exact hg2.2⟩
    simp only [this]; simp

theorem readField_high_bit (s : State) (a f) (i) (h : f.w ≤ i) : (s.readField a f).1.getLsbD i = false := by
  unfold State.readField
  split
  · simp [fieldConst, bit_widthMask]; omega
  · simp
  all_goals
    split
    · simp [bit_widthMask]; omega
    · rw [bit_fieldOf]; simp; omega

theorem readFields_uncovered (s : State) (a) (fs) (hfit : ∀ f ∈ fs, fieldFits f = true) (i) (h : (fs.any fun f => covers f i) = false) : (s.readFields a fs).1.getLsbD i = false := by
  induction fs generalizing s with
  | nil => simp [State.readFields]
  | cons f fs ih =>
    simp only [List.any_cons, Bool.or_eq_false_iff] at h
    show ((s.readField a f).1 <<< f.off ||| ((s.readField a f).2.readFields a fs).1 : Byte).getLsbD i = false
    rw [BitVec.getLsbD_or, ih _ (fun g hg => hfit g (List.mem_cons_of_mem _ hg)) h.2]
    have h1 := h.1
    simp only [covers, Bool.and_eq_false_iff, decide_eq_false_iff_not] at h1
    simp only [Bool.or_false, BitVec.getLsbD_shiftLeft]
    by_cases hi : i < f.off
    · simp [hi]
    · rw [readField_high_bit s a f _ (by omega)]; simp

theorem fieldOf_readFields (a) (fs) (ha : allApart fs = true) (hfit : ∀ f ∈ fs, fieldFits f = true) : ∀ (s : State) (j f), fs[j]? = some f →
    fieldOf f (s.readFields a fs).1 = (State.readField (s.readFields a (fs.take j)).2 a f).1 := by
  induction fs with
  | nil => intro s j f h; simp at h
  | cons g fs ih =>
    simp only [allApart, Bool.and_eq_true, List.all_eq_true] at ha
    have hfit' : ∀ f ∈ fs, fieldFits f = true := fun f hf => hfit f (List.mem_cons_of_mem _ hf)
    intro s j f h
    have hv : (s.readFields a (g :: fs)).1 = ((s.readField a g).1 <<< g.off) ||| ((s.readField a g).2.readFields a fs).1 := rfl
    cases j with
    | zero =>
      simp at h; subst h
      have hg := hfit g List.mem_cons_self; simp [fieldFits] at hg
      show _ = (s.readField a g).1
      apply byte_eq_of_bits; intro i hi
      rw [bit_fieldOf, hv, BitVec.getLsbD_or, BitVec.getLsbD_shiftLeft]
      by_cases hw : i < g.w
      · rw [readFields_uncovered _ a fs hfit' _ ?_]
        · simp [hw]; omega
        · rw [List.any_eq_false]; intro k hk
          have := apart_covers (.inl (ha.1 k hk)) (g.off + i) (by simp [covers, hw])
          simp [this]
      · rw [readField_high_bit s a g i (by omega)]; simp [hw]
    | succ j =>
      simp at h
      have hmem := List.mem_of_getElem? h
      show _ = (State.readField ((s.readField a g).2.readFields a (fs.take j)).2 a f).1
      rw [← ih ha.2 hfit' (s.readField a g).2 j f h]
      apply byte_eq_of_bits; intro i hi
      rw [bit_fieldOf, bit_fieldOf, hv, BitVec.getLsbD_or, BitVec.getLsbD_shiftLeft]
      by_cases hw : i < f.w
      · have := apart_covers (.inr (ha.1 f hmem)) (f.off + i) (by simp [covers, hw])
        simp only [covers, Bool.and_eq_false_iff, decide_eq_false_iff_not] at this
        by_cases hi2 : f.off + i < g.off
        · simp [hi2]
        · rw [readField_high_bit s a g _ (by omega)]; simp
      · simp [hw]

theorem apart_and_fits_of_regFits {r} (h : regFits r = true) : allApart r.fields = true ∧ ∀ f ∈ r.fields, fieldFits f = true := by
  simp only [regFits, Bool.and_eq_true, List.all_eq_true] at h; exact ⟨h.1.1, h.1.2⟩

theorem rfRead_of_regAt {s : State} {a r} (h : Cfg.regAt s.cfg a = some r) : s.rfRead a = ((s.readFields a r.fields).1 ||| (r.reset &&& ~~~ coveredMask r.fields), (s.readFields a r.fields).2) := by
  unfold State.rfRead; rw [h]

theorem rfRead_fields {s : State} {a r} (h : Cfg.regAt s.cfg a = some r) (hf : regFits r = true) :
   (∀ j f, r.fields[j]? = some f → fieldOf f (s.rfRead a).1 = (State.readField (s.readFields a (r.fields.take j)).2 a f).1) ∧ (s.rfRead a).1 &&& ~~~ coveredMask r.fields = r.reset &&& ~~~ coveredMask r.fields := by
  obtain ⟨h1, h2⟩ := apart_and_fits_of_regFits hf
  rw [rfRead_of_regAt h]
  constructor
  · intro j f hj
    rw [← fieldOf_readFields a r.fields h1 h2 s j f hj]
    have hm := List.mem_of_getElem? hj
    apply byte_eq_of_bits; intro i hi
    simp only [bit_fieldOf, BitVec.getLsbD_or, BitVec.getLsbD_and, BitVec.getLsbD_not, bit_coveredMask]
    by_cases hw : i < f.w
    · have : (r.fields.any fun g => covers g (f.off + i)) = true := List.any_eq_true.mpr ⟨f, hm, by simp [covers, hw]⟩
      rw [this]; cases decide (f.off + i < 8) <;> simp [hw]
    · simp [hw]
  · apply byte_eq_of_bits; intro i hi
    simp only [BitVec.getLsbD_or, BitVec.getLsbD_and, BitVec.getLsbD_not, bit_coveredMask, hi, decide_true, Bool.true_and]
    by_cases hc : (r.fields.any fun f => covers f i) = true
    · simp [hc]
    · simp only [Bool.not_eq_true] at hc
      rw [readFields_uncovered s a _ h2 i hc]; simp [hc]

theorem readFields_without_providers (s : State) (a fs) (h : ∀ f ∈ fs, (f.acc = .read ∨ f.acc = .readWrite) → f.prov = none) : (s.readFields a fs).2 = s := by
  induction fs generalizing s with
  | nil => rfl
  | cons f fs ih =>
    show ((s.readField a f).2.readFields a fs).2 = s
    have : (s.readField a f).2 = s := by
      unfold State.readField
      have := h f List.mem_cons_self
      split
      · rfl
      · rfl
      · rename_i hacc; rw [this (.inl hacc)]
      · rename_i hacc; rw [this (.inr hacc)]
    rw [this]; exact ih s (fun g hg => h g (List.mem_cons_of_mem _ hg))

theorem raiseAll_eq_events (s : State) (ds : List Diag) : ds.foldl State.raise s = { s with events := s.events ++ ds.map Event.diag } := by
  induction ds generalizing s with
  | nil => simp
  | cons d ds ih => rw [List.foldl_cons, ih]; simp [State.raise, State.emit]

theorem stores_cases (f : FieldDecl) (x y : Byte) : (if Access.stores f.acc then x else y) = match f.acc with
        | .write => x
        | .readWrite => x
        | .read => y
        | .reservedConstant => y := by cases f.acc <;> rfl

theorem runObservers_without_observers (s : State) (a o b fs) (h : ∀ f ∈ fs, (f.acc = .write ∨ f.acc = .readWrite) → Cfg.observerOf s.cfg a f = none) : s.runObservers a o b fs = s := by
  induction fs with
  | nil => rfl
  | cons f fs ih =>
    show State.runObservers (if Access.stores f.acc then match Cfg.observerOf s.cfg a f with | some ob => s.callObserver (fieldOf f o) (fieldOf f b) ob | none => s else s) a o b fs = s
    have : (if Access.stores f.acc then match Cfg.observerOf s.cfg a f with | some ob => s.callObserver (fieldOf f o) (fieldOf f b) ob | none => s else s) = s := by
      split
      · rename_i hs
        rw [h f List.mem_cons_self (by cases hacc : f.acc <;> simp_all [Access.stores])]
      · rfl
    rw [this]
    exact ih (fun g hg => h g (List.mem_cons_of_mem _ hg))

theorem eq_of_off_eq {fs : List FieldDecl} (ha : allApart fs = true) (hfit : ∀ f ∈ fs, fieldFits f = true) {f g} (hf : f ∈ fs) (hg : g ∈ fs) (h : f.off = g.off) : f = g := by
  rcases apart_of_allApart ha hf hg with h' | h'
  · exact h'
  · have a1 := hfit f hf; have a2 := hfit g hg
    simp [fieldFits, fieldsApart] at a1 a2 h'; omega

/-- Setting one field of a well-formed register leaves every other field alone. -/
theorem fieldOf_setBits_of_ne {fs : List FieldDecl} (ha : allApart fs = true) {f g} (hf : f ∈ fs) (hg : g ∈ fs) (hne : f ≠ g) (x v : Byte) : fieldOf f (setBits x g.off g.w v) = fieldOf f x := by
  apply byte_eq_of_bits; intro i hi
  rw [bit_fieldOf, bit_fieldOf, bit_setBits]
  by_cases hw : i < f.w
  · have hc : covers f (f.off + i) = true := by simp [covers, hw]
    rcases apart_of_allApart ha hf hg with h | h
    · exact absurd h hne
    · have := apart_covers h _ hc
      simp [covers] at this
      rw [if_neg (by omega)]
  · simp [hw]

/-- A declared field is found by its register and its offset. -/
theorem fieldAt_of_mem {c : Cfg} {a r g} (hr : Cfg.regAt c a = some r) (hf : regFits r = true) (hg : g ∈ r.fields) : Cfg.fieldAt c { addr := a, off := g.off } = some g := by
  unfold Cfg.fieldAt; simp only [hr]
  obtain ⟨h1, h2⟩ := apart_and_fits_of_regFits hf
  cases hx : r.fields.find? (fun f => f.off == g.off) with
  | none => rw [List.find?_eq_none] at hx; have := hx g hg; simp at this
  | some x =>
    have e1 := List.mem_of_find?_eq_some hx
    have e2 := List.find?_some hx
    rw [eq_of_off_eq h1 h2 e1 hg (by simpa using e2)]

/-- A field of eight bits is the only field of its register. -/
theorem fields_eq_singleton {r : RegDecl} (hf : regFits r = true) {f} (hm : f ∈ r.fields) (hw : f.w = 8) : r.fields = [f] := by
  obtain ⟨h1, h2⟩ := apart_and_fits_of_regFits hf
  have key : ∀ x ∈ r.fields, ∀ y ∈ r.fields, (x.w = 8 ∨ y.w = 8) → fieldsApart x y = false := by
    intro x hx y hy h
    have a := h2 x hx; have b := h2 y hy
    simp [fieldFits, fieldsApart] at a b ⊢; omega
  cases hl : r.fields with
  | nil => rw [hl] at hm; cases hm
  | cons x xs =>
    rw [hl] at h1 hm key
    simp only [allApart, Bool.and_eq_true, List.all_eq_true] at h1
    have hxs : xs = [] ∨ f = x := by
      rcases List.mem_cons.mp hm with h | h
      · exact .inr h
      · have := h1.1 f h; rw [key x (by simp) f hm (.inr hw)] at this; cases this
    rcases hxs with h | h
    · subst h; simp at hm; rw [hm]
    · subst h
      cases xs with
      | nil => rfl
      | cons y ys => have := h1.1 y (by simp); rw [key f (by simp) y (by simp) (.inl hw)] at this; cases this

end Sys2Proof.Machine
end

