-- ==== Sys2Proof/Laws/PerInstr.lean ====
section
/-! SUPPORT. Statements made instruction by instruction. Family `WireForm`: an operation is sent by its own name exactly when it is of the host, the configuration phase or the inside of the block; every bus operation has a wire form (R117, R119). -/
namespace Sys2Proof.Laws.WireForm

/-- What the family states of an operation. -/
def Statement (i : Instr) : Prop := encode i = .named i ↔ i.isNamed = true

theorem spiHdrRead (a : BitVec 7) : Statement (.spiHdrRead a) := ⟨(nomatch ·), (nomatch ·)⟩
theorem spiHdrWrite (a : BitVec 7) : Statement (.spiHdrWrite a) := ⟨(nomatch ·), (nomatch ·)⟩
theorem spiDataRead (x : Byte) : Statement (.spiDataRead x) := ⟨(nomatch ·), (nomatch ·)⟩
theorem spiDataWrite (d : Byte) : Statement (.spiDataWrite d) := ⟨(nomatch ·), (nomatch ·)⟩
theorem spiGated (x : Byte) : Statement (.spiGated x) := ⟨(nomatch ·), (nomatch ·)⟩
theorem spiCs (level : Level) : Statement (.spiCs level) := ⟨(nomatch ·), (nomatch ·)⟩
theorem spiFinish : Statement .spiFinish := ⟨(nomatch ·), (nomatch ·)⟩
theorem spiSampleXchg (x : Byte) : Statement (.spiSampleXchg x) := ⟨(nomatch ·), (nomatch ·)⟩
theorem i2cWrite (f : I2cFrame) : Statement (.i2cWrite f) := ⟨(nomatch ·), (nomatch ·)⟩
theorem i2cRead (n : Nat) : Statement (.i2cRead n) := ⟨(nomatch ·), (nomatch ·)⟩
theorem i2cFinish : Statement .i2cFinish := ⟨(nomatch ·), (nomatch ·)⟩
theorem cmdWrite (f : CmdFrame) : Statement (.cmdWrite f) := ⟨(nomatch ·), (nomatch ·)⟩
theorem cmdRead (n : Nat) : Statement (.cmdRead n) := ⟨(nomatch ·), (nomatch ·)⟩
theorem cmdFinish : Statement .cmdFinish := ⟨(nomatch ·), (nomatch ·)⟩
theorem rfRead (a : Nat) : Statement (.rfRead a) := ⟨fun _ => rfl, fun _ => rfl⟩
theorem rfWrite (a : Nat) (b : Byte) : Statement (.rfWrite a b) := ⟨fun _ => rfl, fun _ => rfl⟩
theorem crcCalc (data : List Byte) : Statement (.crcCalc data) := ⟨fun _ => rfl, fun _ => rfl⟩
theorem capture (old new : Byte) : Statement (.capture old new) := ⟨fun _ => rfl, fun _ => rfl⟩
theorem burstRead : Statement .burstRead := ⟨fun _ => rfl, fun _ => rfl⟩
theorem lengthRead (k : Nat) : Statement (.lengthRead k) := ⟨fun _ => rfl, fun _ => rfl⟩
theorem dmaEnable (old new : BitVec 1) : Statement (.dmaEnable old new) := ⟨fun _ => rfl, fun _ => rfl⟩
theorem feedSample (v : Byte) : Statement (.feedSample v) := ⟨fun _ => rfl, fun _ => rfl⟩
theorem feedSamples (vs : List Byte) : Statement (.feedSamples vs) := ⟨fun _ => rfl, fun _ => rfl⟩
theorem addFrame (f : Frame) : Statement (.addFrame f) := ⟨fun _ => rfl, fun _ => rfl⟩
theorem readFrame : Statement .readFrame := ⟨fun _ => rfl, fun _ => rfl⟩
theorem dropFrames : Statement .dropFrames := ⟨fun _ => rfl, fun _ => rfl⟩
theorem loadActive (f : Frame) : Statement (.loadActive f) := ⟨fun _ => rfl, fun _ => rfl⟩
theorem attachLive : Statement .attachLive := ⟨fun _ => rfl, fun _ => rfl⟩
theorem detachLive : Statement .detachLive := ⟨fun _ => rfl, fun _ => rfl⟩
theorem setMeas (c : Nat) (v : Rat) : Statement (.setMeas c v) := ⟨fun _ => rfl, fun _ => rfl⟩
theorem loadPath (target : Target) (res : LoadResult) : Statement (.loadPath target res) := ⟨fun _ => rfl, fun _ => rfl⟩
theorem registerCmd (code : Code) (wr : Option WriteHandler) (rd : Option ReadHandler) : Statement (.registerCmd code wr rd) := ⟨fun _ => rfl, fun _ => rfl⟩
theorem reset : Statement .reset := ⟨fun _ => rfl, fun _ => rfl⟩

end Sys2Proof.Laws.WireForm
end

