-- ==== Sys2Proof/Laws/Untouched.lean ====
section
/-! SUPPORT. What a register access leaves alone, and which operations change the answer. -/
namespace Sys2Proof.Machine

/-- What no register access touches when its observers are the core's: the answer, both bus machines, the pending command, the samples, the live flag and the measurements. -/
structure Untouched (s t : State) : Prop where
  resp : t.resp = s.resp
  spi : t.spi = s.spi
  i2c : t.i2c = s.i2c
  cmd : t.cmd = s.cmd
  fifo : t.fifo = s.fifo
  last : t.last = s.last
  live : t.live = s.live
  meas : t.meas = s.meas

theorem Untouched.refl (s : State) : Untouched s s := ⟨rfl, rfl, rfl, rfl, rfl, rfl, rfl, rfl⟩

theorem Untouched.trans {s t u : State} (h : Untouched s t) (k : Untouched t u) : Untouched s u :=
  ⟨k.1.trans h.1, k.2.trans h.2, k.3.trans h.3, k.4.trans h.4, k.5.trans h.5, k.6.trans h.6, k.7.trans h.7, k.8.trans h.8⟩

theorem untouched_emit (s : State) (d : Event) : Untouched s (s.emit d) := ⟨rfl, rfl, rfl, rfl, rfl, rfl, rfl, rfl⟩

theorem untouched_emitAll (s : State) (es : List Event) : Untouched s (s.emitAll es) := by
  induction es generalizing s with
  | nil => exact .refl s
  | cons e es ih => exact (untouched_emit s e).trans (ih _)

theorem untouched_raiseAll (s : State) (ds : List Diag) : Untouched s (ds.foldl State.raise s) := by
  induction ds generalizing s with
  | nil => exact .refl s
  | cons d ds ih => exact (untouched_emit s _).trans (ih _)

theorem untouched_setFlag (s : State) (r) (v) : Untouched s (s.setFlag r v) := by
  unfold State.setFlag; split
  · split
    · exact ⟨rfl, rfl, rfl, rfl, rfl, rfl, rfl, rfl⟩
    · exact .refl s
  · exact .refl s

theorem untouched_nextFrame (s : State) : Untouched s s.nextFrame.2 := by
  unfold State.nextFrame; split <;> exact ⟨rfl, rfl, rfl, rfl, rfl, rfl, rfl, rfl⟩

theorem untouched_takeLive (s : State) : Untouched s s.takeLive.2 := by
  unfold State.takeLive; split <;> exact ⟨rfl, rfl, rfl, rfl, rfl, rfl, rfl, rfl⟩

theorem untouched_selectFrame (s : State) : Untouched s s.selectFrame.2 := by
  unfold State.selectFrame; split
  · exact untouched_takeLive s
  · split
    · exact .refl s
    · exact untouched_nextFrame s

theorem untouched_doCapture (s : State) : Untouched s s.doCapture :=
  ((untouched_selectFrame s).trans (t := s.selectFrame.2) (u := s.selectFrame.2.loadBuffer s.selectFrame.1) ⟨rfl, rfl, rfl, rfl, rfl, rfl, rfl, rfl⟩).trans (untouched_setFlag _ _ _)

theorem untouched_captureObserver (s : State) (o n : Byte) : Untouched s (s.captureObserver o n) := by
  unfold State.captureObserver; split
  · exact untouched_doCapture s
  · split
    · exact .refl s
    · exact untouched_doCapture s

theorem untouched_push (s : State) : Untouched s s.push :=
  (((untouched_selectFrame s).trans (untouched_emit _ _)).trans (untouched_setFlag _ _ _)).trans (untouched_emit _ _)

theorem untouched_dmaObserver (s : State) (o n : Byte) : Untouched s (s.dmaObserver o n) := by
  unfold State.dmaObserver; split
  · split
    · exact untouched_emit s _
    · split
      · exact untouched_push s
      · exact untouched_emit s _
  · exact .refl s

theorem untouched_burst (s : State) : Untouched s s.burst.2 := by
  unfold State.burst; split <;> exact ⟨rfl, rfl, rfl, rfl, rfl, rfl, rfl, rfl⟩

theorem untouched_callProvider (s : State) (p : Provider) : Untouched s (s.callProvider p).2 := by
  cases p with
  | burst => exact untouched_burst s
  | length k => exact .refl s
  | device id => exact Untouched.trans (t := s.adoptProvider _) ⟨rfl, rfl, rfl, rfl, rfl, rfl, rfl, rfl⟩ (untouched_emitAll _ _)

theorem untouched_readField (s : State) (a : Nat) (f : FieldDecl) : Untouched s (s.readField a f).2 := by
  unfold State.readField; split
  · exact .refl s
  · exact .refl s
  all_goals
    split
    · exact untouched_callProvider s _
    · exact .refl s

theorem untouched_readFields (s : State) (a : Nat) (fs) : Untouched s (s.readFields a fs).2 := by
  induction fs generalizing s with
  | nil => exact .refl s
  | cons f fs ih => exact (untouched_readField s a f).trans (ih _)

theorem untouched_rfRead (s : State) (a : Nat) : Untouched s (s.rfRead a).2 := by
  unfold State.rfRead; split
  · exact untouched_emit s _
  · exact untouched_readFields s a _

theorem hostMem_emitDiags (s : State) (ds : List Diag) : (s.emitAll (ds.map Event.diag)).hostMem = s.hostMem := by
  induction ds generalizing s with
  | nil => rfl
  | cons e es ih => exact ih _

theorem hostMem_readField (s : State) (a : Nat) (f : FieldDecl) : (s.readField a f).2.hostMem = s.hostMem := by
  have hp : ∀ p, (s.callProvider p).2.hostMem = s.hostMem := by
    intro p
    cases p with
    | burst => show s.burst.2.hostMem = _; unfold State.burst; split <;> rfl
    | length k => rfl
    | device id => exact hostMem_emitDiags _ _
  unfold State.readField; split
  · rfl
  · rfl
  all_goals
    split
    · exact hp _
    · rfl

theorem hostMem_readFields (s : State) (a : Nat) (fs) : (s.readFields a fs).2.hostMem = s.hostMem := by
  induction fs generalizing s with
  | nil => rfl
  | cons f fs ih => exact (ih _).trans (hostMem_readField s a f)

theorem untouched_runObservers (s : State) (a : Nat) (o b : Byte) (fs) (h : ∀ f ∈ fs, ∀ id, Cfg.observerOf s.cfg a f ≠ some (.device id)) : Untouched s (s.runObservers a o b fs) := by
  induction fs generalizing s with
  | nil => exact .refl s
  | cons f fs ih =>
    show Untouched s (State.runObservers (if Access.stores f.acc then
        match Cfg.observerOf s.cfg a f with
        | some ob => s.callObserver (fieldOf f o) (fieldOf f b) ob
        | none => s
      else s) a o b fs)
    refine Untouched.trans ?_ (ih _ ?_)
    · split
      · split
        · rename_i ob hob
          cases ob with
          | capture => exact untouched_captureObserver s (fieldOf f o) (fieldOf f b)
          | dmaEnable => exact untouched_dmaObserver s (fieldOf f o) (fieldOf f b)
          | device id => exact absurd hob (h f List.mem_cons_self id)
        · exact .refl s
      · exact .refl s
    · intro g hg id
      have : ∀ t : State, Keeps s t → Cfg.observerOf t.cfg a g ≠ some (.device id) := by
        intro t k; rw [k.cfg]; exact h g (List.mem_cons_of_mem _ hg) id
      apply this
      split
      · split
        · exact keeps_callObserver _ _ _ _
        · exact .refl s
      · exact .refl s

theorem untouched_rfWrite (s : State) (a : Nat) (b : Byte) (hc : Cfg.coreObserversOnly s.cfg = true) : Untouched s (s.rfWrite a b) := by
  unfold State.rfWrite; split
  · exact untouched_emit s _
  · rename_i r hr
    have h0 := untouched_raiseAll s (r.fields.filterMap (fieldDiag a (s.storeAt a) b))
    have h1 := keeps_raiseAll s (r.fields.filterMap (fieldDiag a (s.storeAt a) b))
    refine ((h0).trans (u := State.setStore _ _ _) ⟨rfl, rfl, rfl, rfl, rfl, rfl, rfl, rfl⟩).trans (untouched_runObservers _ _ _ _ _ ?_)
    intro f hf id
    show Cfg.observerOf (State.cfg _) a f ≠ _
    rw [State.setStore_cfg, h1.cfg]
    exact observerOf_of_coreObserversOnly hc hr hf

theorem resp_callObserver (s : State) (o n : Byte) (ob : Observer) : (s.callObserver o n ob).resp = s.resp := by
  cases ob with
  | capture => exact (untouched_captureObserver s o n).resp
  | dmaEnable => exact (untouched_dmaObserver s o n).resp
  | device id => exact (untouched_emitAll _ _).resp

theorem resp_runObservers (s : State) (a : Nat) (o b : Byte) (fs) : (s.runObservers a o b fs).resp = s.resp := by
  induction fs generalizing s with
  | nil => rfl
  | cons f fs ih =>
    refine (ih _).trans ?_
    split
    · split
      · exact resp_callObserver s _ _ _
      · rfl
    · rfl

theorem resp_rfWrite (s : State) (a : Nat) (b : Byte) : (s.rfWrite a b).resp = s.resp := by
  unfold State.rfWrite; split
  · rfl
  · exact (resp_runObservers _ _ _ _ _).trans (untouched_raiseAll _ _).resp

theorem resp_i2cWriteAll (s : State) (bs : List Byte) : (s.i2cWriteAll bs).resp = s.resp := by
  induction bs generalizing s with
  | nil => rfl
  | cons b bs ih => exact (ih _).trans (resp_rfWrite _ _ _)

theorem resp_dispatchWrite (s : State) (c p) : (s.dispatchWrite c p).resp = s.resp := by
  unfold State.dispatchWrite; split
  · rfl
  · dsimp only; split
    · rename_i h _
      cases h with
      | storePayload => rfl
      | device id => exact (untouched_emitAll _ _).resp
    · split <;> rfl

end Sys2Proof.Machine
end

