-- ==== Sys2Proof/Laws/Transfers.lean ====
section
/-! SUPPORT. The transfers byte by byte: the last byte of a write or a read, the pointers, and runs of operations. -/
namespace Sys2Proof.Machine

theorem ctx_passes {s : State} (h : s.cfg.gating = .ignore ∨ s.spi.cs = true) : s.ctx.passes = true := by
  simp only [Ctx.passes, State.ctx]; rcases h with h | h
  · rw [h]
  · split
    · rfl
    · exact h

theorem exec_eq_next {s : State} {i : Instr} (hr : ∀ code wr rd, i ≠ .registerCmd code wr rd) (hp : s.phase ≠ .absent) (hs : i.selected s.ctx = true) :
    exec i s = .next (effect i s.begin) := by rw [exec_eq_perform i s hr]; exact perform_eq_next hp hs

theorem incAddr_spi (w a) : incAddr w spiAddrBits a = match w with | .modulo => (a + 1) % 128 | .unbounded => a + 1 := by cases w <;> rfl

theorem incAddr_i2c (w a) : incAddr w i2cAddrBits a = match w with | .modulo => (a + 1) % 256 | .unbounded => a + 1 := by cases w <;> rfl

theorem advanceSpi_eq {u : State} {w sp} (h2 : u.spi = sp) (h3 : u.cfg.wrap = w) : u.advanceSpi = { u with spi := { sp with addr := match (generalizing := false) w with | .modulo => (sp.addr + 1) % 128 | .unbounded => sp.addr + 1 } } := by
  subst h2 h3; unfold State.advanceSpi; rw [incAddr_spi]

theorem advanceI2c_eq {u : State} {w sp} (h2 : u.i2c = sp) (h3 : u.cfg.wrap = w) : u.advanceI2c = { u with i2c := { sp with addr := match (generalizing := false) w with | .modulo => (sp.addr + 1) % 256 | .unbounded => sp.addr + 1 } } := by
  subst h2 h3; unfold State.advanceI2c; rw [incAddr_i2c]

theorem runAll_cons {i is s t} (h : exec i s = .next t) : runAll (i :: is) s = (runAll is t).map fun out => (t.resp :: out.1, out.2) := by
  simp [runAll, h]

theorem runAll_append (is js : List Instr) (s t : State) (o) (h : runAll is s = some (o, t)) : runAll (is ++ js) s = (runAll js t).map fun out => (o ++ out.1, out.2) := by
  induction is generalizing s o with
  | nil => simp [runAll] at h; obtain ⟨rfl, rfl⟩ := h; simp
  | cons i is ih =>
    simp only [List.cons_append]
    cases he : exec i s with
    | next u =>
      rw [runAll_cons he] at h ⊢
      cases hr : runAll is u with
      | none => simp [hr] at h
      | some out =>
        simp [hr] at h
        obtain ⟨rfl, rfl⟩ := h
        rw [ih u out.1 hr]; simp [Option.map_map]; congr
    | fault f => cases f
    | refused r => simp [runAll, he] at h

theorem i2cWriteAll_snoc (s : State) (data : List Byte) (b : Byte) : s.i2cWriteAll (data ++ [b]) = ((s.i2cWriteAll data).rfWrite (s.i2cWriteAll data).i2c.addr b).advanceI2c := by
  induction data generalizing s with
  | nil => rfl
  | cons x xs ih => exact ih _

theorem i2cReadAll_succ (s : State) (n : Nat) : s.i2cReadAll (n+1) =
   ((s.i2cReadAll n).1 ++ [((s.i2cReadAll n).2.rfRead (s.i2cReadAll n).2.i2c.addr).1], ((s.i2cReadAll n).2.rfRead (s.i2cReadAll n).2.i2c.addr).2.advanceI2c) := by
  induction n generalizing s with
  | zero => rfl
  | succ n ih =>
    have : s.i2cReadAll (n + 1 + 1) = ((s.rfRead s.i2c.addr).1 :: ((s.rfRead s.i2c.addr).2.advanceI2c.i2cReadAll (n+1)).1, ((s.rfRead s.i2c.addr).2.advanceI2c.i2cReadAll (n+1)).2) := rfl
    rw [this, ih]; rfl

theorem burst_respond (s : State) (r) : (s.respond r).burst = (s.burst.1, s.burst.2.respond r) := by
  unfold State.burst; show (match s.buf[s.cur]? with | some v => _ | none => _) = _; split <;> rename_i h <;> simp [h] <;> rfl

theorem emitAll_respond (s : State) (es) (r) : (s.respond r).emitAll es = (s.emitAll es).respond r := by
  induction es generalizing s with
  | nil => rfl
  | cons e es ih => exact ih (s.emit e)

theorem callProvider_respond (s : State) (p) (r) : (s.respond r).callProvider p = ((s.callProvider p).1, (s.callProvider p).2.respond r) := by
  cases p with
  | burst => exact burst_respond s r
  | length k => rfl
  | device id =>
    refine Prod.ext rfl ?_
    exact emitAll_respond (s.adoptProvider (Config.deviceProvider id s.toDevice).2.1) ((Config.deviceProvider id s.toDevice).2.2.map Event.diag) r

theorem readField_respond (s : State) (a f) (r) : (s.respond r).readField a f = ((s.readField a f).1, (s.readField a f).2.respond r) := by
  unfold State.readField; cases f.acc <;> simp only
  all_goals
    cases f.prov with
    | none => rfl
    | some p => simp only [callProvider_respond]

theorem readFields_respond (s : State) (a fs) (r) : (s.respond r).readFields a fs = ((s.readFields a fs).1, (s.readFields a fs).2.respond r) := by
  induction fs generalizing s with
  | nil => rfl
  | cons f fs ih => simp only [State.readFields, readField_respond, ih]

theorem rfRead_respond (s : State) (a) (r) : (s.respond r).rfRead a = ((s.rfRead a).1, (s.rfRead a).2.respond r) := by
  unfold State.rfRead
  show (match Cfg.regAt s.cfg a with | none => _ | some _ => _) = _
  split <;> rename_i h <;> simp only [h]
  · rfl
  · simp only [readFields_respond]

theorem length_i2cReadAll (s : State) (n) : (s.i2cReadAll n).1.length = n := by
  induction n generalizing s with
  | zero => rfl
  | succ n ih => show (_ :: (State.i2cReadAll _ n).1).length = n + 1; rw [List.length_cons, ih]

theorem st_i2cReadAll (s : State) (n) : (s.i2cReadAll n).2.i2c.st = s.i2c.st := by
  induction n generalizing s with
  | zero => rfl
  | succ n ih => exact (ih (s.rfRead s.i2c.addr).2.advanceI2c).trans (show (s.rfRead s.i2c.addr).2.i2c.st = s.i2c.st from congrArg I2c.st (untouched_rfRead s s.i2c.addr).i2c)

theorem emitAll_diags (s : State) (ds : List Diag) : s.emitAll (ds.map Event.diag) = { s with events := s.events ++ ds.map Event.diag } := by
  induction ds generalizing s with
  | nil => simp [State.emitAll]
  | cons d ds ih => show (s.raise d).emitAll _ = _; rw [ih]; simp [State.raise, State.emit]

theorem exec_of_absent {t : State} (h : t.phase = .absent) (i : Instr) : exec i t = .refused .noInstance := by
  by_cases hr : ∃ code wr rd, i = .registerCmd code wr rd
  · obtain ⟨code, wr, rd, rfl⟩ := hr; simp [exec_registerCmd, execRegisterCmd, h]
  · rw [exec_eq_perform i _ (fun a b c h => hr ⟨a, b, c, h⟩)]; simp [State.perform, h]

theorem isSome_measAt {s : State} (hi : s.Inv) {c m} (h : channelAt s.cfg.meas c = some m) : (measAt s.meas c).isSome = true := by rw [hi.measDom, h]; rfl

end Sys2Proof.Machine
end

