-- ==== Sys2Proof/Laws/Stream.lean ====
section
/-! SUPPORT. The CRC register, the interleaved stream, and the frame a capture or a push takes. -/
namespace Sys2Proof.Machine

theorem crcBit_lt {p : CrcParams} (hp : p.poly < 2 ^ p.width) (r : Nat) : crcBit p r < 2 ^ p.width := by
  unfold crcBit
  have := Nat.mod_lt (r <<< 1) (Nat.two_pow_pos p.width)
  split
  · exact Nat.xor_lt_two_pow this hp
  · exact this

theorem crcByte_lt {p : CrcParams} (hp : p.poly < 2 ^ p.width) (r b) : crcByte p r b < 2 ^ p.width := by
  have : ∀ k r, crcSteps p (k+1) r < 2 ^ p.width := by
    intro k; induction k with
    | zero => intro r; exact crcBit_lt hp r
    | succ k ih => intro r; exact ih _
  exact this 7 _

theorem crcBit_xor (p : CrcParams) (x y : Nat) : crcBit p (x ^^^ y) = crcBit p x ^^^ crcBit p y := by
  unfold crcBit
  rw [Nat.testBit_xor, Nat.shiftLeft_xor_distrib, Nat.xor_mod_two_pow]
  cases x.testBit (p.width - 1) <;> cases y.testBit (p.width - 1) <;> simp only [Bool.xor_false, Bool.false_xor, Bool.xor_self, Bool.false_eq_true, if_true, if_false]
  all_goals apply Nat.eq_of_testBit_eq; intro i; simp only [Nat.testBit_xor]
  · cases ((x <<< 1) % 2 ^ p.width).testBit i <;> cases ((y <<< 1) % 2 ^ p.width).testBit i <;> cases p.poly.testBit i <;> rfl
  · cases ((x <<< 1) % 2 ^ p.width).testBit i <;> cases ((y <<< 1) % 2 ^ p.width).testBit i <;> cases p.poly.testBit i <;> rfl
  · cases ((x <<< 1) % 2 ^ p.width).testBit i <;> cases ((y <<< 1) % 2 ^ p.width).testBit i <;> cases p.poly.testBit i <;> rfl

theorem crcSteps_xor (p k) (x y : Nat) : crcSteps p k (x ^^^ y) = crcSteps p k x ^^^ crcSteps p k y := by
  induction k generalizing x y with
  | zero => rfl
  | succ k ih => unfold crcSteps; rw [crcBit_xor, ih]

theorem take_interleave (p) : ∀ (raw : List Byte) (n k : Nat), rawNeeded n ≤ k → (interleave p (raw.take k)).take n = (interleave p raw).take n := by
  intro raw
  fun_induction interleave p raw with
  | case1 x y raw ih =>
    intro n k h
    match n with
    | 0 => simp
    | 1 =>
      simp [rawNeeded] at h
      obtain ⟨k, rfl⟩ : ∃ j, k = j + 1 := ⟨k - 1, by omega⟩
      cases k with
      | zero => simp [interleave]
      | succ k => simp [interleave]
    | 2 =>
      simp [rawNeeded] at h
      obtain ⟨k, rfl⟩ : ∃ j, k = j + 2 := ⟨k - 2, by omega⟩
      simp [interleave]
    | n + 3 =>
      have hk : rawNeeded n + 2 ≤ k := by
        unfold rawNeeded at h ⊢
        have e1 : (n + 3) / 3 = n / 3 + 1 := by omega
        have e2 : (n + 3) % 3 = n % 3 := by omega
        rw [e1, e2] at h; omega
      obtain ⟨k, rfl⟩ : ∃ j, k = j + 2 := ⟨k - 2, by omega⟩
      simp [interleave, ih n k (by omega)]
  | case2 x =>
    intro n k h
    cases k with
    | zero =>
      have : n = 0 := by unfold rawNeeded at h; omega
      subst this; simp
    | succ k => simp [interleave]
  | case3 => intros; simp [interleave]

theorem cycleTake_take (b : Byte) (raw : List Byte) (j k : Nat) (h : j ≤ k) :
    (cycleTake b raw k).take j = cycleTake b raw j := by
  simp [cycleTake, ← List.map_take, List.take_range, Nat.min_eq_left h]

theorem lazyTake_take (f : Nat → Option Byte) (i j k : Nat) (h : j ≤ k) : (lazyTake f i k).take j = lazyTake f i j := by
  induction j generalizing i k with
  | zero => cases k <;> simp [lazyTake]
  | succ j ih =>
    obtain ⟨k, rfl⟩ : ∃ m, k = m + 1 := ⟨k - 1, by omega⟩
    simp only [lazyTake]
    cases f i with
    | none => simp
    | some b => simp [ih (i+1) k (by omega)]

theorem rawTake_take (s : State) (rd) (j k : Nat) (h : j ≤ k) : (s.rawTake k rd).take j = s.rawTake j rd := by
  cases rd with
  | fixed raw => simp [State.rawTake, List.take_take, Nat.min_eq_left h]
  | cycle b raw => exact cycleTake_take b raw j k h
  | devBytes => simp [State.rawTake, List.take_take, Nat.min_eq_left h]
  | device id => exact lazyTake_take _ _ j k h

theorem selectFrame_eq (s : State) : s.selectFrame =
   (if s.live then s.liveIn.head?.getD (Config.liveFrame s.draws) else (s.frames[s.fidx]?).getD [],
    { s with
        fidx := if s.live then s.fidx else if s.frames = [] then s.fidx else (s.fidx + 1) % s.frames.length
        liveIn := if s.live then s.liveIn.tail else s.liveIn
        draws := if s.live ∧ s.liveIn = [] then s.draws + 1 else s.draws }) := by
  rcases s with ⟨⟨store, spi, i2c, cmd, fifo, last, frames, fidx, buf, cur, live, meas, dev⟩, cfg, phase, inbox, resp, events, hostMem, liveIn, draws⟩
  cases live <;> cases frames <;> cases liveIn <;> simp [State.selectFrame, State.nextFrame, State.takeLive]

theorem setFlag_eq (s : State) (r v) : s.setFlag r v = { s with store := match r with
          | none => s.store
          | some r =>
            match Cfg.fieldAt s.cfg r with
            | none => s.store
            | some f => cellSet s.store r.addr (setBits (s.storeAt r.addr) f.off f.w v) } := by
  unfold State.setFlag
  cases r with
  | none => rfl
  | some r => simp only; cases Cfg.fieldAt s.cfg r <;> rfl

theorem doCapture_eq (s : State) : s.doCapture = { s with
        buf := if s.live then s.liveIn.head?.getD (Config.liveFrame s.draws) else (s.frames[s.fidx]?).getD []
        cur := 0
        fidx := if s.live then s.fidx else if s.frames = [] then s.fidx else (s.fidx + 1) % s.frames.length
        liveIn := if s.live then s.liveIn.tail else s.liveIn
        draws := if s.live ∧ s.liveIn = [] then s.draws + 1 else s.draws
        store := match s.cfg.readyField with
          | none => s.store
          | some r =>
            match Cfg.fieldAt s.cfg r with
            | none => s.store
            | some f => cellSet s.store r.addr (setBits (s.storeAt r.addr) f.off f.w 1) } := by
  show (s.selectFrame.2.loadBuffer s.selectFrame.1).setFlag s.selectFrame.2.cfg.readyField 1 = _
  rw [setFlag_eq, selectFrame_eq]
  rfl

theorem runObservers_append (s : State) (a o b fs gs) : s.runObservers a o b (fs ++ gs) = (s.runObservers a o b fs).runObservers a o b gs := by
  induction fs generalizing s with
  | nil => rfl
  | cons f fs ih => exact ih _

theorem runObservers_cons (s : State) (a o b f fs) : s.runObservers a o b (f :: fs) = (if Access.stores f.acc then match Cfg.observerOf s.cfg a f with | some ob => s.callObserver (fieldOf f o) (fieldOf f b) ob | none => s else s).runObservers a o b fs := rfl

/-- Everything a push does (R301). -/
theorem push_eq (s : State) : s.push = { s with
        fidx := if s.live then s.fidx else if s.frames = [] then s.fidx else (s.fidx + 1) % s.frames.length
        liveIn := if s.live then s.liveIn.tail else s.liveIn
        draws := if s.live ∧ s.liveIn = [] then s.draws + 1 else s.draws
        store := match s.cfg.streamEnField with
          | none => s.store
          | some r =>
            match Cfg.fieldAt s.cfg r with
            | none => s.store
            | some f => cellSet s.store r.addr (setBits (s.storeAt r.addr) f.off f.w 0)
        hostMem := cellPutAll s.hostMem s.dmaAddress (if s.live then s.liveIn.head?.getD (Config.liveFrame s.draws) else (s.frames[s.fidx]?).getD [])
        events := s.events ++ [.hostWrite s.dmaAddress (if s.live then s.liveIn.head?.getD (Config.liveFrame s.draws) else (s.frames[s.fidx]?).getD []), .irqPulse] } := by
  have hpush : s.push = ((s.selectFrame.2.emit (.hostWrite s.selectFrame.2.dmaAddress s.selectFrame.1)).setFlag s.selectFrame.2.cfg.streamEnField 0).emit .irqPulse := rfl
  rw [hpush, setFlag_eq, selectFrame_eq]
  simp only [State.emit, List.append_assoc]
  rfl

/-- Emitting events in order appends them, and host memory takes their writes. -/
theorem emitAll_eq_events (s : State) (es : List Event) : s.emitAll es = { s with events := s.events ++ es, hostMem := es.foldl Event.apply s.hostMem } := by
  induction es generalizing s with
  | nil => simp [State.emitAll]
  | cons e es ih => show (s.emit e).emitAll es = _; rw [ih]; cases e <;> simp [State.emit, Event.apply]

/-- What DMA_ENABLE does on a rising edge (R299). -/
theorem dmaObserver_rising (u : State) : u.dmaObserver 0 1 = if u.flag u.cfg.streamEnField = 0 then u.raise .dmaStreamNotEnabled else if u.attached then u.push else u.raise .dmaNoSource := by
  unfold State.dmaObserver; rw [if_pos (⟨rfl, rfl⟩ : (0 : Byte) = 0 ∧ (1 : Byte) = 1)]

/-- DMA_ENABLE observes a field only where the DMA variant is present (R299). -/
theorem dma_of_observerOf {c : Cfg} {a f} (h : Cfg.observerOf c a f = some .dmaEnable) : c.dma = true := by
  unfold Cfg.observerOf at h
  split at h
  · cases h
  · split at h
    · rename_i h2; exact h2.1
    · split at h
      · split at h
        · assumption
        · cases h
      all_goals cases h

end Sys2Proof.Machine
end

