-- ==== Sys2Proof/Machine/Script.lean ====
section
/-! DEFINITION. The pseudo-operations of R125: each expands to a fixed sequence of calls. -/
namespace Sys2Proof.Machine

/-- `SPIRD a, n`: read `n` registers from `a`. The data byte sent is arbitrary (R111, R125). -/
def spird (a : BitVec 7) (n : Nat) : List Call :=
  [.spiCs .asserted, .spiExchange (BitVec.ofBool true ++ a)] ++ List.replicate n (.spiExchange 0) ++ [.spiCs .deasserted]

/-- `SPIWR a, [d0..dk]`. -/
def spiwr (a : BitVec 7) (data : List Byte) : List Call :=
  [.spiCs .asserted, .spiExchange (BitVec.ofBool false ++ a)] ++ data.map Call.spiExchange ++ [.spiCs .deasserted]

/-- `I2CRD a, n`. -/
def i2crd (a : Byte) (n : Nat) : List Call := [.i2cWrite [a], .i2cRead n, .i2cStop]

/-- `I2CWR a, [d0..dk]`. -/
def i2cwr (a : Byte) (data : List Byte) : List Call := [.i2cWrite (a :: data), .i2cStop]

/-- `CMDRD c, n`. -/
def cmdrd (c : Code) (n : Nat) : List Call :=
  [.i2cWrite [c.extractLsb' 8 8, c.extractLsb' 0 8], .i2cRead n, .i2cStop]

/-- `CMDWR c, [p..]`. -/
def cmdwr (c : Code) (payload : List Byte) : List Call :=
  [.i2cWrite (c.extractLsb' 8 8 :: c.extractLsb' 0 8 :: payload), .i2cStop]

end Sys2Proof.Machine
end

