-- ==== Sys2Proof/Tests/Slice0.lean ====
section
/-! SUPPORT. Tests: ill-formed terms, words written out from the spec's encodings, and one operation at a time on the configurations of spec/95_test_vectors.md section 0 (which are test choices, not this hardware's values). Expected results are those of the vectors named beside them. -/
namespace Sys2Proof.Tests

open Machine

/-! The configurations of section 0. -/

def fld (off w : Nat) (acc : Access) : FieldDecl := { off := off, w := w, acc := acc }

/-- Register map EX (section 0.1). -/
def exMap : List RegDecl :=
  [ { addr := 0, reset := 0x5A, fields := [fld 0 8 .read] },
    { addr := 1, reset := 0x00, fields :=
        [{ fld 0 1 .write with obs := some .capture }, fld 1 1 .readWrite, fld 2 6 .reservedConstant] },
    { addr := 2, reset := 0x00, fields := [fld 0 8 .readWrite] },
    { addr := 3, reset := 0x00, fields := [{ fld 0 8 .read with prov := some .burst }] },
    { addr := 4, reset := 0x00, fields := [{ fld 0 8 .read with prov := some (.length 0) }] },
    { addr := 5, reset := 0x00, fields := [{ fld 0 8 .read with prov := some (.length 1) }] },
    { addr := 6, reset := 0x00, fields := [fld 0 1 .readWrite, { fld 1 1 .readWrite with obs := some .dmaEnable }] },
    { addr := 7, reset := 0x20, fields := [fld 0 8 .readWrite] } ]

/-- CRC set S (section 0.2). -/
def crcS : CrcParams := { width := 8, poly := 0x31, refIn := false, refOut := false, init := 0xFF, xorOut := 0 }

/-- Command table CT (section 0.3). -/
def cmdCT : List CmdEntry :=
  [ { code := 0xE000, wr := none, rd := some (.fixed [0xBE, 0xEF, 0x66, 0x66]) },
    { code := 0x3615, wr := none, rd := some (.fixed [0x12, 0x34, 0x01]) },
    { code := 0x0001, wr := some .storePayload, rd := some .devBytes },
    { code := 0x00FF, wr := none, rd := none },
    { code := 0x0002, wr := none, rd := some (.cycle 0x00 [0x01]) } ]

/-- EX with CT and S, in a mode. -/
def exCfg (mode : Mode) : Cfg where
  mode := mode
  regmap := exMap
  regDefault := 0
  wrap := .modulo
  crc := crcS
  cmds := cmdCT
  noAddr := .zeroFilled
  gating := .ignore
  triggerField := some { addr := 1, off := 0 }
  triggerCond := .writeNonzero
  readyField := some { addr := 1, off := 1 }
  dma := true
  streamEnField := some { addr := 6, off := 0 }
  dmaEnField := some { addr := 6, off := 1 }
  dmaAddr := .linear [(7, 8)]
  hostAddrBits := 16
  meas := [ { id := 0, lo := -55, hi := 125, policy := .reject, init := 25 },
            { id := 1, lo := 0, hi := 100, policy := .clamp, init := 40 } ]
  devInit := []

/-- EX at power-on. -/
def ex (mode : Mode) : State :=
  { State.reset with toDevice := powerOn (exCfg mode), cfg := exCfg mode }

/-- The state after an operation that gives one. -/
def after (o : Host.Outcome State Fault Refusal) : Option State :=
  match o with
  | .next s => some s
  | .fault _ => none
  | .refused _ => none

/-- Whether an operation is refused for the reason given. -/
def refusedBy (o : Host.Outcome State Fault Refusal) : Option Refusal :=
  match o with
  | .next _ => none
  | .fault _ => none
  | .refused r => some r

/-- Register `a` of a state. -/
def reg (a : Nat) (s : State) : Option Byte := cellAt s.store a

/-! Ill-formed terms. -/

theorem test_short_frame_of_two_bytes_is_ill_formed : (Instr.cmdWrite (.short [1, 2])).wellFormed = false := by decide
/-! Decoding, words written out from R110 to R115. -/

theorem test_decode_header_read : decodeTableWord 8 0b10000101 = some (.spiHdrRead 5) := by decide
theorem test_decode_header_write : decodeTableWord 8 0b00010010 = some (.spiHdrWrite 0x12) := by decide
theorem test_decode_code_big_endian : decodeTableWord 16 0x0024 = some (.cmdWrite (.command 0x2400 [])) := by decide

def ctx (mode : Mode) (st : SpiSt) : Ctx := { mode := mode, gating := .ignore, cs := true, spiSt := st, dma := true }

theorem test_decode_data_read : decode (ctx .spiReg .reading) (.spiExchange 0xFF) = .op (.spiDataRead 0xFF) := by decide
theorem test_decode_data_write : decode (ctx .spiReg .writing) (.spiExchange 0x5A) = .op (.spiDataWrite 0x5A) := by decide
theorem test_decode_gated :
    decode { ctx .spiReg .idle with gating := .drop, cs := false } (.spiExchange 0x80) = .op (.spiGated 0x80) := by decide
theorem test_decode_sample : decode (ctx .spiSample .idle) (.spiExchange 0x80) = .op (.spiSampleXchg 0x80) := by decide
theorem test_decode_i2c_write :
    decode (ctx .i2cReg .idle) (.i2cWrite [0x10, 0xAA, 0xBB]) = .op (.i2cWrite (.write 0x10 [0xAA, 0xBB])) := by decide
theorem test_decode_cmd_write :
    decode (ctx .i2cCmd .idle) (.i2cWrite [0x24, 0x00, 0x01]) = .op (.cmdWrite (.command 0x2400 [0x01])) := by decide
theorem test_decode_short :
    decode (ctx .i2cCmd .idle) (.i2cWrite [0x36]) = .op (.cmdWrite (.short [0x36])) := by decide
theorem test_decode_cs : decode (ctx .spiSample .idle) (.spiCs .asserted) = .op (.spiCs .asserted) := by decide
theorem test_decode_spi_finish : decode (ctx .spiReg .reading) .spiFinish = .op .spiFinish := by decide
theorem test_decode_i2c_read : decode (ctx .i2cReg .idle) (.i2cRead 3) = .op (.i2cRead 3) := by decide
theorem test_decode_cmd_read : decode (ctx .i2cCmd .idle) (.i2cRead 3) = .op (.cmdRead 3) := by decide
theorem test_decode_i2c_stop : decode (ctx .i2cReg .idle) .i2cStop = .op .i2cFinish := by decide
theorem test_decode_cmd_stop : decode (ctx .i2cCmd .idle) .i2cStop = .op .cmdFinish := by decide
theorem test_decode_host : decode (ctx .i2cCmd .idle) (.named (.feedSample 1)) = .op (.feedSample 1) := by decide
theorem test_decode_inner : decode (ctx .spiReg .idle) (.named (.rfRead 3)) = .op (.rfRead 3) := by decide
theorem test_decode_config :
    decode (ctx .spiReg .idle) (.named (.registerCmd 1 none none)) = .op (.registerCmd 1 none none) := by decide
theorem test_bus_operation_has_no_name :
    decode (ctx .spiReg .idle) (.named .spiFinish) = .rejected .notNamed := by decide
theorem test_i2c_on_spi_refused :
    refusedBy (step { ex .spiReg with inbox := [.i2cWrite [1]] }) = some (.undecoded .portNotExposed) := by decide
theorem test_step_runs_first_word : (after (step (State.reset.withFetchWord 8 0x85))).map (·.spi) =
    some { st := .reading, addr := 5, cs := false } := by decide
theorem test_step_runs_first_code : (after (step (State.reset.withFetchWord 16 0x0024))).map (·.events) =
    some [.diag (.cmdUnknownCode 0x2400)] := by decide

/-! SPI (section 4). -/

/-- SP1. -/
theorem test_spi_hdr_read : (after (exec (.spiHdrRead 5) (ex .spiReg))).map (fun s => (s.spi.st, s.spi.addr, s.resp)) =
    some (.reading, 5, .byte 0) := by decide
/-- SP2. -/
theorem test_spi_hdr_write : (after (exec (.spiHdrWrite 0x12) (ex .spiReg))).map (fun s => (s.spi.st, s.spi.addr)) =
    some (.writing, 0x12) := by decide

def spiAt (st : SpiSt) (a : Nat) (s : State) : State := { s with spi := { st := st, addr := a, cs := true } }

/-- SP4, second exchange: the pointer wraps from 0x7F. -/
theorem test_spi_data_read_wraps : (after (exec (.spiDataRead 0) (spiAt .reading 0x7F (ex .spiReg)))).map
    (fun s => (s.resp, s.spi.addr, s.events)) = some (.byte 0, 0, [.diag (.undefRegRead 0x7F)]) := by decide
/-- X1 step 3. -/
theorem test_spi_data_read_id : (after (exec (.spiDataRead 0) (spiAt .reading 0 (ex .spiReg)))).map
    (fun s => (s.resp, s.spi.addr)) = some (.byte 0x5A, 1) := by decide
/-- SP7, third exchange: 0x33 to CTRL stores, logs and captures the empty fallback. -/
theorem test_spi_data_write_ctrl : (after (exec (.spiDataWrite 0x33) (spiAt .writing 1 (ex .spiReg)))).map
    (fun s => (reg 1 s, s.spi.addr, s.events)) = some (some 0x03, 2, [.diag (.reservedMismatch 1 2)]) := by decide
/-- SP3, third exchange. -/
theorem test_spi_data_write_burst : (after (exec (.spiDataWrite 0xA5) (spiAt .writing 3 (ex .spiReg)))).map
    (fun s => (reg 3 s, s.spi.addr, s.events)) = some (some 0x00, 4, [.diag (.roFieldWrite 3 0)]) := by decide

def dropping (s : State) : State := { s with cfg := { s.cfg with gating := .drop } }

/-- SP8, first exchange. -/
theorem test_spi_gated : (after (step { dropping (ex .spiReg) with inbox := [.spiExchange 0x80] })).map
    (fun s => (s.spi, s.resp, s.events)) = some ((ex .spiReg).spi, .byte 0, [.diag .spiCsInactive]) := by decide
/-- SP9, last step: the pointer keeps its value. -/
theorem test_spi_cs_deassert : (after (exec (.spiCs .deasserted) (spiAt .reading 2 (ex .spiReg)))).map (·.spi) =
    some { st := .idle, addr := 2, cs := false } := by decide
theorem test_spi_cs_assert : (after (exec (.spiCs .asserted) (ex .spiReg))).map (·.spi) =
    some { st := .idle, addr := 0, cs := true } := by decide
/-- P1 step 15. -/
theorem test_spi_finish : (after (exec .spiFinish (spiAt .writing 1 (ex .spiReg)))).map (·.spi) =
    some { st := .idle, addr := 1, cs := true } := by decide
/-- SF2, first exchange. -/
theorem test_spi_sample : (after (exec (.spiSampleXchg 0xFF) { ex .spiSample with fifo := [0x10, 0x20] })).map
    (fun s => (s.fifo, s.last, s.resp)) = some ([0x20], 0x10, .byte 0x10) := by decide
/-- SF2, last exchange: an empty FIFO repeats the last sample. -/
theorem test_spi_sample_empty : (after (exec (.spiSampleXchg 0) { ex .spiSample with last := 0x20 })).map
    (fun s => (s.last, s.resp, s.events)) = some (0x20, .byte 0x20, []) := by decide

/-! I2C (section 5). -/

/-- IC1, the write. -/
theorem test_i2c_write : (after (exec (.i2cWrite (.write 2 [0xAA, 0xBB])) (ex .i2cReg))).map
    (fun s => (s.i2c, reg 2 s, s.events)) = some ({ st := .processing, addr := 4 }, some 0xAA, [.diag (.roFieldWrite 3 0)]) := by
  decide
/-- IC5, the write. -/
theorem test_i2c_write_empty : (after (exec (.i2cWrite .empty) (ex .i2cReg))).map (fun s => (s.i2c, s.events)) =
    some ({ st := .idle, addr := 0 }, [.diag .i2cEmptyWrite]) := by decide

def i2cAt (a : Nat) (s : State) : State := { s with i2c := { st := .processing, addr := a } }

/-- IC7: the pointer wraps from 0xFF. -/
theorem test_i2c_read_wraps : (after (exec (.i2cRead 2) (i2cAt 0xFF (ex .i2cReg)))).map
    (fun s => (s.resp, s.i2c.addr, s.events)) = some (.bytes [0, 0x5A], 1, [.diag (.undefRegRead 0xFF)]) := by decide
/-- IC3. -/
theorem test_i2c_read_idle : (after (exec (.i2cRead 2) (ex .i2cReg))).map (fun s => (s.resp, s.events)) =
    some (.bytes [0, 0], [.diag .i2cReadNoAddress]) := by decide
theorem test_i2c_finish : (after (exec .i2cFinish (i2cAt 5 (ex .i2cReg)))).map (·.i2c) =
    some { st := .idle, addr := 0 } := by decide
/-- CB3: BURST is read once, then the registers that follow. -/
theorem test_i2c_read_burst : (after (exec (.i2cRead 3) { i2cAt 3 (ex .i2cReg) with buf := [0x11, 0x22, 0x33] })).map
    (fun s => (s.resp, s.cur, s.i2c.addr)) = some (.bytes [0x11, 0x03, 0x00], 1, 6) := by decide

/-! Command engine (section 6). -/

/-- CM11, the write. -/
theorem test_cmd_write : (after (exec (.cmdWrite (.command 1 [0x12, 0x34])) (ex .i2cCmd))).map
    (fun s => (s.cmd.pending, s.dev, s.events)) = some (some 1, [0x12, 0x34], []) := by decide
/-- CM14, the second write: an unknown code clears the pending command. -/
theorem test_cmd_write_unknown : (after (exec (.cmdWrite (.command 0x1234 [])) { ex .i2cCmd with cmd := { pending := some 0xE000 } })).map
    (fun s => (s.cmd.pending, s.events)) = some (none, [.diag (.cmdUnknownCode 0x1234)]) := by decide

def pending (c : Code) : State := { ex .i2cCmd with cmd := { pending := some c } }

/-- CM8: never padded. -/
theorem test_cmd_read : (after (exec (.cmdRead 7) (pending 0xE000))).map (·.resp) =
    some (.bytes [0xBE, 0xEF, 0x92, 0x66, 0x66, 0x93]) := by decide
/-- CM19: an unbounded handler. -/
theorem test_cmd_read_unbounded : (after (exec (.cmdRead 8) (pending 2))).map (·.resp) =
    some (.bytes [0, 1, 0xB0, 0, 1, 0xB0, 0, 1]) := by decide
/-- CM9: an odd last byte has no checksum. -/
theorem test_cmd_read_odd : (after (exec (.cmdRead 6) (pending 0x3615))).map (·.resp) =
    some (.bytes [0x12, 0x34, 0x37, 0x01]) := by decide
/-- CM18, the stop. -/
theorem test_cmd_finish : (after (exec .cmdFinish (pending 0xE000))).map (·.cmd.pending) = some none := by decide

/-! Internal operations (sections 2, 3 and 7). -/

/-- RF6: TRIGGER is write-only and reads 0. -/
theorem test_rf_read : (after (exec (.rfRead 1) { ex .i2cReg with store := cellSet (ex .i2cReg).store 1 3 })).map (·.resp) =
    some (.byte 2) := by decide
/-- RF7. -/
theorem test_rf_read_undefined : (after (exec (.rfRead 0x10) (ex .i2cReg))).map (fun s => (s.resp, s.events)) =
    some (.byte 0, [.diag (.undefRegRead 0x10)]) := by decide
/-- RF10: bits no field covers are not stored. -/
theorem test_rf_write : (after (exec (.rfWrite 6 0xFD) (ex .i2cReg))).map (fun s => (reg 6 s, s.events)) =
    some (some 1, []) := by decide
/-- RF12: STREAM_EN is stored before the observer runs. -/
theorem test_rf_write_dma : (after (exec (.rfWrite 6 0xFF) (ex .i2cReg))).map (fun s => (reg 6 s, s.events)) =
    some (some 3, [.diag .dmaNoSource]) := by decide
/-- Section 2.2, set S. -/
theorem test_crc_calc : (after (exec (.crcCalc [0xBE, 0xEF]) (ex .i2cCmd))).map
    (·.resp) = some (.checksum 0x92) := by decide
/-- Section 2.2, CRC-8/MAXIM: both reflections. -/
theorem test_crc_maxim :
    crc { width := 8, poly := 0x31, refIn := true, refOut := true, init := 0, xorOut := 0 }
      [0x12, 0x34] = 0xA2 := by decide +kernel
/-- Section 2.2, CRC-16/ARC: a width above 8. -/
theorem test_crc_arc :
    crc { width := 16, poly := 0x8005, refIn := true, refOut := true, init := 0, xorOut := 0 }
      [0x01] = 0xC0C1 := by decide
/-- CB7: the live source wins over the frame store. -/
theorem test_capture_live : (after (exec (.capture 0 1) { ex .i2cReg with live := true, liveIn := [[0xCA, 0xFE]], frames := [[1]] })).map
    (fun s => (s.buf, s.fidx, reg 1 s)) = some ([0xCA, 0xFE], 0, some 2) := by decide
/-- CB9: writing 0 starts nothing. -/
theorem test_capture_zero : (after (exec (.capture 1 0) { ex .i2cReg with frames := [[1]] })).map (fun s => (s.buf, reg 1 s)) =
    some ([], some 0) := by decide
/-- CB4, the first read. -/
theorem test_burst_read : (after (exec .burstRead { ex .i2cReg with buf := [0x11, 0x22, 0x33], cur := 2 })).map
    (fun s => (s.resp, s.cur)) = some (.byte 0x33, 3) := by decide
/-- CB4, the later reads. -/
theorem test_burst_past_end : (after (exec .burstRead { ex .i2cReg with buf := [0x11], cur := 1 })).map
    (fun s => (s.resp, s.cur, s.events)) = some (.byte 0, 1, [.diag .burstPastEnd]) := by decide
/-- CB2. -/
theorem test_length_read : (after (exec (.lengthRead 0) { ex .i2cReg with buf := [0x11, 0x22, 0x33] })).map (·.resp) =
    some (.byte 3) := by decide

def streaming (s : State) : State := { s with store := cellSet s.store 6 1 }

/-- DM3: the frame, the cleared STREAM_EN and the pulse. -/
theorem test_dma_enable : (after (exec (.dmaEnable 0 1) { streaming (ex .i2cReg) with frames := [[1, 2, 3]] })).map
    (fun s => (s.events, reg 6 s)) = some ([.hostWrite 0x2000 [1, 2, 3], .irqPulse], some 0) := by decide
/-- X3. -/
theorem test_dma_not_enabled : (after (exec (.dmaEnable 0 1) { ex .i2cReg with frames := [[1]] })).map
    (fun s => (s.events, s.hostMem)) = some ([.diag .dmaStreamNotEnabled], []) := by decide

/-! Host operations and reset (sections 7.2 and 8). -/

theorem test_feed_sample : (after (exec (.feedSample 2) { ex .spiSample with fifo := [1] })).map (·.fifo) = some [1, 2] := by
  decide
/-- SF5. -/
theorem test_feed_samples : (after (exec (.feedSamples [1, 2, 3]) (ex .spiSample))).map (·.fifo) = some [1, 2, 3] := by decide
theorem test_add_frame : (after (exec (.addFrame [0xBB]) { ex .i2cReg with frames := [[0xAA]] })).map
    (fun s => (s.frames, s.fidx)) = some ([[0xAA], [0xBB]], 0) := by decide
/-- FS1, the second read: the index wraps. -/
theorem test_read_frame : (after (exec .readFrame { ex .i2cReg with frames := [[0xAA], [0xBB, 0xCC]], fidx := 1 })).map
    (fun s => (s.resp, s.fidx)) = some (.bytes [0xBB, 0xCC], 0) := by decide
/-- FS2. -/
theorem test_read_frame_empty : (after (exec .readFrame (ex .i2cReg))).map (fun s => (s.resp, s.events)) =
    some (.bytes [], [.diag .frameStoreEmpty]) := by decide
theorem test_drop_frames : (after (exec .dropFrames { ex .i2cReg with frames := [[1], [2]], fidx := 1, buf := [7] })).map
    (fun s => (s.frames, s.fidx, s.buf)) = some ([], 0, [7]) := by decide
/-- FS4. -/
theorem test_load_active : (after (exec (.loadActive [1, 2]) { ex .i2cReg with buf := [9], cur := 1 })).map
    (fun s => (s.buf, s.cur)) = some ([1, 2], 0) := by decide
theorem test_attach_live : (after (exec .attachLive (ex .i2cReg))).map (·.live) = some true := by decide
theorem test_detach_live : (after (exec .detachLive { ex .i2cReg with live := true })).map (·.live) = some false := by decide
/-- HO1: the bound itself is accepted. -/
theorem test_set_meas : (after (exec (.setMeas 0 125) (ex .i2cReg))).map (fun s => (s.meas, s.resp)) =
    some ([(0, 125), (1, 40)], .ok) := by decide
/-- X2. -/
theorem test_set_meas_reject : (after (exec (.setMeas 0 130) (ex .i2cReg))).map (fun s => (s.meas, s.resp)) =
    some ([(0, 25), (1, 40)], .error (.measOutOfRange 0 130)) := by decide
/-- HO4. -/
theorem test_set_meas_clamp : (after (exec (.setMeas 1 120) (ex .i2cReg))).map (fun s => (s.meas, s.resp, s.events)) =
    some ([(0, 25), (1, 100)], .ok, [.diag (.measClamped 1 120)]) := by decide
/-- HO11. -/
theorem test_load_path_fail : (after (exec (.loadPath .frame .fail) (ex .i2cReg))).map (fun s => (s.frames, s.resp)) =
    some ([], .error .loadFailed) := by decide
/-- HO12. -/
theorem test_load_path : (after (exec (.loadPath .frame (.bytes [1, 2])) (ex .i2cReg))).map (·.frames) = some [[1, 2]] := by
  decide
/-- X4: the second registration of a code. -/
theorem test_register_twice : (after (exec (.registerCmd 0xE000 none none) (ex .i2cCmd))).map (fun s => (s.phase, s.resp)) =
    some (.absent, .error (.duplicateCommand 0xE000)) := by decide
theorem test_register : (after (exec (.registerCmd 0x2400 none none) State.reset)).map (fun s => (s.cfg.cmds.length, s.resp)) =
    some (1, .ok) := by decide
/-- RS1. -/
theorem test_reset : (after (exec .reset { i2cAt 5 (ex .i2cReg) with store := cellSet (ex .i2cReg).store 2 0x77, frames := [[9]], buf := [1, 2], cur := 1 })).map
    (fun s => (reg 2 s, s.i2c, s.frames, s.buf, s.cur)) = some (some 0, { st := .idle, addr := 0 }, [[9]], [], 0) := by decide

/-! Configuration (section 8). -/

def built (c : Cfg) (cmds : List CmdEntry) : Option Response :=
  (after (step { State.reset with inbox := [.configure c cmds] })).map (·.resp)

theorem test_configure_ex : built (exCfg .i2cCmd) cmdCT = some .ok := by decide
/-- HO8. -/
theorem test_configure_overlap :
    built { exCfg .i2cReg with regmap := exMap ++ [{ addr := 9, reset := 0, fields := [fld 0 4 .read, fld 2 3 .read] }] } [] =
      some (.error .badRegmap) := by decide
/-- HO9. -/
theorem test_configure_crc_width :
    built { exCfg .i2cCmd with crc := { crcS with width := 16 } } [] = some (.error .badCrcParams) := by decide
/-- HO10. -/
theorem test_configure_crc_poly :
    built { exCfg .i2cReg with crc := { crcS with poly := 0x131 } } [] = some (.error .badCrcParams) := by decide
/-- HO7. -/
theorem test_configure_meas :
    built { exCfg .i2cReg with meas := [{ id := 0, lo := -55, hi := 125, policy := .reject, init := 200 }] } [] =
      some (.error (.measOutOfRange 0 200)) := by decide

/-! Witnesses: for each statement of Certificates/Slice0/Obligations.lean that has hypotheses, concrete values that meet all of them together, one witness per clause. -/

/-- EX at power-on meets the invariant. -/
theorem witness_inv (mode : Mode) : (ex mode).Inv := inv_powerOn State.reset (exCfg mode) rfl

def sent (calls : List Call) (s : State) : State := { s with inbox := calls }
def unbounded (s : State) : State := { s with cfg := { s.cfg with wrap := .unbounded } }
def running (s : State) : State := { s with phase := .running }

theorem witness_step_runs : (sent [.spiExchange 0x85] (ex .spiReg)).inbox = .spiExchange 0x85 :: [] ∧
    decode (sent [.spiExchange 0x85] (ex .spiReg)).ctx (.spiExchange 0x85) = .op (.spiHdrRead 5) := by decide
theorem witness_step_waits : (ex .spiReg).inbox = [] := by decide
theorem witness_step_rejects : (sent [.i2cRead 1] (ex .spiSample)).inbox = .i2cRead 1 :: [] ∧
    (∀ c cmds, Call.i2cRead 1 ≠ .configure c cmds) ∧
    decode (sent [.i2cRead 1] (ex .spiSample)).ctx (.i2cRead 1) = .rejected .portNotExposed :=
  ⟨rfl, fun _ _ h => (nomatch h), rfl⟩
theorem witness_transport_exchange : (ex .spiSample).phase ≠ .absent ∧
    (sent [.spiExchange 0] (ex .spiSample)).inbox = .spiExchange 0 :: [] ∧
    Call.onBus (sent [.spiExchange 0] (ex .spiSample)).cfg.mode (.spiExchange 0) = true := by decide
theorem witness_transport_read : (ex .i2cCmd).phase ≠ .absent ∧
    (sent [.i2cRead 0] (ex .i2cCmd)).inbox = .i2cRead 0 :: [] ∧
    Call.onBus (sent [.i2cRead 0] (ex .i2cCmd)).cfg.mode (.i2cRead 0) = true := by decide
theorem witness_every_step : ∃ t, (sent [.named (.addFrame [1])] (ex .i2cReg)).Inv ∧
    step (sent [.named (.addFrame [1])] (ex .i2cReg)) = .next t := ⟨_, inv_inbox _ (witness_inv .i2cReg), rfl⟩
theorem witness_configuration_exec : ∃ t, exec .attachLive (ex .i2cReg) = .next t ∧
    ∀ code wr rd, Instr.attachLive ≠ .registerCmd code wr rd := ⟨_, rfl, fun _ _ _ h => (nomatch h)⟩
theorem witness_configuration_step : ∃ t, step (sent [.named .attachLive] (running (ex .i2cReg))) = .next t ∧
    (sent [.named .attachLive] (running (ex .i2cReg))).phase = .running := ⟨_, rfl, rfl⟩
theorem witness_pulse : Cfg.coreObserversOnly (exCfg .i2cReg) = true ∧
    (after (exec (.dmaEnable 0 1) { streaming (ex .i2cReg) with frames := [[1]] })).map (pulsesPaired ·.events) = some true := by
  decide
theorem witness_host_write : ∃ t, exec (.dmaEnable 0 1) { streaming (ex .i2cReg) with frames := [[1]] } = .next t ∧
    t.events = [.hostWrite 0x2000 [1], .irqPulse] := ⟨_, rfl, by decide⟩
theorem witness_no_host_write : ∃ t, exec .attachLive (ex .i2cReg) = .next t ∧
    ∀ a bytes, Event.hostWrite a bytes ∉ t.events := ⟨_, rfl, fun _ _ h => (nomatch h)⟩
theorem witness_error : ∃ t, exec (.loadPath .frame .fail) (ex .i2cReg) = .next t ∧ t.resp.isError = true := ⟨_, rfl, rfl⟩
theorem witness_bus : Call.onBus (ctx .i2cReg .idle).mode .i2cStop = true ∧
    decode (ctx .i2cReg .idle) .i2cStop = .op .i2cFinish := by decide
theorem witness_bus_not_exposed : (sent [.spiFinish] (ex .i2cReg)).inbox = .spiFinish :: [] ∧
    Call.onBus (sent [.spiFinish] (ex .i2cReg)).cfg.mode .spiFinish = false ∧ (∀ i, Call.spiFinish ≠ .named i) ∧
    ∀ c cmds, Call.spiFinish ≠ .configure c cmds := ⟨rfl, rfl, fun _ h => (nomatch h), fun _ _ h => (nomatch h)⟩
theorem witness_misused_gated (mode : Mode) (h : mode = .spiReg ∨ mode = .spiSample) : (dropping (ex mode)).phase ≠ .absent ∧
    ((dropping (ex mode)).cfg.mode = .spiReg ∨ (dropping (ex mode)).cfg.mode = .spiSample) ∧
    (dropping (ex mode)).cfg.gating = .drop ∧ (dropping (ex mode)).spi.cs = false := ⟨nofun, h, rfl, rfl⟩
theorem witness_misused_i2c : (ex .i2cReg).phase ≠ .absent ∧ (ex .i2cReg).cfg.mode = .i2cReg ∧
    (ex .i2cCmd).phase ≠ .absent ∧ (ex .i2cCmd).cfg.mode = .i2cCmd := by decide
theorem witness_encode : (Instr.cmdWrite (.command 0xFFFF [0])).wellFormed = true ∧
    (Instr.cmdWrite (.command 0xFFFF [0])).selected (ctx .i2cCmd .idle) = true ∧
    (Instr.spiHdrRead 0x7F).wellFormed = true ∧ (Instr.spiHdrRead 0x7F).selected (ctx .spiReg .idle) = true := by decide
theorem witness_decode : decode (ctx .spiReg .idle) (.spiExchange 0x7F) = .op (.spiHdrWrite 0x7F) := by decide
theorem witness_code : (ctx .i2cCmd .idle).mode = .i2cCmd := by decide

theorem witness_spi_header : (ex .spiReg).phase ≠ .absent ∧ (ex .spiReg).cfg.mode = .spiReg ∧
    ((ex .spiReg).cfg.gating = .ignore ∨ (ex .spiReg).spi.cs = true) ∧ (ex .spiReg).spi.st = .idle ∧
    (sent [.spiExchange 0xFF] (ex .spiReg)).inbox = .spiExchange 0xFF :: [] := by decide
theorem witness_spi_header_drop : (dropping (spiAt .idle 0 (ex .spiReg))).phase ≠ .absent ∧
    (dropping (spiAt .idle 0 (ex .spiReg))).cfg.mode = .spiReg ∧
    (dropping (spiAt .idle 0 (ex .spiReg))).cfg.gating ≠ .ignore ∧ (dropping (spiAt .idle 0 (ex .spiReg))).spi.cs = true ∧
    (dropping (spiAt .idle 0 (ex .spiReg))).spi.st = .idle := by decide
theorem witness_spi_reading : (spiAt .reading 0x7F (ex .spiReg)).phase ≠ .absent ∧
    (spiAt .reading 0x7F (ex .spiReg)).cfg.mode = .spiReg ∧ (spiAt .reading 0x7F (ex .spiReg)).cfg.gating = .ignore ∧
    (spiAt .reading 0x7F (ex .spiReg)).spi.st = .reading ∧ (unbounded (ex .spiReg)).cfg.wrap = .unbounded := by decide
theorem witness_spi_writing : (spiAt .writing 0x7F (ex .spiReg)).phase ≠ .absent ∧
    (spiAt .writing 0x7F (ex .spiReg)).cfg.mode = .spiReg ∧ (spiAt .writing 0x7F (ex .spiReg)).cfg.gating = .ignore ∧
    (spiAt .writing 0x7F (ex .spiReg)).spi.st = .writing ∧
    Cfg.coreObserversOnly (spiAt .writing 0x7F (ex .spiReg)).cfg = true := by decide
theorem witness_samples : (ex .spiSample).phase ≠ .absent ∧ (ex .spiSample).cfg.mode = .spiSample ∧
    (ex .spiSample).cfg.gating = .ignore ∧ (ex .spiSample).fifo = [] ∧
    ({ ex .spiSample with fifo := [0x10, 0x20] } : State).fifo = 0x10 :: [0x20] ∧ [0xFF, 0x00].length = [0x10, 0x20].length := by
  decide

theorem witness_i2c_write : (ex .i2cReg).phase ≠ .absent ∧ (ex .i2cReg).cfg.mode = .i2cReg ∧
    Cfg.coreObserversOnly (ex .i2cReg).cfg = true := by decide
theorem witness_i2c_reading : (i2cAt 0xFF (ex .i2cReg)).phase ≠ .absent ∧ (i2cAt 0xFF (ex .i2cReg)).cfg.mode = .i2cReg ∧
    (i2cAt 0xFF (ex .i2cReg)).i2c.st = .processing := by decide
theorem witness_i2c_idle : (ex .i2cReg).phase ≠ .absent ∧ (ex .i2cReg).cfg.mode = .i2cReg ∧ (ex .i2cReg).i2c.st = .idle ∧
    (ex .i2cReg).cfg.noAddr = .zeroFilled ∧ ({ exCfg .i2cReg with noAddr := .empty } : Cfg).noAddr = .empty := by decide

theorem witness_cmd_read : (pending 2).phase ≠ .absent ∧ (pending 2).cfg.mode = .i2cCmd ∧ (pending 2).cmd.pending = some 2 ∧
    commandAt (pending 2).cfg.cmds 2 = some { code := 2, wr := none, rd := some (.cycle 0x00 [0x01]) } ∧
    2 * (8 / 3) + min (8 % 3) 2 ≤ 6 ∧ 6 ≤ 6 := by decide
theorem witness_cmd_no_handler : (pending 0xFF).phase ≠ .absent ∧ (pending 0xFF).cfg.mode = .i2cCmd ∧
    (pending 0xFF).cmd.pending = some 0xFF ∧
    commandAt (pending 0xFF).cfg.cmds 0xFF = some { code := 0xFF, wr := none, rd := none } ∧ (ex .i2cCmd).cmd.pending = none := by
  decide
theorem witness_cmd_write : (ex .i2cCmd).phase ≠ .absent ∧ (ex .i2cCmd).cfg.mode = .i2cCmd ∧
    commandAt (ex .i2cCmd).cfg.cmds 0x1234 = none ∧
    (commandAt (ex .i2cCmd).cfg.cmds 1).bind CmdEntry.wr = some .storePayload ∧
    (commandAt (ex .i2cCmd).cfg.cmds 0xE000).isSome = true ∧
    (commandAt (ex .i2cCmd).cfg.cmds 0xE000).bind CmdEntry.wr = none := by decide
theorem witness_interleave : ([1, 2, 3] : List Byte)[2 * 0]? = some 1 ∧ ([1, 2, 3] : List Byte)[2 * 0 + 1]? = some 2 ∧
    ([1, 2, 3] : List Byte).length % 2 = 1 := by decide

/-- The first address above the last register, the last and the first above the SPI space, and the first above the I2C space. -/
theorem witness_undefined : (ex .spiReg).phase ≠ .absent ∧ (ex .i2cReg).phase ≠ .absent ∧
    Cfg.regAt (exCfg .spiReg) 8 = none ∧ Cfg.regAt (exCfg .spiReg) 0x7F = none ∧
    Cfg.regAt (exCfg .spiReg) 0x80 = none ∧ Cfg.regAt (exCfg .i2cReg) 0x100 = none := by decide
def ctrl : RegDecl := { addr := 1, reset := 0x00, fields :=
  [{ fld 0 1 .write with obs := some .capture }, fld 1 1 .readWrite, fld 2 6 .reservedConstant] }
theorem witness_register_read : (ex .i2cReg).phase ≠ .absent ∧ Cfg.regAt (ex .i2cReg).cfg 1 = some ctrl ∧ regFits ctrl = true ∧
    ctrl.fields[2]? = some (fld 2 6 .reservedConstant) := by decide
theorem witness_without_providers : (ex .i2cReg).phase ≠ .absent ∧ Cfg.regAt (ex .i2cReg).cfg 1 = some ctrl ∧ regFits ctrl = true ∧
    ∀ f ∈ ctrl.fields, (f.acc = .read ∨ f.acc = .readWrite) → f.prov = none := by decide
theorem witness_reserved : (ex .i2cReg).phase ≠ .absent ∧ Cfg.regAt (ex .i2cReg).cfg 1 = some ctrl ∧ regFits ctrl = true ∧
    fld 2 6 .reservedConstant ∈ ctrl.fields ∧ (fld 2 6 .reservedConstant).acc = .reservedConstant ∧
    (fld 2 6 .reservedConstant).const &&& widthMask (fld 2 6 .reservedConstant).w = (fld 2 6 .reservedConstant).const := by
  decide
/-- A register with fields of three kinds and no observer. -/
def mixed : RegDecl := { addr := 9, reset := 0x80, fields := [fld 0 2 .read, fld 2 2 .readWrite, { fld 4 2 .reservedConstant with const := 3 }] }
def mixedCfg : Cfg := { exCfg .i2cReg with regmap := exMap ++ [mixed] }
def mixedState : State := { State.reset with toDevice := powerOn mixedCfg, cfg := mixedCfg }
theorem witness_without_observers : mixedState.phase ≠ .absent ∧ mixedState.Inv ∧ Cfg.regAt mixedState.cfg 9 = some mixed ∧
    regFits mixed = true ∧
    ∀ f ∈ mixed.fields, (f.acc = .write ∨ f.acc = .readWrite) → Cfg.observerOf mixedState.cfg 9 f = none :=
  ⟨by decide, inv_powerOn State.reset mixedCfg rfl, by decide, by decide, by decide⟩
/-- A write that differs in the Read and in the constant field, and one that differs in neither. -/
theorem witness_write_diagnostics : (after (exec (.rfWrite 9 0x01) mixedState)).map (·.events) =
      some [.diag (.roFieldWrite 9 0), .diag (.reservedMismatch 9 4)] ∧
    (after (exec (.rfWrite 9 0x30) mixedState)).map (·.events) = some [] := by decide

theorem witness_crc_pure : (ex .i2cCmd).phase ≠ .absent ∧ State.reset.phase ≠ .absent ∧
    (ex .i2cCmd).cfg.crc = (running (ex .spiReg)).cfg.crc := by decide
theorem witness_crc_width : Cfg.crcOk (exCfg .i2cCmd) = true ∧
    Cfg.crcOk { exCfg .i2cReg with crc := { width := 16, poly := 0x8005, refIn := true, refOut := true, init := 0, xorOut := 0xFFFF } } = true := by
  decide
theorem witness_crc_affine : ([1, 2] : List Byte).length = ([0xFF, 0] : List Byte).length := by decide

theorem witness_capture : (ex .i2cReg).phase ≠ .absent ∧ ((ex .i2cReg).cfg.triggerCond = .writeNonzero ∧ (0 : Byte) = 0) ∧
    (1 : Byte) ≠ 0 ∧ ({ exCfg .i2cReg with triggerCond := .anyWrite } : Cfg).triggerCond = .anyWrite := by decide
/-- CTRL with READY = 0 and TRIGGER = 1 in one byte (R400). -/
theorem witness_capture_by_write : (ex .i2cReg).phase ≠ .absent ∧ (ex .i2cReg).Inv ∧ Cfg.regAt (ex .i2cReg).cfg 1 = some ctrl ∧
    regFits ctrl = true ∧ { fld 0 1 .write with obs := some .capture } ∈ ctrl.fields ∧
    (ex .i2cReg).cfg.triggerField = some { addr := 1, off := 0 } ∧
    (∀ h ∈ ctrl.fields, h.off ≠ 0 → (h.acc = .write ∨ h.acc = .readWrite) → Cfg.observerOf (ex .i2cReg).cfg 1 h = none) ∧
    fieldOf (fld 0 1 .write) 0x01 ≠ 0 ∧ (ex .i2cReg).cfg.readyField = some { addr := 1, off := 1 } ∧
    Cfg.fieldAt (ex .i2cReg).cfg { addr := 1, off := 1 } = some (fld 1 1 .readWrite) ∧ fieldFits (fld 1 1 .readWrite) = true :=
  ⟨by decide, witness_inv .i2cReg, by decide, by decide, by decide, by decide, by decide, by decide, by decide, by decide, by decide⟩
theorem witness_burst : (ex .i2cReg).phase ≠ .absent ∧ ({ ex .i2cReg with buf := [0x11] } : State).buf[0]? = some 0x11 ∧
    ({ ex .i2cReg with buf := [0x11], cur := 1 } : State).buf.length ≤ 1 ∧ (ex .i2cReg).cur ≤ (ex .i2cReg).buf.length := by decide
theorem witness_dma_aborted : (ex .i2cReg).phase ≠ .absent ∧ (ex .i2cReg).cfg.dma = true ∧
    (ex .i2cReg).flag (ex .i2cReg).cfg.streamEnField = 0 ∧
    (streaming (ex .i2cReg)).flag (streaming (ex .i2cReg)).cfg.streamEnField ≠ 0 ∧ (streaming (ex .i2cReg)).live = false ∧
    (streaming (ex .i2cReg)).frames = [] := by decide
theorem witness_dma_push_store : ({ streaming (ex .i2cReg) with frames := [[1]] } : State).phase ≠ .absent ∧
    ({ streaming (ex .i2cReg) with frames := [[1]] } : State).cfg.dma = true ∧
    ({ streaming (ex .i2cReg) with frames := [[1]] } : State).flag (exCfg .i2cReg).streamEnField ≠ 0 ∧
    ({ streaming (ex .i2cReg) with frames := [[1]] } : State).frames ≠ [] := by decide
theorem witness_dma_push_live : ({ streaming (ex .i2cReg) with live := true } : State).phase ≠ .absent ∧
    ({ streaming (ex .i2cReg) with live := true } : State).cfg.dma = true ∧
    ({ streaming (ex .i2cReg) with live := true } : State).flag (exCfg .i2cReg).streamEnField ≠ 0 ∧
    ({ streaming (ex .i2cReg) with live := true } : State).live = true := by decide
theorem witness_dma_no_edge : ¬ ((1 : BitVec 1) = 0 ∧ (1 : BitVec 1) = 1) ∧ ¬ ((0 : BitVec 1) = 0 ∧ (0 : BitVec 1) = 1) := by decide

/-- The register of STREAM_EN and DMA_EN. -/
def dmaReg : RegDecl := { addr := 6, reset := 0x00, fields := [fld 0 1 .readWrite, { fld 1 1 .readWrite with obs := some .dmaEnable }] }
def dmaEn : FieldDecl := { fld 1 1 .readWrite with obs := some .dmaEnable }
theorem witness_dma_register : (ex .i2cReg).phase ≠ .absent ∧ (ex .i2cReg).Inv ∧ Cfg.regAt (ex .i2cReg).cfg 6 = some dmaReg ∧
    regFits dmaReg = true ∧ dmaEn ∈ dmaReg.fields ∧ (dmaEn.acc = .write ∨ dmaEn.acc = .readWrite) ∧
    Cfg.observerOf (ex .i2cReg).cfg 6 dmaEn = some .dmaEnable ∧
    (∀ h ∈ dmaReg.fields, h.off ≠ dmaEn.off → (h.acc = .write ∨ h.acc = .readWrite) → Cfg.observerOf (ex .i2cReg).cfg 6 h = none) ∧
    (ex .i2cReg).cfg.streamEnField = some { addr := 6, off := 0 } ∧ (ex .i2cReg).cfg.streamEnField ≠ some { addr := 6, off := dmaEn.off } ∧
    fieldOf dmaEn ((ex .i2cReg).storeAt 6) = 0 ∧ fieldOf dmaEn 0x02 = 1 ∧ fieldOf dmaEn 0x03 = 1 :=
  ⟨by decide, witness_inv .i2cReg, by decide, by decide, by decide, by decide, by decide, by decide, by decide, by decide, by decide, by decide, by decide⟩
/-- DMA_EN alone aborts and is stored; with STREAM_EN in the same byte the push runs and keeps DMA_EN; a second 1 is no edge (R401). -/
theorem witness_dma_by_write : (after (exec (.rfWrite 6 0x02) (ex .i2cReg))).map (fun s => (reg 6 s, s.events)) =
      some (some 2, [.diag .dmaStreamNotEnabled]) ∧
    (after (exec (.rfWrite 6 0x03) { ex .i2cReg with frames := [[1]] })).map (fun s => (reg 6 s, s.events)) =
      some (some 2, [.hostWrite 0x2000 [1], .irqPulse]) ∧
    (after (exec (.rfWrite 6 0x03) { ex .i2cReg with store := cellSet (ex .i2cReg).store 6 2 })).map (fun s => (reg 6 s, s.events)) =
      some (some 3, []) := by decide
def burstReg : RegDecl := { addr := 3, reset := 0x00, fields := [{ fld 0 8 .read with prov := some .burst }] }
def lengthReg : RegDecl := { addr := 5, reset := 0x00, fields := [{ fld 0 8 .read with prov := some (.length 1) }] }
theorem witness_core_providers : (ex .i2cReg).phase ≠ .absent ∧ Cfg.regAt (ex .i2cReg).cfg 3 = some burstReg ∧ regFits burstReg = true ∧
    { fld 0 8 .read with prov := some .burst } ∈ burstReg.fields ∧ Cfg.regAt (ex .i2cReg).cfg 5 = some lengthReg ∧
    regFits lengthReg = true ∧ { fld 0 8 .read with prov := some (.length 1) } ∈ lengthReg.fields := by decide
theorem witness_device_functions : ({ fld 0 4 .readWrite with prov := some (.device 0) } : FieldDecl).prov = some (.device 0) ∧
    ¬ ((1 : Byte) = 0 ∧ (1 : Byte) = 1) := by decide

theorem witness_frames : (ex .i2cReg).phase ≠ .absent ∧ (ex .i2cReg).frames = [] ∧ (ex .i2cReg).fidx = 0 ∧ ([[1], []] : List Frame) ≠ [] ∧
    ({ ex .i2cReg with frames := [[1], []], fidx := 1 } : State).frames[1]? = some [] := by decide
/-- An unknown channel, and both bounds of a known one. -/
theorem witness_meas : (ex .i2cReg).phase ≠ .absent ∧ (ex .i2cReg).Inv ∧ channelAt (ex .i2cReg).cfg.meas 2 = none ∧
    channelAt (ex .i2cReg).cfg.meas 0 = some { id := 0, lo := -55, hi := 125, policy := .reject, init := 25 } ∧
    (-55 : Rat) ≤ -55 ∧ (-55 : Rat) ≤ 125 ∧ (125 : Rat) ≤ 125 :=
  ⟨by decide, witness_inv .i2cReg, by decide, by decide, by decide, by decide, by decide⟩
/-- Below and above the range, on a CLAMP and on a REJECT channel. -/
theorem witness_meas_out : (ex .i2cReg).phase ≠ .absent ∧ (ex .i2cReg).Inv ∧
    channelAt (ex .i2cReg).cfg.meas 1 = some { id := 1, lo := 0, hi := 100, policy := .clamp, init := 40 } ∧ (0 : Rat) ≤ 100 ∧
    (-1 : Rat) < 0 ∧ (100 : Rat) < 101 ∧ (125 : Rat) < 126 := ⟨by decide, witness_inv .i2cReg, by decide, by decide, by decide, by decide, by decide⟩

theorem witness_register : State.reset.phase = .configuring ∧ registered State.reset.cfg.cmds 0 = false ∧
    (ex .i2cCmd).phase = .configuring ∧ registered (ex .i2cCmd).cfg.cmds 0xE000 = true ∧
    (running (ex .i2cCmd)).phase = .running := by decide
theorem witness_build : ∃ c, Cfg.build (exCfg .i2cCmd) cmdCT = .ok c ∧
    (sent [.configure (exCfg .i2cCmd) cmdCT] State.reset).phase ≠ .running ∧
    (sent [.configure (exCfg .i2cCmd) cmdCT] State.reset).inbox = .configure (exCfg .i2cCmd) cmdCT :: [] :=
  ⟨_, rfl, nofun, rfl⟩
theorem witness_build_duplicate : Cfg.regmapOk (exCfg .i2cCmd) = true ∧ Cfg.crcOk (exCfg .i2cCmd) = true ∧
    ¬ (cmdCT ++ [({ code := 2, wr := none, rd := none } : CmdEntry)]).Pairwise (fun e f : CmdEntry => e.code ≠ f.code) := by decide
theorem witness_build_fails : Cfg.build { exCfg .i2cReg with crc := { crcS with poly := 0x131 } } [] = .error .badCrcParams := rfl
theorem witness_register_fails : ∃ t, exec (.registerCmd 0xE000 none none) (ex .i2cCmd) = .next t ∧
    t.resp = .error (.duplicateCommand 0xE000) := ⟨_, rfl, rfl⟩
theorem witness_host_fails : ∃ t, exec (.setMeas 7 0) (ex .i2cReg) = .next t ∧ (Instr.setMeas 7 0).port = .host ∧
    t.resp = .error (.unknownChannel 7) := ⟨_, rfl, rfl, rfl⟩
theorem witness_reset : (running (i2cAt 5 (ex .i2cReg))).phase ≠ .absent := by decide

end Sys2Proof.Tests
end

section
/-! The command code of a CMD_WR frame (R82, R115): two bytes joined, the first one above the second. -/
namespace Sys2Proof.Machine

/-- The first byte of a command code weighs 256 (R82). -/
theorem code_toNat (hi lo : Byte) : ((hi ++ lo : Code)).toNat = hi.toNat * 256 + lo.toNat := by
  rw [BitVec.toNat_append, ← Nat.shiftLeft_add_eq_or_of_lt lo.isLt, Nat.shiftLeft_eq]

/-- In mode I2C_CMD a write is a command write of the frame its bytes form (R115, R119). -/
theorem decode_i2cWrite_of_i2cCmd {x : Ctx} (hx : x.mode = .i2cCmd) (bytes : List Byte) :
    decode x (.i2cWrite bytes) = .op (.cmdWrite (decodeCmdFrame bytes)) := by
  simp only [decode, decodeI2cWrite, hx]

/-- Settles O14: the code is the first byte above the second, so both bytes are read back from it whole. -/
theorem commandCodeIsBigEndian : Obligations.CommandCodeIsBigEndian := by
  intro x hi lo payload hx
  refine ⟨hi ++ lo, decode_i2cWrite_of_i2cCmd hx _, code_toNat hi lo, ?high, ?low⟩
  case high => exact BitVec.extractLsb'_append_eq_left
  case low => exact BitVec.extractLsb'_append_eq_right

end Sys2Proof.Machine
end

section
/-! Reflection (R149): its recursion as arithmetic, the width of its result, and its bits. -/
namespace Sys2Proof.Machine

/-- The lowest bit goes to the top place, and the bits above it are reflected below it (R149). -/
theorem reflect_succ (n v : Nat) : reflect (n + 1) v = 2 ^ n * (v.testBit 0).toNat + reflect n (v / 2) := by
  rw [reflect]
  cases v.testBit 0 <;> simp

/-- A reflection of `n` bits fits in `n` bits, so the top place of the next one is free. -/
theorem reflect_lt_two_pow (n v : Nat) : reflect n v < 2 ^ n := by
  induction n generalizing v with
  | zero => simp [reflect]
  | succ n ih =>
    have hrest : reflect n (v / 2) < 2 ^ n := ih (v / 2)
    have htop : 2 ^ n * (v.testBit 0).toNat ≤ 2 ^ n * 1 := Nat.mul_le_mul_left _ (Bool.toNat_le _)
    rw [reflect_succ, Nat.pow_succ]
    omega

/-- Settles O38, by induction on the number of bits: below the top place the bits are those of the
reflection of `v / 2`, the top place is bit 0 of `v`, and nothing stands above it. -/
theorem reflectReversesTheBits : Obligations.ReflectReversesTheBits := by
  intro n v i
  induction n generalizing v with
  | zero => simp [reflect]
  | succ n ih =>
    rw [reflect_succ, Nat.testBit_two_pow_mul_add _ (reflect_lt_two_pow n (v / 2)), Nat.testBit_bool_toNat]
    obtain hi | rfl | hi := Nat.lt_trichotomy i n
    · have hsource : n - i = n - 1 - i + 1 := by omega
      simp [hi, ih, Nat.lt_succ_of_lt hi, hsource, Nat.testBit_add_one]
    · simp
    · have habove : ¬ i < n ∧ i - n ≠ 0 ∧ ¬ i < n + 1 := by omega
      simp [habove]

end Sys2Proof.Machine
end

section
/-! The register file (R170 to R177): an access by itself, an address with no register, and a reserved field. -/
namespace Sys2Proof.Machine

/-- RF_READ answers the byte read and leaves the state the read leaves (R170). -/
theorem exec_rfRead {s : State} (a : Nat) (hp : s.phase ≠ .absent) :
    exec (.rfRead a) s = .next ((s.begin.rfRead a).2.respond (.byte (s.begin.rfRead a).1)) :=
  exec_eq_next nofun hp rfl

/-- RF_WRITE leaves the state the write leaves (R175). -/
theorem exec_rfWrite {s : State} (a : Nat) (b : Byte) (hp : s.phase ≠ .absent) :
    exec (.rfWrite a b) s = .next (s.begin.rfWrite a b) :=
  exec_eq_next nofun hp rfl

theorem rfRead_of_regAt_none {s : State} {a : Nat} (h : Cfg.regAt s.cfg a = none) :
    s.rfRead a = (s.cfg.regDefault, s.raise (.undefRegRead a)) := by
  unfold State.rfRead; rw [h]

theorem rfWrite_of_regAt_none {s : State} {a : Nat} (b : Byte) (h : Cfg.regAt s.cfg a = none) :
    s.rfWrite a b = s.raise (.undefRegWrite a) := by
  unfold State.rfWrite; rw [h]

/-- A reserved field has no stored value: its constant is read in every state (R172). -/
theorem readField_of_reservedConstant (s : State) (a : Nat) {f : FieldDecl} (h : f.acc = .reservedConstant) :
    s.readField a f = (fieldConst f, s) := by
  unfold State.readField; rw [h]

/-- The other fields of a register, read before or beside a reserved one, leave its bits at the constant. -/
theorem fieldOf_rfRead_of_reservedConstant {s : State} {a : Nat} {r : RegDecl} {f : FieldDecl}
    (hr : Cfg.regAt s.cfg a = some r) (hfits : regFits r = true) (hf : f ∈ r.fields)
    (hacc : f.acc = .reservedConstant) : fieldOf f (s.rfRead a).1 = fieldConst f := by
  obtain ⟨j, hj⟩ := List.mem_iff_getElem?.mp hf
  rw [(rfRead_fields hr hfits).1 j f hj, readField_of_reservedConstant _ _ hacc]

/-- RF_READ answers a byte with the constant in the bits of a reserved field. -/
theorem exec_rfRead_of_reservedConstant {s : State} {a : Nat} {r : RegDecl} {f : FieldDecl} (hp : s.phase ≠ .absent)
    (hr : Cfg.regAt s.cfg a = some r) (hfits : regFits r = true) (hf : f ∈ r.fields)
    (hacc : f.acc = .reservedConstant) :
    ∃ t v, exec (.rfRead a) s = .next t ∧ t.resp = .byte v ∧ fieldOf f v = fieldConst f :=
  ⟨_, _, exec_rfRead a hp, rfl, fieldOf_rfRead_of_reservedConstant (s := s.begin) hr hfits hf hacc⟩

/-- Settles O35: the constant is read in every state whose phase lets operations run, and a write,
which keeps the register map and that phase, leaves such a state. -/
theorem reservedFieldReadsItsConstant : Obligations.ReservedFieldReadsItsConstant := by
  intro s a r f hp hr hfits hf hacc hconst
  have hread : ∀ u : State, u.phase ≠ .absent → u.cfg = s.cfg →
      ∃ t v, exec (.rfRead a) u = .next t ∧ t.resp = .byte v ∧ fieldOf f v = f.const := by
    intro u hpu hcfg
    obtain ⟨t, v, hexec, hresp, hv⟩ := exec_rfRead_of_reservedConstant hpu (hcfg ▸ hr) hfits hf hacc
    exact ⟨t, v, hexec, hresp, hv.trans hconst⟩
  refine ⟨hread s hp rfl, fun b => ?afterWrite⟩
  have hkeeps : Keeps s.begin (s.begin.rfWrite a b) := keeps_rfWrite s.begin a b
  have hphase : (s.begin.rfWrite a b).phase ≠ .absent := by rw [hkeeps.phase, State.begin_phase]; nofun
  obtain ⟨t, v, hafter⟩ := hread (s.begin.rfWrite a b) hphase hkeeps.cfg
  exact ⟨_, t, v, exec_rfWrite a b hp, hafter⟩

/-- Settles O32: with no register at the address, both accesses raise their diagnostic and touch nothing else. -/
theorem undefinedAddresses : Obligations.UndefinedAddresses := by
  intro s a b hp hnone
  have hnone' : Cfg.regAt s.begin.cfg a = none := hnone
  constructor
  · rw [exec_rfRead a hp, rfRead_of_regAt_none hnone']; rfl
  · rw [exec_rfWrite a b hp, rfWrite_of_regAt_none b hnone']; rfl

end Sys2Proof.Machine
end

section
/-! The SPI header (R110, R200): the fields of the byte, and the exchange that carries it. -/
namespace Sys2Proof.Machine

/-- The address field of a header, bits 6:0, is the byte modulo 128 (R110). -/
theorem headerAddress_toNat (b : Byte) : (b.extractLsb' 0 7).toNat = b.toNat % 128 :=
  BitVec.extractLsb'_toNat 0 7 b

/-- In mode SPI_REG and SPI state Idle, an exchange that passes gating is a header (R200, R209). -/
theorem decode_spiExchange_of_idle {x : Ctx} (hmode : x.mode = .spiReg) (hpass : x.passes = true)
    (hidle : x.spiSt = .idle) (b : Byte) : decode x (.spiExchange b) = .op (decodeHeader b) := by
  simp only [decode, decodeExchange, hmode, hpass, if_true, decodeSpiReg, hidle]

/-- R119 selects a header of either direction in that same context. -/
theorem selected_decodeHeader {x : Ctx} (hmode : x.mode = .spiReg) (hpass : x.passes = true)
    (hidle : x.spiSt = .idle) (b : Byte) : (decodeHeader b).selected x = true := by
  unfold decodeHeader
  split <;> simp [Instr.selected, hmode, hpass, hidle]

theorem decodeHeader_ne_registerCmd (b : Byte) (code : Code) (wr : Option WriteHandler) (rd : Option ReadHandler) :
    decodeHeader b ≠ .registerCmd code wr rd := by
  unfold decodeHeader
  split <;> nofun

/-- A header sets the SPI state by bit 7 and the pointer by bits 6:0, answers, and does nothing else (R200 to R202). -/
theorem effect_decodeHeader (b : Byte) (s : State) :
    effect (decodeHeader b) s =
      ({ s with spi := { s.spi with st := if b.getLsbD 7 then .reading else .writing,
                                    addr := b.toNat % 128 } }).respond (.byte 0) := by
  unfold decodeHeader
  split
  · simp only [effect, effSpiHdrRead, headerAddress_toNat]
  · simp only [effect, effSpiHdrWrite, headerAddress_toNat]

/-- Settles O15: the exchange decodes to the header of its byte, R119 selects that header, and its effect
gives the next state. -/
theorem spiHeaderByte : Obligations.SpiHeaderByte := by
  intro s b rest hp hmode hgate hidle hinbox
  have hpass : s.ctx.passes = true := ctx_passes hgate
  have hstep : step s = exec (decodeHeader b) { s with inbox := rest } :=
    step_of_op hinbox (decode_spiExchange_of_idle hmode hpass hidle b)
  have hexec := exec_eq_next (s := { s with inbox := rest }) (decodeHeader_ne_registerCmd b) hp
    (selected_decodeHeader hmode hpass hidle b)
  rw [effect_decodeHeader] at hexec
  exact ⟨_, hstep.trans hexec, rfl, rfl, rfl⟩

end Sys2Proof.Machine
end

section
/-! The I2C machine (R230 to R236): its three operations in mode I2C_REG, a write byte by byte, the fallback read and the stop. -/
namespace Sys2Proof.Machine

theorem exec_i2cWrite {s : State} (f : I2cFrame) (hp : s.phase ≠ .absent) (hmode : s.cfg.mode = .i2cReg) :
    exec (.i2cWrite f) s = .next (effI2cWrite f s.begin) :=
  exec_eq_next nofun hp (decide_eq_true hmode)

theorem exec_i2cRead {s : State} (n : Nat) (hp : s.phase ≠ .absent) (hmode : s.cfg.mode = .i2cReg) :
    exec (.i2cRead n) s = .next (effI2cRead n s.begin) :=
  exec_eq_next nofun hp (decide_eq_true hmode)

theorem exec_i2cFinish {s : State} (hp : s.phase ≠ .absent) (hmode : s.cfg.mode = .i2cReg) :
    exec .i2cFinish s = .next (effI2cFinish s.begin) :=
  exec_eq_next nofun hp (decide_eq_true hmode)

/-- The last data byte of a write goes to the register at the pointer the bytes before it left (R231). -/
theorem effI2cWrite_snoc (a b : Byte) (data : List Byte) (s : State) :
    effI2cWrite (.write a (data ++ [b])) s =
      ((effI2cWrite (.write a data) s).rfWrite (effI2cWrite (.write a data) s).i2c.addr b).advanceI2c :=
  i2cWriteAll_snoc _ data b

/-- With no address set a read takes the fallback of P_NOADDR_READ and raises one diagnostic (R234). -/
theorem effI2cRead_of_idle {s : State} (n : Nat) (hidle : s.i2c.st = .idle) :
    effI2cRead n s = (s.raise .i2cReadNoAddress).respond (.bytes (fallback s.cfg.noAddr n)) := by
  unfold effI2cRead; rw [hidle]

/-- Settles O21: an address alone leaves no byte to write; otherwise the last byte is one register write more,
which keeps the wrap policy by which the pointer then moves on. -/
theorem i2cWriteWritesInOrder : Obligations.I2cWriteWritesInOrder := by
  intro s a b data hp hmode
  refine ⟨exec_i2cWrite (.write a []) hp hmode, _, _, exec_i2cWrite (.write a data) hp hmode, rfl, ?lastByte⟩
  have hkeeps : ∀ p, Keeps s.begin ((effI2cWrite (.write a data) s.begin).rfWrite p b) :=
    fun p => (keeps_effect (.i2cWrite (.write a data)) s.begin).trans (keeps_rfWrite _ p b)
  rw [exec_i2cWrite _ hp hmode, effI2cWrite_snoc, advanceI2c_eq rfl (congrArg Cfg.wrap (hkeeps _).cfg)]
  rfl

/-- Settles O24: in Idle the effect of the read is the fallback, by which no register is accessed. -/
theorem i2cReadWithNoAddress : Obligations.I2cReadWithNoAddress := by
  intro s n hp hmode hidle
  rw [exec_i2cRead n hp hmode, effI2cRead_of_idle (s := s.begin) n hidle]
  rfl

/-- Settles O25: the stop leaves a running instance in Idle, where a second stop finds nothing to change and
a read takes the fallback. -/
theorem i2cStop : Obligations.I2cStop := by
  intro s n hp hmode
  have hafter : (effI2cFinish s.begin).phase ≠ .absent := nofun
  have hread := i2cReadWithNoAddress (effI2cFinish s.begin) n hafter hmode rfl
  exact ⟨_, _, rfl, exec_i2cFinish hp hmode, exec_i2cFinish hafter hmode, hread, rfl, rfl⟩

end Sys2Proof.Machine
end

section
/-! The burst read (R295, R297): the operation by itself, within the buffer and at its end. -/
namespace Sys2Proof.Machine

/-- BURST_READ answers the byte of the provider `BURST` and leaves the state the provider leaves (R295). -/
theorem exec_burstRead {s : State} (hp : s.phase ≠ .absent) :
    exec .burstRead s = .next (s.begin.burst.2.respond (.byte s.begin.burst.1)) :=
  exec_eq_next nofun hp rfl

theorem burst_of_getElem?_eq_some {s : State} {v : Byte} (h : s.buf[s.cur]? = some v) :
    s.burst = (v, { s with cur := s.cur + 1 }) := by
  unfold State.burst; rw [h]

theorem burst_of_length_le {s : State} (h : s.buf.length ≤ s.cur) : s.burst = (0, s.raise .burstPastEnd) := by
  unfold State.burst; rw [List.getElem?_eq_none h]

/-- Settles O45: the beginning of an operation keeps the buffer and the cursor, so which of the two answers the
provider gives is seen in the state before. -/
theorem burstRead : Obligations.BurstRead := by
  intro s hp
  refine ⟨fun v (hbyte : s.begin.buf[s.begin.cur]? = some v) => ?withinBuffer,
    fun (hend : s.begin.buf.length ≤ s.begin.cur) => ?pastEnd⟩
  case withinBuffer => rw [exec_burstRead hp, burst_of_getElem?_eq_some hbyte]; rfl
  case pastEnd => rw [exec_burstRead hp, burst_of_length_le hend]; rfl

end Sys2Proof.Machine
end

section
/-! The bus port (R119, R352): every call on it decodes to an operation selected in the same context, and the
operation answers what the call asks for. -/
namespace Sys2Proof.Machine

/-! The answers of the operations that do not simply answer one byte or leave the answer empty. -/

/-- A sample exchange answers the next sample, or the last one again (R281). -/
theorem resp_effSpiSampleXchg (x : Byte) (s : State) : ∃ v, (effSpiSampleXchg x s).resp = .byte v := by
  unfold effSpiSampleXchg
  cases s.fifo with
  | nil => exact ⟨s.last, rfl⟩
  | cons v _ => exact ⟨v, rfl⟩

/-- An I2C read answers a sequence in both states of the machine (R233, R234). -/
theorem resp_effI2cRead (n : Nat) (s : State) : ∃ bs, (effI2cRead n s).resp = .bytes bs := by
  unfold effI2cRead
  cases s.i2c.st with
  | idle => exact ⟨_, rfl⟩
  | processing => exact ⟨_, rfl⟩

/-- A command read answers a sequence: the response stream, or the fallback where no code or no read handler
stands behind it (R255, R262). -/
theorem resp_effCmdRead (n : Nat) (s : State) : ∃ bs, (effCmdRead n s).resp = .bytes bs := by
  unfold effCmdRead
  cases s.cmd.pending with
  | none => exact ⟨_, rfl⟩
  | some code =>
    dsimp only
    cases (commandAt s.cfg.cmds code).bind CmdEntry.rd with
    | none => exact ⟨_, rfl⟩
    | some rd => exact ⟨_, rfl⟩

theorem resp_effI2cWrite (f : I2cFrame) (s : State) : (effI2cWrite f s).resp = s.resp := by
  cases f with
  | empty => rfl
  | write a data => exact resp_i2cWriteAll _ data

theorem resp_effCmdWrite (f : CmdFrame) (s : State) : (effCmdWrite f s).resp = s.resp := by
  cases f with
  | short bytes => rfl
  | command code payload => exact resp_dispatchWrite s code payload

theorem resp_effSpiCs (level : Level) (s : State) : (effSpiCs level s).resp = s.resp := by
  cases level with
  | asserted => rfl
  | deasserted => rfl

theorem resp_effSpiFinish (s : State) : (effSpiFinish s).resp = s.resp := by
  unfold effSpiFinish
  split
  · rfl
  · rfl

/-! The calls of the bus port. -/

/-- `r` is an answer as R352 asks for it: no error, a byte to an exchange, a sequence to a read. -/
structure Call.Answered (call : Call) (r : Response) : Prop where
  noError : r.isError = false
  byte : ∀ b, call = .spiExchange b → r.isByte = true
  bytes : ∀ n, call = .i2cRead n → r.isBytes = true

theorem answered_spiExchange {b : Byte} {r : Response} (h : ∃ v, r = .byte v) : Call.Answered (.spiExchange b) r := by
  obtain ⟨v, rfl⟩ := h
  exact ⟨rfl, fun _ _ => rfl, nofun⟩

theorem answered_i2cRead {n : Nat} {r : Response} (h : ∃ bs, r = .bytes bs) : Call.Answered (.i2cRead n) r := by
  obtain ⟨bs, rfl⟩ := h
  exact ⟨rfl, nofun, fun _ _ => rfl⟩

/-- A call that asks for no data is answered by nothing at all. -/
theorem answered_of_nothing {call : Call} {r : Response} (h : r = .nothing) (hexchange : ∀ b, call ≠ .spiExchange b)
    (hread : ∀ n, call ≠ .i2cRead n) : Call.Answered call r :=
  ⟨congrArg Response.isError h, fun b hb => absurd hb (hexchange b), fun n hn => absurd hn (hread n)⟩

/-- In context `x` the call is an operation that R119 selects there, none of the configuration phase, and the
operation, begun with nothing answered, answers the call. -/
def Call.Completes (x : Ctx) (call : Call) : Prop :=
  ∃ i, decode x call = .op i ∧ (∀ code wr rd, i ≠ .registerCmd code wr rd) ∧ i.selected x = true ∧
    ∀ s, s.resp = .nothing → Call.Answered call (effect i s).resp

/-- An exchange that chip-select gating drops is answered 0x00 in both SPI modes (R205). -/
theorem completes_spiExchange_of_gated {x : Ctx} (hmode : x.mode = .spiReg ∨ x.mode = .spiSample)
    (hpass : x.passes = false) (b : Byte) : Call.Completes x (.spiExchange b) := by
  refine ⟨.spiGated b, ?_, nofun, ?_, fun s _ => answered_spiExchange ⟨0, rfl⟩⟩
  · obtain hmode | hmode := hmode <;> simp [decode, decodeExchange, hmode, hpass]
  · obtain hmode | hmode := hmode <;> simp [Instr.selected, hmode, hpass]

/-- In mode SPI_REG the state of the machine selects a header, a register read or a register write (R209). -/
theorem completes_spiExchange_of_spiReg {x : Ctx} (hmode : x.mode = .spiReg) (hpass : x.passes = true) (b : Byte) :
    Call.Completes x (.spiExchange b) := by
  cases hst : x.spiSt with
  | idle =>
    refine ⟨decodeHeader b, decode_spiExchange_of_idle hmode hpass hst b, decodeHeader_ne_registerCmd b,
      selected_decodeHeader hmode hpass hst b, fun s _ => answered_spiExchange ⟨0, ?_⟩⟩
    rw [effect_decodeHeader, State.respond_resp]
  | reading =>
    exact ⟨.spiDataRead b, by simp [decode, decodeExchange, decodeSpiReg, hmode, hpass, hst], nofun,
      by simp [Instr.selected, hmode, hpass, hst], fun s _ => answered_spiExchange ⟨_, rfl⟩⟩
  | writing =>
    exact ⟨.spiDataWrite b, by simp [decode, decodeExchange, decodeSpiReg, hmode, hpass, hst], nofun,
      by simp [Instr.selected, hmode, hpass, hst], fun s _ => answered_spiExchange ⟨_, rfl⟩⟩

theorem completes_spiExchange_of_spiSample {x : Ctx} (hmode : x.mode = .spiSample) (hpass : x.passes = true)
    (b : Byte) : Call.Completes x (.spiExchange b) :=
  ⟨.spiSampleXchg b, by simp [decode, decodeExchange, hmode, hpass], nofun, by simp [Instr.selected, hmode, hpass],
    fun s _ => answered_spiExchange (resp_effSpiSampleXchg b s)⟩

theorem completes_spiExchange {x : Ctx} (hmode : x.mode = .spiReg ∨ x.mode = .spiSample) (b : Byte) :
    Call.Completes x (.spiExchange b) := by
  cases hpass : x.passes with
  | false => exact completes_spiExchange_of_gated hmode hpass b
  | true =>
    obtain hmode | hmode := hmode
    · exact completes_spiExchange_of_spiReg hmode hpass b
    · exact completes_spiExchange_of_spiSample hmode hpass b

/-- Both SPI modes expose the signals (R119). -/
theorem decodeSpiSignal_of_spi {mode : Mode} (hmode : mode = .spiReg ∨ mode = .spiSample) (i : Instr) :
    decodeSpiSignal mode i = .op i := by
  obtain rfl | rfl := hmode
  · rfl
  · rfl

theorem completes_spiCs {x : Ctx} (hmode : x.mode = .spiReg ∨ x.mode = .spiSample) (level : Level) :
    Call.Completes x (.spiCs level) :=
  ⟨.spiCs level, decodeSpiSignal_of_spi hmode _, nofun, by simpa [Instr.selected] using hmode,
    fun s h => answered_of_nothing ((resp_effSpiCs _ s).trans h) nofun nofun⟩

theorem completes_spiFinish {x : Ctx} (hmode : x.mode = .spiReg ∨ x.mode = .spiSample) :
    Call.Completes x .spiFinish :=
  ⟨.spiFinish, decodeSpiSignal_of_spi hmode _, nofun, by simpa [Instr.selected] using hmode,
    fun s h => answered_of_nothing ((resp_effSpiFinish s).trans h) nofun nofun⟩

theorem completes_i2cWrite {x : Ctx} (hmode : x.mode = .i2cReg ∨ x.mode = .i2cCmd) (bytes : List Byte) :
    Call.Completes x (.i2cWrite bytes) := by
  obtain hmode | hmode := hmode
  · exact ⟨.i2cWrite (decodeI2cFrame bytes), by simp [decode, decodeI2cWrite, hmode], nofun, decide_eq_true hmode,
      fun s h => answered_of_nothing ((resp_effI2cWrite _ s).trans h) nofun nofun⟩
  · exact ⟨.cmdWrite (decodeCmdFrame bytes), decode_i2cWrite_of_i2cCmd hmode bytes, nofun, decide_eq_true hmode,
      fun s h => answered_of_nothing ((resp_effCmdWrite _ s).trans h) nofun nofun⟩

theorem completes_i2cRead {x : Ctx} (hmode : x.mode = .i2cReg ∨ x.mode = .i2cCmd) (n : Nat) :
    Call.Completes x (.i2cRead n) := by
  obtain hmode | hmode := hmode
  · exact ⟨.i2cRead n, by simp [decode, decodeI2cRead, hmode], nofun, decide_eq_true hmode,
      fun s _ => answered_i2cRead (resp_effI2cRead n s)⟩
  · exact ⟨.cmdRead n, by simp [decode, decodeI2cRead, hmode], nofun, decide_eq_true hmode,
      fun s _ => answered_i2cRead (resp_effCmdRead n s)⟩

theorem completes_i2cStop {x : Ctx} (hmode : x.mode = .i2cReg ∨ x.mode = .i2cCmd) : Call.Completes x .i2cStop := by
  obtain hmode | hmode := hmode
  · exact ⟨.i2cFinish, by simp [decode, decodeI2cStop, hmode], nofun, decide_eq_true hmode,
      fun s h => answered_of_nothing h nofun nofun⟩
  · exact ⟨.cmdFinish, by simp [decode, decodeI2cStop, hmode], nofun, decide_eq_true hmode,
      fun s h => answered_of_nothing h nofun nofun⟩

/-- Every call on the port the mode exposes completes, in every context (R352). -/
theorem completes_of_onBus {x : Ctx} {call : Call} (h : Call.onBus x.mode call = true) : Call.Completes x call := by
  cases call with
  | spiExchange b => exact completes_spiExchange (by simpa [Call.onBus] using h) b
  | spiCs level => exact completes_spiCs (by simpa [Call.onBus] using h) level
  | spiFinish => exact completes_spiFinish (by simpa [Call.onBus] using h)
  | i2cWrite bytes => exact completes_i2cWrite (by simpa [Call.onBus] using h) bytes
  | i2cRead n => exact completes_i2cRead (by simpa [Call.onBus] using h) n
  | i2cStop => exact completes_i2cStop (by simpa [Call.onBus] using h)
  | named i => cases h
  | configure c cmds => cases h

/-- A step takes the oldest call and runs the effect of the operation the call completes by, which answers it (R88). -/
theorem step_of_completes {s : State} {call : Call} {rest : List Call} (hp : s.phase ≠ .absent)
    (hinbox : s.inbox = call :: rest) (h : Call.Completes s.ctx call) :
    ∃ t, step s = .next t ∧ t.inbox = rest ∧ Call.Answered call t.resp := by
  obtain ⟨i, hop, hnot, hsel, hanswer⟩ := h
  have hexec := exec_eq_next (s := { s with inbox := rest }) hnot hp hsel
  exact ⟨_, (step_of_op hinbox hop).trans hexec, (keeps_effect i _).inbox, hanswer _ rfl⟩

/-- Settles O2: the oldest call is on the bus port, so it completes in the context of the state, and the step
runs it. -/
theorem transportOperationsAlwaysAnswer : Obligations.TransportOperationsAlwaysAnswer := by
  intro s call rest hp hinbox hbus
  obtain ⟨t, hstep, hrest, hanswer⟩ := step_of_completes hp hinbox (completes_of_onBus (x := s.ctx) hbus)
  exact ⟨t, hstep, hrest, hanswer.noError, hanswer.byte, hanswer.bytes⟩

end Sys2Proof.Machine
end

section
/-! What one operation can do (R90, R119, R320): the call `configure` and REGISTER_CMD case by case, every way
`exec` gives a next state, and the one way an operation answers a configuration error. -/
namespace Sys2Proof.Machine

/-- The instance of an accepted configuration at power-on (R391). -/
def State.install (s : State) (c : Cfg) : State :=
  { s with toDevice := powerOn c, cfg := c, phase := .configuring, resp := .ok, events := [] }

/-- One entry more in the command table (R320 check 3). -/
def State.addCommand (s : State) (e : CmdEntry) : State :=
  { s with cfg := { s.cfg with cmds := s.cfg.cmds ++ [e] }, resp := .ok, events := [] }

/-! The call `configure`. -/

theorem configure_of_running {s : State} (hp : s.phase = .running) (c : Cfg) (cmds : List CmdEntry) :
    s.configure c cmds = .refused .configurationClosed := by
  unfold State.configure; rw [hp]

theorem configure_of_error {s : State} {c : Cfg} {cmds : List CmdEntry} {e : CfgError} (hp : s.phase ≠ .running)
    (hb : Cfg.build c cmds = .error e) : s.configure c cmds = .next (s.discard e) := by
  unfold State.configure
  cases hph : s.phase with
  | running => exact absurd hph hp
  | configuring => simp only [hb]
  | absent => simp only [hb]

theorem configure_of_ok {s : State} {c c' : Cfg} {cmds : List CmdEntry} (hp : s.phase ≠ .running)
    (hb : Cfg.build c cmds = .ok c') : s.configure c cmds = .next (s.install c') := by
  unfold State.configure
  cases hph : s.phase with
  | running => exact absurd hph hp
  | configuring => simp only [hb]; rfl
  | absent => simp only [hb]; rfl

/-- A `configure` that gives a next state comes before the first operation and leaves an instance or none. -/
theorem configure_inv {s t : State} {c : Cfg} {cmds : List CmdEntry} (h : s.configure c cmds = .next t) :
    s.phase ≠ .running ∧ ((∃ e, t = s.discard e) ∨ ∃ c', t = s.install c') := by
  by_cases hp : s.phase = .running
  · rw [configure_of_running hp] at h; cases h
  · refine ⟨hp, ?_⟩
    cases hb : Cfg.build c cmds with
    | error e => rw [configure_of_error hp hb] at h; cases h; exact .inl ⟨e, rfl⟩
    | ok c' => rw [configure_of_ok hp hb] at h; cases h; exact .inr ⟨c', rfl⟩

/-! REGISTER_CMD. -/

theorem exec_registerCmd_of_running {s : State} (hp : s.phase = .running) (code : Code) (wr : Option WriteHandler)
    (rd : Option ReadHandler) : exec (.registerCmd code wr rd) s = .refused .configurationClosed := by
  rw [exec_registerCmd, execRegisterCmd, hp]

theorem exec_registerCmd_of_registered {s : State} {code : Code} (hp : s.phase = .configuring)
    (h : registered s.cfg.cmds code = true) (wr : Option WriteHandler) (rd : Option ReadHandler) :
    exec (.registerCmd code wr rd) s = .next (s.discard (.duplicateCommand code)) := by
  simp only [exec_registerCmd, execRegisterCmd, hp, registerOne, h, if_true]

theorem exec_registerCmd_of_new {s : State} {code : Code} (hp : s.phase = .configuring)
    (h : registered s.cfg.cmds code = false) (wr : Option WriteHandler) (rd : Option ReadHandler) :
    exec (.registerCmd code wr rd) s = .next (s.addCommand { code := code, wr := wr, rd := rd }) := by
  simp only [exec_registerCmd, execRegisterCmd, State.addCommand, hp, registerOne, h, Bool.false_eq_true, if_false]

theorem exec_registerCmd_inv {s t : State} {code : Code} {wr : Option WriteHandler} {rd : Option ReadHandler}
    (h : exec (.registerCmd code wr rd) s = .next t) :
    s.phase = .configuring ∧
      (t = s.discard (.duplicateCommand code) ∨ t = s.addCommand { code := code, wr := wr, rd := rd }) := by
  cases hp : s.phase with
  | absent => rw [exec_of_absent hp] at h; cases h
  | running => rw [exec_registerCmd_of_running hp] at h; cases h
  | configuring =>
    refine ⟨rfl, ?_⟩
    cases hreg : registered s.cfg.cmds code with
    | true => rw [exec_registerCmd_of_registered hp hreg] at h; cases h; exact .inl rfl
    | false => rw [exec_registerCmd_of_new hp hreg] at h; cases h; exact .inr rfl

/-! Every operation. -/

/-- An operation that gives a next state ran its effect, or was a registration in the configuration phase. -/
theorem exec_inv {s t : State} {i : Instr} (h : exec i s = .next t) :
    ((∀ code wr rd, i ≠ .registerCmd code wr rd) ∧ t = effect i s.begin) ∨
    (∃ code wr rd, i = .registerCmd code wr rd ∧ s.phase = .configuring ∧
      (t = s.discard (.duplicateCommand code) ∨ t = s.addCommand { code := code, wr := wr, rd := rd })) := by
  by_cases hr : ∃ code wr rd, i = .registerCmd code wr rd
  · obtain ⟨code, wr, rd, rfl⟩ := hr
    exact .inr ⟨code, wr, rd, rfl, exec_registerCmd_inv h⟩
  · have hnot : ∀ code wr rd, i ≠ .registerCmd code wr rd := fun code wr rd hi => hr ⟨code, wr, rd, hi⟩
    rw [exec_eq_perform i s hnot] at h
    obtain ⟨-, -, ht⟩ := perform_inv h
    exact .inl ⟨hnot, ht⟩

/-- A failed SET_MEAS or LOAD_PATH only answers the error (R329). -/
theorem effSetMeas_eq_fail {s : State} {c : Nat} {v : Rat} {e : CfgError} (h : (effSetMeas c v s).resp = .error e) :
    effSetMeas c v s = s.fail e := by
  unfold effSetMeas at h ⊢
  split at h
  · cases h; rfl
  · split at h
    · cases h
    · rename_i hrange
      rw [if_neg hrange]
      split at h <;> cases h
      rfl

theorem effLoadPath_eq_fail {s : State} {target : Target} {res : LoadResult} {e : CfgError}
    (h : (effLoadPath target res s).resp = .error e) : effLoadPath target res s = s.fail e := by
  cases res with
  | fail => cases h; rfl
  | bytes d => cases target <;> cases h

/-- Only SET_MEAS and LOAD_PATH answer an error, and an operation that does has no other effect (R356). -/
theorem effect_eq_fail {s : State} {i : Instr} {e : CfgError} (hs : s.resp = .nothing)
    (h : (effect i s).resp = .error e) : i.port = .host ∧ effect i s = s.fail e := by
  have hnot : ∀ {r : Response}, r = s.resp → r ≠ .error e := fun hr he => nomatch hs.symm.trans (hr.symm.trans he)
  cases i with
  | setMeas c v => exact ⟨rfl, effSetMeas_eq_fail h⟩
  | loadPath target res => exact ⟨rfl, effLoadPath_eq_fail h⟩
  | spiCs level => exact absurd h (hnot (resp_effSpiCs level s))
  | spiFinish => exact absurd h (hnot (resp_effSpiFinish s))
  | i2cWrite f => exact absurd h (hnot (resp_effI2cWrite f s))
  | cmdWrite f => exact absurd h (hnot (resp_effCmdWrite f s))
  | rfWrite a b => exact absurd h (hnot (resp_rfWrite s a b))
  | capture old new => exact absurd h (hnot (untouched_captureObserver s old new).resp)
  | dmaEnable old new => exact absurd h (hnot (untouched_dmaObserver s _ _).resp)
  | i2cFinish => exact absurd h (hnot rfl)
  | cmdFinish => exact absurd h (hnot rfl)
  | registerCmd code wr rd => exact absurd h (hnot rfl)
  | spiSampleXchg x => obtain ⟨v, hv⟩ := resp_effSpiSampleXchg x s; cases hv.symm.trans h
  | i2cRead n => obtain ⟨bs, hbs⟩ := resp_effI2cRead n s; cases hbs.symm.trans h
  | cmdRead n => obtain ⟨bs, hbs⟩ := resp_effCmdRead n s; cases hbs.symm.trans h
  | _ => cases h

end Sys2Proof.Machine
end

section
/-! The machine as a whole: what every step and every operation keeps, emits and refuses. -/
namespace Sys2Proof.Machine

/-- A command table that grew still registers what it registered (R250). -/
theorem registered_append {cmds : List CmdEntry} {code : Code} (es : List CmdEntry)
    (h : registered cmds code = true) : registered (cmds ++ es) code = true := by
  unfold registered at h ⊢
  rw [List.any_append, h, Bool.true_or]

theorem inv_addCommand {s : State} (e : CmdEntry) (h : s.Inv) : (s.addCommand e).Inv :=
  { h with pending := fun code hc => registered_append [e] (h.pending code hc) }

theorem inv_install {s : State} (c : Cfg) (h : s.Inv) : (s.install c).Inv :=
  State.Inv.congr (s := { s with toDevice := powerOn c, cfg := c }) rfl rfl id (inv_powerOn s c h.hostWf)

theorem exec_keeps_inv {s t : State} {i : Instr} (hs : s.Inv) (h : exec i s = .next t) : t.Inv := by
  obtain ⟨-, rfl⟩ | ⟨code, wr, rd, -, -, rfl | rfl⟩ := exec_inv h
  · exact (keeps_effect i s.begin).inv (inv_begin hs)
  · exact inv_discard _ hs.hostWf
  · exact inv_addCommand _ hs

/-- Settles O4: a step leaves the state alone, configures an instance, or runs an operation on the state
without the call, and each of these keeps the invariant. -/
theorem everyStepKeepsTheInvariant : Obligations.EveryStepKeepsTheInvariant := by
  intro s t hs h
  obtain ⟨-, rfl⟩ | ⟨c, cmds, rest, -, hconf⟩ | ⟨call, rest, i, -, -, hexec⟩ := step_inv h
  case inl => exact hs
  case inr.inl =>
    obtain ⟨-, ⟨e, rfl⟩ | ⟨c', rfl⟩⟩ := configure_inv hconf
    · exact inv_discard e hs.hostWf
    · exact inv_install c' (inv_inbox rest hs)
  case inr.inr => exact exec_keeps_inv (inv_inbox rest hs) hexec

/-- Settles O3: the blank configuration declares nothing, and its power-on device meets the invariant as that
of any configuration does. -/
theorem resetMeetsTheInvariant : Obligations.ResetMeetsTheInvariant :=
  inv_powerOn State.reset Cfg.blank Memory.wf_reset.2

/-- An effect keeps the configuration, and the operation's beginning ended the configuration phase (R392). -/
theorem exec_cfg_phase {s t : State} {i : Instr} (h : exec i s = .next t)
    (hnot : ∀ code wr rd, i ≠ .registerCmd code wr rd) : t.cfg = s.cfg ∧ t.phase = .running := by
  obtain ⟨-, rfl⟩ | ⟨code, wr, rd, rfl, -, -⟩ := exec_inv h
  · have hkeeps := keeps_effect i s.begin
    exact ⟨hkeeps.cfg, hkeeps.phase⟩
  · exact absurd rfl (hnot code wr rd)

/-- Settles O5: in the running phase `configure` and REGISTER_CMD are refused, and every other operation
keeps the configuration. -/
theorem configurationIsFixed : Obligations.ConfigurationIsFixed := by
  refine ⟨fun s t i h hnot => exec_cfg_phase h hnot, fun s t h hrun => ?_⟩
  obtain ⟨-, rfl⟩ | ⟨c, cmds, rest, -, hconf⟩ | ⟨call, rest, i, -, -, hexec⟩ := step_inv h
  case inl => exact ⟨rfl, hrun⟩
  case inr.inl => exact absurd hrun (configure_inv hconf).1
  case inr.inr =>
    refine exec_cfg_phase (s := { s with inbox := rest }) hexec fun code wr rd hi => ?_
    subst hi
    exact nomatch hrun.symm.trans (exec_registerCmd_inv hexec).1

/-- Settles O6: the effects of operations emit pulses only in pushes, right after the host write, and a
registration emits nothing. -/
theorem everyPulseFollowsItsPush : Obligations.EveryPulseFollowsItsPush := by
  intro s t i hcore h
  obtain ⟨-, rfl⟩ | ⟨code, wr, rd, -, -, rfl | rfl⟩ := exec_inv h
  · obtain ⟨es, hes, hpaired⟩ := (paired_effect i s.begin hcore).ex
    rw [hes]; exact hpaired
  · rfl
  · rfl

/-- Every operation changes host memory by the events it emits, and by nothing else (R300). -/
theorem hostMem_of_exec {s t : State} {i : Instr} (h : exec i s = .next t) :
    t.hostMem = t.events.foldl Event.apply s.hostMem := by
  obtain ⟨-, rfl⟩ | ⟨code, wr, rd, -, -, rfl | rfl⟩ := exec_inv h
  · obtain ⟨es, hes, hmem⟩ := (emits_effect i s.begin).ex
    rw [hes, hmem]; rfl
  · rfl
  · rfl

/-- Settles O7: events that hold no `HostWrite` leave what they are applied to. -/
theorem hostMemoryChangesOnlyByHostWrites : Obligations.HostMemoryChangesOnlyByHostWrites := by
  intro s t i h
  refine ⟨hostMem_of_exec h, fun hnone a => ?_⟩
  rw [hostMem_of_exec h, foldl_apply_without_hostWrite _ _ hnone]

theorem exists_error_of_isError {r : Response} (h : r.isError = true) : ∃ e, r = .error e := by
  cases r with
  | error e => exact ⟨e, rfl⟩
  | _ => cases h

/-- Settles O8: an effect that answers an error is that of a host operation and does nothing else; otherwise
the operation is a registration, which emits nothing. -/
theorem errorsComeFromTheHostAlone : Obligations.ErrorsComeFromTheHostAlone := by
  intro s t i h herror
  obtain ⟨-, rfl⟩ | ⟨code, wr, rd, rfl, -, rfl | rfl⟩ := exec_inv h
  · obtain ⟨e, he⟩ := exists_error_of_isError herror
    obtain ⟨hport, hfail⟩ := effect_eq_fail s.begin_resp he
    exact ⟨.inl hport, congrArg State.events hfail⟩
  · exact ⟨.inr rfl, rfl⟩
  · exact ⟨.inr rfl, rfl⟩

/-- Settles O1: the three ways a step answers, as the laws of `step` give them. -/
theorem stepRunsTheDecodedOperation : Obligations.StepRunsTheDecodedOperation :=
  ⟨fun _ _ _ _ hinbox hop => step_of_op hinbox hop, fun _ hinbox => step_of_empty hinbox,
    fun _ _ _ _ hinbox hconf hrej => step_of_rejected hinbox hconf hrej⟩

/-- Settles O10: each of the three effects is one diagnostic and, for the exchange, the answer 0x00. -/
theorem misusedTransfersChangeNothing : Obligations.MisusedTransfersChangeNothing := by
  intro s hp
  refine ⟨fun x (hmode : s.ctx.mode = .spiReg ∨ s.ctx.mode = .spiSample) hgate hcs => ?gated,
    fun hmode => exec_i2cWrite .empty hp hmode, fun bytes hmode => ?short⟩
  case gated =>
    have hpass : s.ctx.passes = false := by simp only [Ctx.passes, State.ctx, hgate, hcs]
    exact exec_eq_next (i := .spiGated x) nofun hp (by simpa [Instr.selected, hpass] using hmode)
  case short => exact exec_eq_next (i := .cmdWrite (.short bytes)) nofun hp (decide_eq_true hmode)

end Sys2Proof.Machine
end

section
/-! The decoder and the encoder (R110 to R119): which calls name an operation, and that each undoes the other. -/
namespace Sys2Proof.Machine

/-! Operations sent by name. -/

theorem encode_of_isNamed {i : Instr} (h : i.isNamed = true) : encode i = .named i := by
  cases i <;> revert h <;> simp [Instr.isNamed, Instr.port, encode]

/-- An operation with a wire form is one of the bus ports (R117). -/
theorem port_of_not_isNamed {i : Instr} (h : i.isNamed = false) : i.port = .spi ∨ i.port = .i2c := by
  unfold Instr.isNamed at h
  cases hport : i.port with
  | spi => exact .inl rfl
  | i2c => exact .inr rfl
  | _ => rw [hport] at h; cases h

theorem decode_named_of_selected {x : Ctx} {i : Instr} (hn : i.isNamed = true) (hs : i.selected x = true) :
    decode x (.named i) = .op i := by
  simp only [decode, hn, hs, if_true]

theorem decode_named_inv {x : Ctx} {i j : Instr} (h : decode x (.named i) = .op j) :
    j = i ∧ i.isNamed = true ∧ i.selected x = true := by
  simp only [decode] at h
  split at h
  · rename_i hn
    split at h
    · rename_i hs
      cases h
      exact ⟨rfl, hn, hs⟩
    · cases h
  · cases h

/-! The formats. -/

theorem getLsbD_encodeHeader (rw : Bool) (a : BitVec 7) (i : Nat) :
    (encodeHeader rw a).getLsbD i = if i < 7 then a.getLsbD i else (BitVec.ofBool rw).getLsbD (i - 7) :=
  BitVec.getLsbD_append

/-- Format SPI_HDR: the direction is bit 7, the address the bits below it (R110). -/
theorem decodeHeader_encodeHeader (rw : Bool) (a : BitVec 7) :
    decodeHeader (encodeHeader rw a) = if rw then .spiHdrRead a else .spiHdrWrite a := by
  have hdir : (encodeHeader rw a).getLsbD 7 = rw := (getLsbD_encodeHeader rw a 7).trans (by simp)
  have haddr : (encodeHeader rw a).extractLsb' 0 7 = a := BitVec.extractLsb'_append_eq_right
  rw [decodeHeader, hdir, haddr]

/-- Bit 7 above bits 6:0 is the whole header byte (R110). -/
theorem encodeHeader_of_bits (b : Byte) : encodeHeader (b.getLsbD 7) (b.extractLsb' 0 7) = b := by
  apply byte_eq_of_bits
  intro i hi
  obtain hlow | rfl : i < 7 ∨ i = 7 := by omega
  · simp [getLsbD_encodeHeader, hlow]
  · rw [getLsbD_encodeHeader]; simp

theorem encode_decodeHeader (b : Byte) : encode (decodeHeader b) = .spiExchange b := by
  have hb := encodeHeader_of_bits b
  unfold decodeHeader
  cases hdir : b.getLsbD 7 with
  | true => rw [hdir] at hb; exact congrArg Call.spiExchange hb
  | false => rw [hdir] at hb; exact congrArg Call.spiExchange hb

theorem decodeI2cFrame_encodeI2cFrame (f : I2cFrame) : decodeI2cFrame (encodeI2cFrame f) = f := by
  cases f with
  | empty => rfl
  | write a data => rfl

theorem encodeI2cFrame_decodeI2cFrame (bytes : List Byte) : encodeI2cFrame (decodeI2cFrame bytes) = bytes := by
  cases bytes with
  | nil => rfl
  | cons a data => rfl

/-- A code is its high byte above its low byte (R82). -/
theorem code_of_bytes (code : Code) : (code.extractLsb' 8 8 ++ code.extractLsb' 0 8 : Code) = code :=
  BitVec.extractLsb'_append_extractLsb' (w := 8) (len := 8)

theorem decodeCmdFrame_encodeCmdFrame {f : CmdFrame} (h : f.wellFormed = true) :
    decodeCmdFrame (encodeCmdFrame f) = f := by
  cases f with
  | command code payload => exact congrArg (CmdFrame.command · payload) (code_of_bytes code)
  | short bytes =>
    match bytes, h with
    | [], _ => rfl
    | [_], _ => rfl

theorem encodeCmdFrame_decodeCmdFrame (bytes : List Byte) : encodeCmdFrame (decodeCmdFrame bytes) = bytes := by
  match bytes with
  | [] => rfl
  | [_] => rfl
  | hi :: lo :: payload =>
    have hhigh : (hi ++ lo : Code).extractLsb' 8 8 = hi := BitVec.extractLsb'_append_eq_left
    have hlow : (hi ++ lo : Code).extractLsb' 0 8 = lo := BitVec.extractLsb'_append_eq_right
    simp only [decodeCmdFrame, encodeCmdFrame, hhigh, hlow]

/-! The contexts in which each operation of the SPI port is decoded. -/

theorem decode_spiExchange_of_reading {x : Ctx} (hmode : x.mode = .spiReg) (hpass : x.passes = true)
    (hst : x.spiSt = .reading) (b : Byte) : decode x (.spiExchange b) = .op (.spiDataRead b) := by
  simp only [decode, decodeExchange, decodeSpiReg, hmode, hpass, hst, if_true]

theorem decode_spiExchange_of_writing {x : Ctx} (hmode : x.mode = .spiReg) (hpass : x.passes = true)
    (hst : x.spiSt = .writing) (b : Byte) : decode x (.spiExchange b) = .op (.spiDataWrite b) := by
  simp only [decode, decodeExchange, decodeSpiReg, hmode, hpass, hst, if_true]

theorem decode_spiExchange_of_sample {x : Ctx} (hmode : x.mode = .spiSample) (hpass : x.passes = true) (b : Byte) :
    decode x (.spiExchange b) = .op (.spiSampleXchg b) := by
  simp only [decode, decodeExchange, hmode, hpass, if_true]

theorem decode_spiExchange_of_gated {x : Ctx} (hmode : x.mode = .spiReg ∨ x.mode = .spiSample)
    (hpass : x.passes = false) (b : Byte) : decode x (.spiExchange b) = .op (.spiGated b) := by
  obtain hmode | hmode := hmode <;>
    simp only [decode, decodeExchange, hmode, hpass, Bool.false_eq_true, if_false]

/-- Settles O12: a named operation is decoded as it was sent; for one with a wire form the context that selects
it is the one in which the decoder reads its format, and the format's two directions agree. -/
theorem decodeOfEncode : Obligations.DecodeOfEncode := by
  intro x i hwf hsel
  cases hn : i.isNamed with
  | true => rw [encode_of_isNamed hn]; exact decode_named_of_selected hn hsel
  | false =>
    cases i with
    | spiHdrRead a =>
      obtain ⟨⟨hmode, hpass⟩, hst⟩ := by simpa [Instr.selected] using hsel
      exact (decode_spiExchange_of_idle hmode hpass hst _).trans
        (congrArg Decoded.op (decodeHeader_encodeHeader true a))
    | spiHdrWrite a =>
      obtain ⟨⟨hmode, hpass⟩, hst⟩ := by simpa [Instr.selected] using hsel
      exact (decode_spiExchange_of_idle hmode hpass hst _).trans
        (congrArg Decoded.op (decodeHeader_encodeHeader false a))
    | spiDataRead b =>
      obtain ⟨⟨hmode, hpass⟩, hst⟩ := by simpa [Instr.selected] using hsel
      exact decode_spiExchange_of_reading hmode hpass hst b
    | spiDataWrite b =>
      obtain ⟨⟨hmode, hpass⟩, hst⟩ := by simpa [Instr.selected] using hsel
      exact decode_spiExchange_of_writing hmode hpass hst b
    | spiGated b =>
      obtain ⟨hmode, hpass⟩ := by simpa [Instr.selected] using hsel
      exact decode_spiExchange_of_gated hmode hpass b
    | spiSampleXchg b =>
      obtain ⟨hmode, hpass⟩ := by simpa [Instr.selected] using hsel
      exact decode_spiExchange_of_sample hmode hpass b
    | spiCs level => exact decodeSpiSignal_of_spi (by simpa [Instr.selected] using hsel) _
    | spiFinish => exact decodeSpiSignal_of_spi (by simpa [Instr.selected] using hsel) _
    | i2cWrite f =>
      have hmode : x.mode = .i2cReg := of_decide_eq_true hsel
      simp only [encode, decode, decodeI2cWrite, hmode, decodeI2cFrame_encodeI2cFrame]
    | cmdWrite f =>
      have hmode : x.mode = .i2cCmd := of_decide_eq_true hsel
      simp only [encode, decode, decodeI2cWrite, hmode, decodeCmdFrame_encodeCmdFrame hwf]
    | i2cRead n =>
      have hmode : x.mode = .i2cReg := of_decide_eq_true hsel
      simp only [encode, decode, decodeI2cRead, hmode]
    | cmdRead n =>
      have hmode : x.mode = .i2cCmd := of_decide_eq_true hsel
      simp only [encode, decode, decodeI2cRead, hmode]
    | i2cFinish =>
      have hmode : x.mode = .i2cReg := of_decide_eq_true hsel
      simp only [encode, decode, decodeI2cStop, hmode]
    | cmdFinish =>
      have hmode : x.mode = .i2cCmd := of_decide_eq_true hsel
      simp only [encode, decode, decodeI2cStop, hmode]
    | _ => cases hn

/-! The calls of the bus port. -/

/-- Whether a call is a transfer or a signal on a bus, whatever the mode (R110 to R115). -/
def Call.isBus : Call → Bool
  | .spiExchange _ => true
  | .spiCs _ => true
  | .spiFinish => true
  | .i2cWrite _ => true
  | .i2cRead _ => true
  | .i2cStop => true
  | .named _ => false
  | .configure _ _ => false

/-- On a port that the mode does not expose the decoder answers so (R119, D53). -/
theorem decode_of_not_onBus {x : Ctx} {call : Call} (hbus : Call.isBus call = true)
    (h : Call.onBus x.mode call = false) : decode x call = .rejected .portNotExposed := by
  obtain ⟨mode, gating, cs, st, dma⟩ := x
  cases call with
  | named i => cases hbus
  | configure c cmds => cases hbus
  | _ => cases mode <;> simp [Call.onBus] at h <;> rfl

/-- What an exchange decodes to is selected, and its byte is the byte exchanged. -/
theorem decode_spiExchange_inv {x : Ctx} {b : Byte} {i : Instr} (h : decode x (.spiExchange b) = .op i) :
    encode i = .spiExchange b ∧ i.selected x = true := by
  have hmode : x.mode = .spiReg ∨ x.mode = .spiSample := by
    cases hm : x.mode with
    | spiReg => exact .inl rfl
    | spiSample => exact .inr rfl
    | _ => simp [decode, decodeExchange, hm] at h
  cases hpass : x.passes with
  | false =>
    rw [decode_spiExchange_of_gated hmode hpass] at h; cases h
    exact ⟨rfl, by simpa [Instr.selected, hpass] using hmode⟩
  | true =>
    obtain hmode | hmode := hmode
    · cases hst : x.spiSt with
      | idle =>
        rw [decode_spiExchange_of_idle hmode hpass hst] at h; cases h
        exact ⟨encode_decodeHeader b, selected_decodeHeader hmode hpass hst b⟩
      | reading =>
        rw [decode_spiExchange_of_reading hmode hpass hst] at h; cases h
        exact ⟨rfl, by simp [Instr.selected, hmode, hpass, hst]⟩
      | writing =>
        rw [decode_spiExchange_of_writing hmode hpass hst] at h; cases h
        exact ⟨rfl, by simp [Instr.selected, hmode, hpass, hst]⟩
    · rw [decode_spiExchange_of_sample hmode hpass] at h; cases h
      exact ⟨rfl, by simp [Instr.selected, hmode, hpass]⟩

/-- Settles O13: the modes that reject a call decode nothing, and in each of the others the call is the
encoding of the one operation it decodes to. -/
theorem encodeOfDecode : Obligations.EncodeOfDecode := by
  intro x call i h
  cases call with
  | spiExchange b => exact decode_spiExchange_inv h
  | spiCs level =>
    cases hmode : x.mode <;> simp only [decode, decodeSpiSignal, hmode] at h <;> cases h
    all_goals exact ⟨rfl, by simp [Instr.selected, hmode]⟩
  | spiFinish =>
    cases hmode : x.mode <;> simp only [decode, decodeSpiSignal, hmode] at h <;> cases h
    all_goals exact ⟨rfl, by simp [Instr.selected, hmode]⟩
  | i2cWrite bytes =>
    cases hmode : x.mode <;> simp only [decode, decodeI2cWrite, hmode] at h <;> cases h
    · exact ⟨congrArg Call.i2cWrite (encodeI2cFrame_decodeI2cFrame bytes), decide_eq_true hmode⟩
    · exact ⟨congrArg Call.i2cWrite (encodeCmdFrame_decodeCmdFrame bytes), decide_eq_true hmode⟩
  | i2cRead n =>
    cases hmode : x.mode <;> simp only [decode, decodeI2cRead, hmode] at h <;> cases h
    all_goals exact ⟨rfl, decide_eq_true hmode⟩
  | i2cStop =>
    cases hmode : x.mode <;> simp only [decode, decodeI2cStop, hmode] at h <;> cases h
    all_goals exact ⟨rfl, decide_eq_true hmode⟩
  | named j =>
    obtain ⟨rfl, hn, hsel⟩ := decode_named_inv h
    exact ⟨encode_of_isNamed hn, hsel⟩
  | configure c cmds => cases h

/-- Settles O9: a bus call is no operation's name, so the operation it decodes to, which it encodes, has a
port of the bus; and one on another port than the mode's is rejected by the decoder. -/
theorem theBusReachesTheBusPortOnly : Obligations.TheBusReachesTheBusPortOnly := by
  refine ⟨fun x call i hbus hop => port_of_not_isNamed ?port, fun s call rest hinbox hbus hname hconf => ?refused⟩
  case port =>
    cases hn : i.isNamed with
    | false => rfl
    | true =>
      obtain ⟨hcall, -⟩ := encodeOfDecode x call i hop
      rw [← hcall, encode_of_isNamed hn] at hbus
      cases hbus
  case refused =>
    have hcall : Call.isBus call = true := by
      cases call with
      | named i => exact absurd rfl (hname i)
      | configure c cmds => exact absurd rfl (hconf c cmds)
      | _ => rfl
    exact step_of_rejected hinbox hconf (decode_of_not_onBus (x := s.ctx) hcall hbus)

/-- Settles O11: six table words and one frame, each decoded as R110, R113 and R115 write them out. -/
theorem wordsDecodeAsTheFormatsSay : Obligations.WordsDecodeAsTheFormatsSay := by
  unfold Obligations.WordsDecodeAsTheFormatsSay
  decide

end Sys2Proof.Machine
end

section
/-! The SPI machine (R200 to R209, R281): headers, data exchanges as register accesses, signals and samples. -/
namespace Sys2Proof.Machine

/-! The operations of the SPI port where gating passes. -/

theorem selected_of_spiReg {s : State} {st : SpiSt} (hmode : s.cfg.mode = .spiReg)
    (hgate : s.cfg.gating = .ignore ∨ s.spi.cs = true) (hst : s.spi.st = st) :
    (decide (s.ctx.mode = .spiReg) && s.ctx.passes && decide (s.ctx.spiSt = st)) = true := by
  have hmode' : s.ctx.mode = .spiReg := hmode
  have hst' : s.ctx.spiSt = st := hst
  simp [hmode', hst', ctx_passes hgate]

theorem exec_spiSampleXchg {s : State} (x : Byte) (hp : s.phase ≠ .absent) (hmode : s.cfg.mode = .spiSample)
    (hgate : s.cfg.gating = .ignore ∨ s.spi.cs = true) :
    exec (.spiSampleXchg x) s = .next (effSpiSampleXchg x s.begin) := by
  have hmode' : s.ctx.mode = .spiSample := hmode
  exact exec_eq_next nofun hp (by simp [Instr.selected, hmode', ctx_passes hgate])

/-- Settles O16: a header of either direction is selected in Idle, and its effect is the next state. -/
theorem spiHeaders : Obligations.SpiHeaders := by
  intro s a hp hmode hgate hidle
  have hsel := selected_of_spiReg hmode hgate hidle
  exact ⟨exec_eq_next (i := .spiHdrRead a) nofun hp hsel, exec_eq_next (i := .spiHdrWrite a) nofun hp hsel⟩

/-- Settles O17: the effect is the register read with the pointer moved, and a register read touches neither the
SPI machine nor the wrap policy by which the pointer moves. -/
theorem spiDataReadIsARegisterRead : Obligations.SpiDataReadIsARegisterRead := by
  intro s x hp hmode hgate hst
  refine ⟨_, _, exec_rfRead s.spi.addr hp, rfl, ?_⟩
  have hspi : (s.begin.rfRead s.spi.addr).2.spi = s.spi := (untouched_rfRead s.begin s.spi.addr).spi
  have hwrap : (s.begin.rfRead s.spi.addr).2.cfg.wrap = s.cfg.wrap :=
    congrArg Cfg.wrap (keeps_rfRead s.begin s.spi.addr).cfg
  have heffect : effSpiDataRead x s.begin = (s.begin.rfRead s.spi.addr).2.advanceSpi.respond
      (.byte (s.begin.rfRead s.spi.addr).1) := rfl
  rw [exec_eq_next (i := .spiDataRead x) nofun hp (selected_of_spiReg hmode hgate hst), effect, heffect,
    advanceSpi_eq hspi hwrap]
  rfl

/-- Settles O18: the effect is the register write with the pointer moved and the answer 0x00; observers of the
core leave the SPI machine alone. -/
theorem spiDataWriteIsARegisterWrite : Obligations.SpiDataWriteIsARegisterWrite := by
  intro s d hp hmode hgate hst
  refine ⟨_, exec_rfWrite s.spi.addr d hp, fun hcore => (untouched_rfWrite s.begin _ d hcore).spi, ?_⟩
  have hwrap : (s.begin.rfWrite s.spi.addr d).cfg.wrap = s.cfg.wrap :=
    congrArg Cfg.wrap (keeps_rfWrite s.begin s.spi.addr d).cfg
  have heffect : effSpiDataWrite d s.begin = (s.begin.rfWrite s.spi.addr d).advanceSpi.respond (.byte 0) := rfl
  rw [exec_eq_next (i := .spiDataWrite d) nofun hp (selected_of_spiReg hmode hgate hst), effect, heffect,
    advanceSpi_eq rfl hwrap]
  rfl

theorem effSpiFinish_of_spiReg {s : State} (hmode : s.cfg.mode = .spiReg) :
    effSpiFinish s = { s with spi := { s.spi with st := .idle } } := by
  unfold effSpiFinish; rw [hmode, if_neg nofun]

theorem effSpiFinish_of_spiSample {s : State} (hmode : s.cfg.mode = .spiSample) : effSpiFinish s = s := by
  unfold effSpiFinish; rw [if_pos hmode]

/-- Settles O19: both SPI modes select the signals; what a finish does is the one thing that depends on the mode. -/
theorem spiSignals : Obligations.SpiSignals := by
  intro s hp hmode
  have hsel : (decide (s.ctx.mode = .spiReg) || decide (s.ctx.mode = .spiSample)) = true := by
    simpa using (show s.ctx.mode = .spiReg ∨ s.ctx.mode = .spiSample from hmode)
  refine ⟨exec_eq_next (i := .spiCs .asserted) nofun hp hsel, exec_eq_next (i := .spiCs .deasserted) nofun hp hsel, ?_⟩
  rw [exec_eq_next (i := .spiFinish) nofun hp hsel, effect]
  obtain hmode | hmode := hmode
  · rw [effSpiFinish_of_spiReg (s := s.begin) hmode, if_pos hmode]; rfl
  · rw [effSpiFinish_of_spiSample (s := s.begin) hmode, if_neg (by rw [hmode]; nofun)]; rfl

/-! Samples (R281). -/

theorem effSpiSampleXchg_of_empty {s : State} (x : Byte) (hf : s.fifo = []) :
    effSpiSampleXchg x s = s.respond (.byte s.last) := by
  unfold effSpiSampleXchg; rw [hf]

theorem effSpiSampleXchg_of_cons {s : State} {v : Byte} {rest : List Byte} (x : Byte) (hf : s.fifo = v :: rest) :
    effSpiSampleXchg x s = ({ s with fifo := rest, last := v }).respond (.byte v) := by
  unfold effSpiSampleXchg; rw [hf]

/-- As many exchanges as there are samples answer them in order and leave the last of them in `last`. -/
theorem runAll_spiSampleXchg {s : State} {xs : List Byte} (hp : s.phase ≠ .absent) (hmode : s.cfg.mode = .spiSample)
    (hgate : s.cfg.gating = .ignore ∨ s.spi.cs = true) (hlen : xs.length = s.fifo.length) :
    ∃ t, runAll (xs.map Instr.spiSampleXchg) s = some (s.fifo.map Response.byte, t) ∧
      t.toDevice = { s.toDevice with fifo := [], last := s.fifo.getLast?.getD s.last } ∧ t.hostMem = s.hostMem ∧
      t.cfg = s.cfg ∧ t.phase ≠ .absent := by
  induction xs generalizing s with
  | nil =>
    have hf : s.fifo = [] := List.length_eq_zero_iff.mp hlen.symm
    refine ⟨s, by rw [hf]; rfl, ?_, rfl, rfl, hp⟩
    simp only [hf, List.getLast?_nil, Option.getD_none]
    rw [← hf]
  | cons x xs ih =>
    cases hf : s.fifo with
    | nil => rw [hf] at hlen; cases hlen
    | cons v rest =>
      have hexec := exec_spiSampleXchg x hp hmode hgate
      rw [effSpiSampleXchg_of_cons (s := s.begin) x hf] at hexec
      obtain ⟨t, hrun, hdev, hmem, hcfg, hpt⟩ :=
        ih (s := ({ s.begin with fifo := rest, last := v }).respond (.byte v))
          (show Phase.running ≠ .absent from nofun) hmode hgate (by rw [hf] at hlen; exact Nat.succ.inj hlen)
      refine ⟨t, ?_, ?_, hmem, hcfg, hpt⟩
      · rw [List.map_cons, runAll_cons hexec, hrun]; rfl
      · rw [hdev, List.getLast?_cons]; rfl

/-- Settles O20: one exchange takes the oldest sample or repeats the last one; the samples are drained by
induction, and on the empty FIFO that is left the last one is repeated. -/
theorem samplesComeOutInOrder : Obligations.SamplesComeOutInOrder := by
  intro s hp hmode hgate
  refine ⟨fun x hf => ?empty, fun x v rest hf => ?oldest, fun xs hlen => ?all⟩
  case empty =>
    rw [exec_spiSampleXchg x hp hmode hgate, effSpiSampleXchg_of_empty (s := s.begin) x hf]; rfl
  case oldest =>
    rw [exec_spiSampleXchg x hp hmode hgate, effSpiSampleXchg_of_cons (s := s.begin) x hf]; rfl
  case all =>
    obtain ⟨t, hrun, hdev, hmem, hcfg, hpt⟩ := runAll_spiSampleXchg hp hmode hgate hlen
    refine ⟨t, hrun, hdev, hmem, fun x => ⟨_, exec_spiSampleXchg x hpt (hcfg ▸ hmode) ?_, ?_, ?_⟩⟩
    · rw [hcfg, hdev]; exact hgate
    · rw [effSpiSampleXchg_of_empty (s := t.begin) x (congrArg Device.fifo hdev), State.respond_resp]
      exact congrArg Response.byte (congrArg Device.last hdev)
    · rw [effSpiSampleXchg_of_empty (s := t.begin) x (congrArg Device.fifo hdev)]; rfl

end Sys2Proof.Machine
end

section
/-! The I2C pointer (R231 to R237): where a write leaves it, and a read byte by byte. -/
namespace Sys2Proof.Machine

/-- The pointer `k` places on (R15). -/
def incAddrBy (wrap : Wrap) (bits : Nat) : Nat → Nat → Nat
  | 0, a => a
  | k + 1, a => incAddrBy wrap bits k (incAddr wrap bits a)

/-- Under MODULO the places are counted within the width, where the pointer starts (R15). -/
theorem incAddrBy_modulo {bits a : Nat} (k : Nat) (ha : a < 2 ^ bits) :
    incAddrBy .modulo bits k a = (a + k) % 2 ^ bits := by
  induction k generalizing a with
  | zero => exact (Nat.mod_eq_of_lt ha).symm
  | succ k ih =>
    rw [incAddrBy, ih (incAddr_lt bits a rfl), incAddr, Nat.mod_add_mod, Nat.add_assoc, Nat.add_comm 1 k]

theorem incAddrBy_unbounded (bits a k : Nat) : incAddrBy .unbounded bits k a = a + k := by
  induction k generalizing a with
  | zero => rfl
  | succ k ih => rw [incAddrBy, ih, incAddr, Nat.add_assoc, Nat.add_comm 1 k]

/-- With observers of the core, a write of data bytes moves the I2C pointer once per byte and touches no
other transport. -/
theorem i2cWriteAll_untouched {s : State} (data : List Byte) (hcore : Cfg.coreObserversOnly s.cfg = true) :
    (s.i2cWriteAll data).i2c = { st := s.i2c.st, addr := incAddrBy s.cfg.wrap i2cAddrBits data.length s.i2c.addr } ∧
    Untouched { s with i2c := (s.i2cWriteAll data).i2c } (s.i2cWriteAll data) := by
  induction data generalizing s with
  | nil => exact ⟨rfl, .refl s⟩
  | cons b data ih =>
    have hcfg : (s.rfWrite s.i2c.addr b).cfg = s.cfg := (keeps_rfWrite s s.i2c.addr b).cfg
    have hfirst := untouched_rfWrite s s.i2c.addr b hcore
    obtain ⟨hi2c, hrest⟩ := ih (s := (s.rfWrite s.i2c.addr b).advanceI2c) (hcfg.symm ▸ hcore)
    have hmoved : (s.rfWrite s.i2c.addr b).advanceI2c.i2c =
        { s.i2c with addr := incAddr s.cfg.wrap i2cAddrBits s.i2c.addr } := by
      rw [State.advanceI2c_i2c, hcfg, hfirst.i2c]
    refine ⟨hi2c.trans ?_, .trans ?_ hrest⟩
    · rw [hmoved, State.advanceI2c_cfg, hcfg]; rfl
    · exact { hfirst with i2c := rfl }

/-- Settles O22: the first byte sets the pointer, and each data byte moves it by one. -/
theorem i2cWriteMovesThePointer : Obligations.I2cWriteMovesThePointer := by
  intro s a data hp hmode hcore
  refine ⟨_, exec_i2cWrite (.write a data) hp hmode, ?_⟩
  obtain ⟨hi2c, huntouched⟩ := i2cWriteAll_untouched
    (s := { s.begin with i2c := { st := .processing, addr := a.toNat } }) data hcore
  refine ⟨hi2c.trans (congrArg (I2c.mk .processing) ?_), huntouched.spi, huntouched.cmd, huntouched.fifo,
    huntouched.last⟩
  show incAddrBy s.cfg.wrap i2cAddrBits data.length a.toNat = _
  cases s.cfg.wrap with
  | modulo => exact incAddrBy_modulo data.length a.isLt
  | unbounded => exact incAddrBy_unbounded i2cAddrBits a.toNat data.length

theorem effI2cRead_of_processing {s : State} (n : Nat) (hst : s.i2c.st = .processing) :
    effI2cRead n s = (s.i2cReadAll n).2.respond (.bytes (s.i2cReadAll n).1) := by
  unfold effI2cRead; rw [hst]

/-- Settles O23: the read of one byte more ends with a register read at the pointer the others left, which does
not look at the answer the shorter read gave. -/
theorem i2cReadReadsInOrder : Obligations.I2cReadReadsInOrder := by
  intro s hp hmode hst
  have hread : ∀ n, exec (.i2cRead n) s = .next ((s.begin.i2cReadAll n).2.respond (.bytes (s.begin.i2cReadAll n).1)) :=
    fun n => (exec_i2cRead n hp hmode).trans (congrArg _ (effI2cRead_of_processing (s := s.begin) n hst))
  refine ⟨hread 0, fun n => ⟨_, _, _, _, hread n, rfl, length_i2cReadAll s.begin n,
    (st_i2cReadAll s.begin n).trans hst, rfRead_respond _ _ _, ?oneMore⟩⟩
  have hwrap : ((s.begin.i2cReadAll n).2.rfRead (s.begin.i2cReadAll n).2.i2c.addr).2.cfg.wrap = s.cfg.wrap :=
    congrArg Cfg.wrap ((keeps_i2cReadAll s.begin n).trans (keeps_rfRead _ _)).cfg
  rw [hread (n + 1), i2cReadAll_succ, advanceI2c_eq rfl hwrap]
  rfl

end Sys2Proof.Machine
end

section
/-! The command engine (R250 to R262): a write of a whole code, the response stream, the fallback and the stop. -/
namespace Sys2Proof.Machine

/-! The operations in mode I2C_CMD. -/

theorem exec_cmdWrite {s : State} (f : CmdFrame) (hp : s.phase ≠ .absent) (hmode : s.cfg.mode = .i2cCmd) :
    exec (.cmdWrite f) s = .next (effCmdWrite f s.begin) :=
  exec_eq_next nofun hp (decide_eq_true hmode)

theorem exec_cmdRead {s : State} (n : Nat) (hp : s.phase ≠ .absent) (hmode : s.cfg.mode = .i2cCmd) :
    exec (.cmdRead n) s = .next (effCmdRead n s.begin) :=
  exec_eq_next nofun hp (decide_eq_true hmode)

theorem exec_cmdFinish {s : State} (hp : s.phase ≠ .absent) (hmode : s.cfg.mode = .i2cCmd) :
    exec .cmdFinish s = .next (effCmdFinish s.begin) :=
  exec_eq_next nofun hp (decide_eq_true hmode)

/-! A command write (R251, R253, R254). -/

theorem dispatchWrite_of_unknown {s : State} {code : Code} (payload : List Byte)
    (h : commandAt s.cfg.cmds code = none) :
    s.dispatchWrite code payload = (s.setPending none).raise (.cmdUnknownCode code) := by
  unfold State.dispatchWrite; rw [h]

theorem dispatchWrite_of_handler {s : State} {code : Code} {e : CmdEntry} {w : WriteHandler} (payload : List Byte)
    (h : commandAt s.cfg.cmds code = some e) (hw : e.wr = some w) :
    s.dispatchWrite code payload = (s.setPending (some code)).callWriteHandler payload w := by
  unfold State.dispatchWrite; simp only [h, hw]

theorem dispatchWrite_of_no_handler {s : State} {code : Code} {e : CmdEntry} (payload : List Byte)
    (h : commandAt s.cfg.cmds code = some e) (hw : e.wr = none) :
    s.dispatchWrite code payload =
      if payload.isEmpty then s.setPending (some code)
      else (s.setPending (some code)).raise (.cmdPayloadIgnored code) := by
  unfold State.dispatchWrite; simp only [h, hw]

theorem callWriteHandler_device (s : State) (payload : List Byte) (id : Nat) :
    s.callWriteHandler payload (.device id) =
      (s.adoptHandler (Config.deviceWriteHandler id payload s.toDevice).1).emitAll
        ((Config.deviceWriteHandler id payload s.toDevice).2.map Event.diag) := rfl

/-- Settles O26: the table entry of the code decides, and where it has a write handler the kind of handler; a
device handler's diagnostics are the only events it emits. -/
theorem commandWrite : Obligations.CommandWrite := by
  intro s code payload hp hmode
  have hexec : exec (.cmdWrite (.command code payload)) s = .next (s.begin.dispatchWrite code payload) :=
    exec_cmdWrite (.command code payload) hp hmode
  rw [hexec]
  cases hentry : commandAt s.cfg.cmds code with
  | none => rw [dispatchWrite_of_unknown (s := s.begin) payload hentry]; rfl
  | some e =>
    dsimp only
    cases hw : e.wr with
    | none =>
      rw [dispatchWrite_of_no_handler (s := s.begin) payload hentry hw]
      cases payload <;> rfl
    | some w =>
      rw [dispatchWrite_of_handler (s := s.begin) payload hentry hw]
      cases w with
      | storePayload => rfl
      | device id => rw [callWriteHandler_device, emitAll_diags]; rfl

/-! A command read (R255, R256, R262). -/

theorem effCmdRead_of_no_pending {s : State} (n : Nat) (h : s.cmd.pending = none) :
    effCmdRead n s = (s.raise .cmdReadNoPending).respond (.bytes (fallback s.cfg.noAddr n)) := by
  unfold effCmdRead; rw [h]

theorem effCmdRead_of_no_handler {s : State} {code : Code} {e : CmdEntry} (n : Nat) (h : s.cmd.pending = some code)
    (hentry : commandAt s.cfg.cmds code = some e) (hrd : e.rd = none) :
    effCmdRead n s = (s.raise (.cmdNoReadHandler code)).respond (.bytes (fallback s.cfg.noAddr n)) := by
  unfold effCmdRead; simp only [h, hentry, Option.bind_some, hrd]

theorem effCmdRead_of_handler {s : State} {code : Code} {e : CmdEntry} {rd : ReadHandler} (n : Nat)
    (h : s.cmd.pending = some code) (hentry : commandAt s.cfg.cmds code = some e) (hrd : e.rd = some rd) :
    effCmdRead n s = s.respond (.bytes (s.cmdResponse n rd)) := by
  unfold effCmdRead; simp only [h, hentry, Option.bind_some, hrd]

/-- A handler's raw bytes are a matter of the fields of S alone (R260). -/
theorem rawTake_congr {s t : State} (h : t.toDevice = s.toDevice) (k : Nat) (rd : ReadHandler) :
    t.rawTake k rd = s.rawTake k rd := by
  cases rd with
  | fixed raw => rfl
  | cycle b raw => rfl
  | devBytes => rw [State.rawTake, State.rawTake, h]
  | device id => rw [State.rawTake, State.rawTake, h]

/-- The response is the beginning of the stream of any raw bytes that suffice for it (R256, R258). -/
theorem cmdResponse_eq_take (s : State) {n m : Nat} (rd : ReadHandler) (h : rawNeeded n ≤ m) :
    s.cmdResponse n rd = (interleave s.cfg.crc (s.rawTake m rd)).take n := by
  rw [State.cmdResponse, ← rawTake_take s rd (rawNeeded n) m h, take_interleave _ _ _ _ (Nat.le_refl _)]

theorem rawNeeded_le (n : Nat) : rawNeeded n ≤ n := by
  unfold rawNeeded; omega

/-- With a read handler the answer is the beginning of its stream, and nothing else changes (R255). -/
theorem exec_cmdRead_of_handler {s : State} {n m : Nat} {code : Code} {e : CmdEntry} {rd : ReadHandler}
    (hp : s.phase ≠ .absent) (hmode : s.cfg.mode = .i2cCmd) (h : s.cmd.pending = some code)
    (hentry : commandAt s.cfg.cmds code = some e) (hrd : e.rd = some rd) (hm : rawNeeded n ≤ m) :
    exec (.cmdRead n) s =
      .next (s.begin.respond (.bytes ((interleave s.cfg.crc (s.rawTake m rd)).take n))) := by
  rw [exec_cmdRead n hp hmode, effCmdRead_of_handler (s := s.begin) n h hentry hrd,
    cmdResponse_eq_take s.begin rd hm, rawTake_congr s.begin_toDevice, State.begin_cfg]

/-- Settles O27: the response does not depend on how many raw bytes beyond those it needs are taken. -/
theorem commandReadIsAPrefixOfTheStream : Obligations.CommandReadIsAPrefixOfTheStream := by
  intro s n m code e rd hp hmode hpending hentry hrd hm
  exact exec_cmdRead_of_handler hp hmode hpending hentry hrd hm

/-- Settles O29: a read leaves S as it was, and the stream is a matter of S and the configuration alone. -/
theorem commandReadsRestart : Obligations.CommandReadsRestart := by
  intro s n1 n2 m code e rd hp hmode hpending hentry hrd hm
  have hfirst := exec_cmdRead_of_handler hp hmode hpending hentry hrd (Nat.le_refl (rawNeeded n1))
  have hagain : ∀ r : Response, exec (.cmdRead n2) (s.begin.respond r) = _ := fun r =>
    exec_cmdRead_of_handler (s := s.begin.respond r) (show Phase.running ≠ .absent from nofun) hmode hpending hentry hrd
      (Nat.le_trans (rawNeeded_le n2) hm)
  refine ⟨_, _, hfirst, hagain _, ?_, rfl⟩
  rw [State.respond_resp, rawTake_congr (t := s.begin.respond _) rfl]
  rfl

/-- Settles O28, along the recursion of the stream: two raw bytes and their checksum, and then the stream of
the rest. -/
theorem interleavedStream : Obligations.InterleavedStream := by
  intro p raw
  fun_induction interleave p raw with
  | case1 a b raw ih =>
    obtain ⟨hlen, hbytes, hodd⟩ := ih
    refine ⟨by simp only [List.length_cons, hlen]; omega, fun j x y hx hy => ?_, fun h => ?_⟩
    · cases j with
      | zero => cases hx; cases hy; exact ⟨rfl, rfl, rfl⟩
      | succ j => exact hbytes j x y hx hy
    · have hrest : raw.length % 2 = 1 := by simp only [List.length_cons] at h; omega
      simp only [List.getLast?_cons, hodd hrest]
      cases raw with
      | nil => cases hrest
      | cons c raw => rw [List.getLast?_cons]; rfl
  | case2 a =>
    refine ⟨by simp, fun j x y hx hy => ?_, fun _ => rfl⟩
    cases hy
  | case3 => exact ⟨rfl, nofun, nofun⟩

/-- Settles O30: no code pending, and a code with no read handler, each take the fallback with a diagnostic. -/
theorem commandReadFallback : Obligations.CommandReadFallback := by
  intro s n hp hmode
  refine ⟨fun hpending => ?_, fun code e hpending hentry hrd => ?_⟩
  · rw [exec_cmdRead n hp hmode, effCmdRead_of_no_pending (s := s.begin) n hpending]; rfl
  · rw [exec_cmdRead n hp hmode, effCmdRead_of_no_handler (s := s.begin) n hpending hentry hrd]; rfl

/-- Settles O31: the stop leaves no code pending, where a second stop finds nothing to clear and a read takes the
fallback. -/
theorem commandStop : Obligations.CommandStop := by
  intro s n hp hmode
  have hafter : (effCmdFinish s.begin).phase ≠ .absent := nofun
  exact ⟨_, _, rfl, exec_cmdFinish hp hmode, exec_cmdFinish hafter hmode,
    (commandReadFallback (effCmdFinish s.begin) n hafter hmode).1 rfl, rfl, rfl⟩

end Sys2Proof.Machine
end

section
/-! The CRC engine (R140 to R149): the register, its width, and that injection, steps and reflection are linear
over XOR. -/
namespace Sys2Proof.Machine

/-- Settles O39: CRC_CALC answers the checksum under the parameters of the configuration, and nothing more. -/
theorem crcCalcIsPure : Obligations.CrcCalcIsPure := by
  intro s t data hs ht hcrc
  refine ⟨exec_eq_next (i := .crcCalc data) nofun hs rfl, ?_⟩
  rw [hcrc]
  exact exec_eq_next (i := .crcCalc data) nofun ht rfl

/-- A bit step in terms of doubling (R143). -/
theorem crcBit_eq (p : CrcParams) (reg : Nat) :
    crcBit p reg = if reg.testBit (p.width - 1) then (2 * reg % 2 ^ p.width) ^^^ p.poly else 2 * reg % 2 ^ p.width := by
  rw [crcBit, Nat.shiftLeft_eq, Nat.pow_one, Nat.mul_comm]

/-- Settles O40: the register before the final steps is the fold of the bytes over the initial value, so one byte
more is one injection and eight bit steps more. -/
theorem crcRegister : Obligations.CrcRegister := by
  refine ⟨fun p data b => ⟨data.foldl (crcByte p) p.init, rfl, fun h => by rw [h]; rfl, ?_⟩,
    fun p k reg => ⟨rfl, ?_⟩⟩
  · simp only [crc, List.foldl_append, List.foldl_cons, List.foldl_nil, crcByte]
  · rw [crcSteps, crcBit_eq]

/-- The register stays within its width (R141, R143). -/
theorem crcRegister_lt {p : CrcParams} (data : List Byte) (hpoly : p.poly < 2 ^ p.width)
    (hinit : p.init < 2 ^ p.width) : data.foldl (crcByte p) p.init < 2 ^ p.width :=
  data.foldlRecOn (motive := fun reg => reg < 2 ^ p.width) (crcByte p) hinit fun reg _ b _ => crcByte_lt hpoly reg b

/-- Settles O41: neither the reflection nor the final XOR leaves the width of the register, which mode I2C_CMD
fixes at eight bits. -/
theorem checksumFitsItsWidth : Obligations.ChecksumFitsItsWidth := by
  intro c data hok
  simp only [Cfg.crcOk, Bool.and_eq_true, decide_eq_true_eq] at hok
  obtain ⟨⟨⟨⟨hcmd, -⟩, hpoly⟩, hinit⟩, hxor⟩ := hok
  have hfits : crc c.crc data < 2 ^ c.crc.width := by
    refine Nat.xor_lt_two_pow ?_ hxor
    split
    · exact reflect_lt_two_pow _ _
    · exact crcRegister_lt data hpoly hinit
  refine ⟨hfits, fun hmode => ?_⟩
  have hwidth : c.crc.width = 8 := by simpa [hmode] using hcmd
  rwa [hwidth] at hfits

/-- Reflection moves every bit by itself, so it distributes over XOR (R149). -/
theorem reflect_xor (n x y : Nat) : reflect n (x ^^^ y) = reflect n x ^^^ reflect n y := by
  apply Nat.eq_of_testBit_eq
  intro i
  simp only [Nat.testBit_xor, reflectReversesTheBits n _ i, Bool.and_xor_distrib_left]

/-- One byte of the XOR of two messages, on the XOR of their registers (R142, R143). -/
theorem crcByte_xor (p : CrcParams) (r r' : Nat) (b b' : Byte) :
    crcByte p (r ^^^ r') (b ^^^ b') = crcByte p r b ^^^ crcByte p r' b' := by
  have hinject : ∀ v v' k : Nat, r ^^^ r' ^^^ (v ^^^ v') <<< k = (r ^^^ v <<< k) ^^^ (r' ^^^ v' <<< k) := by
    intro v v' k
    rw [Nat.shiftLeft_xor_distrib]
    ac_rfl
  unfold crcByte
  rw [← crcSteps_xor, BitVec.toNat_xor, reflect_xor]
  cases p.refIn
  · exact congrArg _ (hinject _ _ _)
  · exact congrArg _ (hinject _ _ _)

/-- The register of the XOR of two messages, with a third register that takes in zeros (R140). -/
theorem foldl_crcByte_zipWith_xor (p : CrcParams) {xs ys : List Byte} (h : xs.length = ys.length) (r r' r'' : Nat) :
    (List.zipWith (· ^^^ ·) xs ys).foldl (crcByte p) (r ^^^ r' ^^^ r'') =
      xs.foldl (crcByte p) r ^^^ ys.foldl (crcByte p) r' ^^^
        (List.replicate xs.length (0 : Byte)).foldl (crcByte p) r'' := by
  induction xs generalizing ys r r' r'' with
  | nil =>
    cases ys with
    | nil => rfl
    | cons y ys => cases h
  | cons x xs ih =>
    cases ys with
    | nil => cases h
    | cons y ys =>
      have hbyte : crcByte p (r ^^^ r' ^^^ r'') (x ^^^ y) = crcByte p r x ^^^ crcByte p r' y ^^^ crcByte p r'' 0 := by
        rw [← crcByte_xor, ← crcByte_xor]
        exact congrArg _ BitVec.xor_zero.symm
      simp only [List.zipWith_cons_cons, List.foldl_cons, List.length_cons, List.replicate_succ, hbyte]
      exact ih (Nat.succ.inj h) _ _ _

/-- Settles O42: the initial value is the XOR of itself thrice, as is the final XOR, and every step between them
is linear. -/
theorem crcIsAffine : Obligations.CrcIsAffine := by
  intro p xs ys hlen
  have hthrice : ∀ v : Nat, v ^^^ v ^^^ v = v := fun v => by rw [Nat.xor_self, Nat.zero_xor]
  have hreg := foldl_crcByte_zipWith_xor p hlen p.init p.init p.init
  rw [hthrice] at hreg
  have hfinal : ∀ u v w x : Nat, u ^^^ v ^^^ w ^^^ x = (u ^^^ x) ^^^ (v ^^^ x) ^^^ (w ^^^ x) := by
    intro u v w x
    apply Nat.eq_of_testBit_eq
    intro i
    simp only [Nat.testBit_xor]
    cases u.testBit i <;> cases v.testBit i <;> cases w.testBit i <;> cases x.testBit i <;> rfl
  unfold crc
  rw [hreg]
  cases p.refOut
  · exact hfinal _ _ _ _
  · simp only [if_true, reflect_xor]
    exact hfinal _ _ _ _

end Sys2Proof.Machine
end

section
/-! A register read (R163, R170 to R174): what each kind of field reads as, and a register of one core provider. -/
namespace Sys2Proof.Machine

/-! One field. -/

theorem readField_of_write (s : State) (a : Nat) {f : FieldDecl} (h : f.acc = .write) : s.readField a f = (0, s) := by
  unfold State.readField; rw [h]

theorem readField_of_no_provider (s : State) (a : Nat) {f : FieldDecl} (h : f.acc = .read ∨ f.acc = .readWrite)
    (hp : f.prov = none) : s.readField a f = (fieldOf f (s.storeAt a), s) := by
  unfold State.readField
  obtain h | h := h <;> simp only [h, hp]

theorem readField_of_provider (s : State) (a : Nat) {f : FieldDecl} {p : Provider}
    (h : f.acc = .read ∨ f.acc = .readWrite) (hp : f.prov = some p) :
    s.readField a f = ((s.callProvider p).1 &&& widthMask f.w, (s.callProvider p).2) := by
  unfold State.readField
  obtain h | h := h <;> simp only [h, hp]

theorem callProvider_device (s : State) (id : Nat) :
    s.callProvider (.device id) =
      ((Config.deviceProvider id s.toDevice).1,
        (s.adoptProvider (Config.deviceProvider id s.toDevice).2.1).emitAll
          ((Config.deviceProvider id s.toDevice).2.2.map Event.diag)) := rfl

/-- A field with no provider reads as its kind and its stored bits say (R170, R172 to R174). -/
theorem readField_value_of_no_provider (s : State) (a : Nat) {f : FieldDecl}
    (h : (f.acc = .read ∨ f.acc = .readWrite) → f.prov = none) :
    (s.readField a f).1 = match f.acc with
      | .read => fieldOf f (s.storeAt a)
      | .readWrite => fieldOf f (s.storeAt a)
      | .write => 0
      | .reservedConstant => f.const &&& widthMask f.w := by
  cases hacc : f.acc with
  | read => rw [readField_of_no_provider s a (.inl hacc) (h (.inl hacc))]
  | readWrite => rw [readField_of_no_provider s a (.inr hacc) (h (.inr hacc))]
  | write => rw [readField_of_write s a hacc]
  | reservedConstant => rw [readField_of_reservedConstant s a hacc]; rfl

/-! A register whose one field has a core provider. -/

/-- A field of eight bits with a provider makes the register read the provider's answer (R163, R170). -/
theorem rfRead_of_provider {s : State} {a : Nat} {r : RegDecl} {f : FieldDecl} {p : Provider}
    (hr : Cfg.regAt s.cfg a = some r) (hfits : regFits r = true) (hf : f ∈ r.fields) (hw : f.w = 8)
    (hacc : f.acc = .read) (hp : f.prov = some p) : s.rfRead a = s.callProvider p := by
  have hoff : f.off = 0 := by
    simpa [fieldFits, hw] using (apart_and_fits_of_regFits hfits).2 f hf
  have hmask : ∀ v : Byte, v &&& widthMask 8 = v := fun v => by
    rw [show widthMask 8 = BitVec.allOnes 8 by decide, BitVec.and_allOnes]
  have hcovered : coveredMask [f] = BitVec.allOnes 8 := by
    rw [coveredMask, coveredMask, hoff, hw]; decide
  rw [rfRead_of_regAt hr, fields_eq_singleton hfits hf hw, hcovered]
  simp [State.readFields, readField_of_provider s a (.inl hacc) hp, hoff, hw, hmask]

/-- A core provider stands on a Read field of eight bits (R320). -/
theorem width_of_core_provider {r : RegDecl} {f : FieldDecl} (hfits : regFits r = true) (hf : f ∈ r.fields)
    (hp : f.prov = some .burst ∨ ∃ k, f.prov = some (.length k)) : f.w = 8 := by
  simp only [regFits, Bool.and_eq_true, List.all_eq_true] at hfits
  have hprov := hfits.2 f hf
  obtain hp | ⟨k, hp⟩ := hp <;> simp [providerFits, hp] at hprov <;> exact hprov.1

theorem exec_lengthRead {s : State} (k : Nat) (hp : s.phase ≠ .absent) :
    exec (.lengthRead k) s = .next (s.begin.respond (.byte (s.begin.lengthByte k))) :=
  exec_eq_next nofun hp rfl

/-- Settles O33: the byte is composed field by field from the states the fields leave, a register with a core
provider holds no other field, and each kind of field reads as its equation says. -/
theorem registerReadTakesEachFieldInOrder : Obligations.RegisterReadTakesEachFieldInOrder := by
  refine ⟨fun s a r hp hr hfits => ⟨?read, fun f hf hprov hacc => ?burst, fun k f hf hprov hacc => ?length⟩,
    fun u a f fs => ⟨rfl, rfl, readField_of_reservedConstant u a, readField_of_write u a,
      fun hacc => ⟨readField_of_no_provider u a hacc, fun id hprov => ?device⟩⟩⟩
  case read =>
    obtain ⟨hfields, huncovered⟩ := rfRead_fields (s := s.begin) hr hfits
    have huntouched := untouched_readFields s.begin a r.fields
    have hstate : (s.begin.rfRead a).2 = (s.begin.readFields a r.fields).2 := by rw [rfRead_of_regAt (s := s.begin) hr]
    rw [exec_rfRead a hp, hstate]
    exact ⟨_, _, rfl, rfl, hfields, huncovered, rfl, huntouched.spi, huntouched.i2c, huntouched.cmd,
      hostMem_readFields s.begin a r.fields⟩
  case burst =>
    have hw := width_of_core_provider hfits hf (.inl hprov)
    rw [exec_rfRead a hp, rfRead_of_provider (s := s.begin) hr hfits hf hw hacc hprov, exec_burstRead hp]
    rfl
  case length =>
    have hw := width_of_core_provider hfits hf (.inr ⟨k, hprov⟩)
    rw [exec_rfRead a hp, rfRead_of_provider (s := s.begin) hr hfits hf hw hacc hprov, exec_lengthRead k hp]
    rfl
  case device =>
    rw [readField_of_provider u a hacc hprov, callProvider_device, emitAll_diags]
    rfl

/-- Settles O34: with no provider no field changes the state, so every field is read in the state before. -/
theorem registerReadWithoutProviders : Obligations.RegisterReadWithoutProviders := by
  intro s a r hp hr hfits hnone
  have hstate : (s.begin.rfRead a).2 = s.begin := by
    rw [rfRead_of_regAt (s := s.begin) hr]
    exact readFields_without_providers s.begin a r.fields hnone
  obtain ⟨hfields, huncovered⟩ := rfRead_fields (s := s.begin) hr hfits
  refine ⟨(s.begin.rfRead a).1, by rw [exec_rfRead a hp, hstate]; rfl, fun f hf => ?_, huncovered⟩
  obtain ⟨j, hj⟩ := List.mem_iff_getElem?.mp hf
  rw [hfields j f hj, readFields_without_providers s.begin a (r.fields.take j)
    fun g hg => hnone g (List.mem_of_mem_take hg)]
  exact readField_value_of_no_provider s.begin a (hnone f hf)

end Sys2Proof.Machine
end

section
/-! A register write (R175 to R179): what is stored before the observers run, which observers run, and that an
observer does by a write what its operation does by itself. -/
namespace Sys2Proof.Machine

/-! The stored byte and the diagnostics. -/

/-- The state in which the observers of a write are called: the byte stored, the diagnostics raised (R175, D16). -/
def State.written (s : State) (a : Nat) (b : Byte) (r : RegDecl) : State :=
  { s with
    store := cellSet s.store a (mergeFields (s.storeAt a) b r.fields)
    events := s.events ++ (r.fields.filterMap (fieldDiag a (s.storeAt a) b)).map Event.diag }

theorem rfWrite_of_regAt {s : State} {a : Nat} {r : RegDecl} (b : Byte) (hr : Cfg.regAt s.cfg a = some r) :
    s.rfWrite a b = (s.written a b r).runObservers a (s.storeAt a) b r.fields := by
  unfold State.rfWrite
  simp only [hr, raiseAll_eq_events]
  rfl

theorem exec_rfWrite_of_regAt {s : State} {a : Nat} {r : RegDecl} (b : Byte) (hp : s.phase ≠ .absent)
    (hr : Cfg.regAt s.cfg a = some r) :
    exec (.rfWrite a b) s = .next ((s.begin.written a b r).runObservers a (s.storeAt a) b r.fields) :=
  (exec_rfWrite a b hp).trans (congrArg _ (rfWrite_of_regAt (s := s.begin) b hr))

/-- An address with storage reads as what was put there. -/
theorem storeAt_of_store_eq {s t : State} {a : Nat} {b : Byte} (h : t.store = cellSet s.store a b)
    (hsome : (cellAt s.store a).isSome = true) : t.storeAt a = b := by
  rw [State.storeAt, h, cellAt_cellSet, if_pos ⟨rfl, hsome⟩, Option.getD_some]

theorem storeAt_of_store_eq_of_ne {s t : State} {a k : Nat} {b : Byte} (h : t.store = cellSet s.store a b)
    (hne : k ≠ a) : t.storeAt k = s.storeAt k := by
  rw [State.storeAt, State.storeAt, h, cellAt_cellSet, if_neg fun hk => hne hk.1]

/-- A declared register has storage (R31). -/
theorem isSome_cellAt_of_regAt {s : State} {a : Nat} {r : RegDecl} (hi : s.Inv) (hr : Cfg.regAt s.cfg a = some r) :
    (cellAt s.store a).isSome = true := by
  rw [hi.storeDom, hr]; rfl

theorem storeAt_written {s : State} {a : Nat} {r : RegDecl} (b : Byte) (hi : s.Inv)
    (hr : Cfg.regAt s.cfg a = some r) : (s.written a b r).storeAt a = mergeFields (s.storeAt a) b r.fields :=
  storeAt_of_store_eq (s := s) rfl (isSome_cellAt_of_regAt hi hr)

/-- A field of a written register has the written bits or its old ones, as its kind says (R175). -/
theorem fieldOf_mergeFields_of_mem {r : RegDecl} {f : FieldDecl} (hfits : regFits r = true) (hf : f ∈ r.fields)
    (old b : Byte) : fieldOf f (mergeFields old b r.fields) = match f.acc with
      | .write => fieldOf f b
      | .readWrite => fieldOf f b
      | .read => fieldOf f old
      | .reservedConstant => fieldOf f old := by
  obtain ⟨hapart, hall⟩ := apart_and_fits_of_regFits hfits
  exact (fieldOf_mergeFields hapart hall old b hf).trans (stores_cases f _ _)

theorem stores_eq_true {f : FieldDecl} : Access.stores f.acc = true ↔ f.acc = .write ∨ f.acc = .readWrite := by
  cases f.acc <;> simp [Access.stores]

theorem fieldOf_written {r : RegDecl} {f : FieldDecl} (hfits : regFits r = true) (hf : f ∈ r.fields)
    (hacc : f.acc = .write ∨ f.acc = .readWrite) (old b : Byte) :
    fieldOf f (mergeFields old b r.fields) = fieldOf f b := by
  obtain ⟨hapart, hall⟩ := apart_and_fits_of_regFits hfits
  rw [fieldOf_mergeFields hapart hall old b hf, if_pos (stores_eq_true.mpr hacc)]

theorem fieldDiag_eq_roFieldWrite {a off : Nat} {old b : Byte} {f : FieldDecl} :
    fieldDiag a old b f = some (.roFieldWrite a off) ↔ f.acc = .read ∧ f.off = off ∧ fieldOf f b ≠ fieldOf f old := by
  unfold fieldDiag
  cases f.acc with
  | read => by_cases h : fieldOf f b = fieldOf f old <;> simp [h]
  | reservedConstant => by_cases h : fieldOf f b = fieldConst f <;> simp [h]
  | write => simp
  | readWrite => simp

theorem fieldDiag_eq_reservedMismatch {a off : Nat} {old b : Byte} {f : FieldDecl} :
    fieldDiag a old b f = some (.reservedMismatch a off) ↔
      f.acc = .reservedConstant ∧ f.off = off ∧ fieldOf f b ≠ fieldConst f := by
  unfold fieldDiag
  cases f.acc with
  | read => by_cases h : fieldOf f b = fieldOf f old <;> simp [h]
  | reservedConstant => by_cases h : fieldOf f b = fieldConst f <;> simp [h]
  | write => simp
  | readWrite => simp

theorem diag_mem_writeEvents {a : Nat} {old b : Byte} {fs : List FieldDecl} {d : Diag} :
    Event.diag d ∈ (fs.filterMap (fieldDiag a old b)).map Event.diag ↔ ∃ g ∈ fs, fieldDiag a old b g = some d := by
  simp

/-! The observers. -/

/-- The observed fields of a write with their observers, in declaration order (R175, R176). -/
def observersOf (c : Cfg) (a : Nat) (fs : List FieldDecl) : List (FieldDecl × Observer) :=
  fs.filterMap fun f =>
    if f.acc = .write ∨ f.acc = .readWrite then (Cfg.observerOf c a f).map (Prod.mk f) else none

/-- The observers are called one after the other, each in the state the one before left. -/
theorem runObservers_eq_foldl (s : State) (a : Nat) (old b : Byte) (fs : List FieldDecl) :
    s.runObservers a old b fs =
      (observersOf s.cfg a fs).foldl (fun u p => u.callObserver (fieldOf p.1 old) (fieldOf p.1 b) p.2) s := by
  induction fs generalizing s with
  | nil => rfl
  | cons f fs ih =>
    rw [runObservers_cons, ih]
    by_cases hacc : f.acc = .write ∨ f.acc = .readWrite
    · rw [if_pos (stores_eq_true.mpr hacc)]
      cases ho : Cfg.observerOf s.cfg a f with
      | none => simp [observersOf, hacc, ho]
      | some o => simp [observersOf, hacc, ho, (keeps_callObserver s (fieldOf f old) (fieldOf f b) o).cfg]
    · rw [if_neg (mt stores_eq_true.mp hacc)]
      simp [observersOf, hacc]

/-- No two fields of a well-formed register stand at one offset (R162). -/
theorem pairwise_off_ne {fs : List FieldDecl} (hapart : allApart fs = true) (hall : ∀ f ∈ fs, fieldFits f = true) :
    fs.Pairwise fun f g => f.off ≠ g.off := by
  induction fs with
  | nil => exact .nil
  | cons f fs ih =>
    simp only [allApart, Bool.and_eq_true, List.all_eq_true] at hapart
    refine List.pairwise_cons.mpr ⟨fun g hg => ?_, ih hapart.2 fun g hg => hall g (List.mem_cons_of_mem _ hg)⟩
    have h1 := hall f List.mem_cons_self
    have h2 := hall g (List.mem_cons_of_mem _ hg)
    have h3 := hapart.1 g hg
    simp [fieldFits, fieldsApart] at h1 h2 h3
    omega

/-- Where one field of a register is observed and no other, a write calls that one observer (R176). -/
theorem runObservers_of_one {s : State} {a : Nat} {r : RegDecl} {f : FieldDecl} {o : Observer} (old b : Byte)
    (hfits : regFits r = true) (hf : f ∈ r.fields) (hacc : f.acc = .write ∨ f.acc = .readWrite)
    (ho : Cfg.observerOf s.cfg a f = some o)
    (hnone : ∀ g ∈ r.fields, g.off ≠ f.off → (g.acc = .write ∨ g.acc = .readWrite) → Cfg.observerOf s.cfg a g = none) :
    s.runObservers a old b r.fields = s.callObserver (fieldOf f old) (fieldOf f b) o := by
  obtain ⟨before, after, hsplit⟩ := List.append_of_mem hf
  obtain ⟨hapart, hall⟩ := apart_and_fits_of_regFits hfits
  have hdistinct := pairwise_off_ne hapart hall
  rw [hsplit, List.pairwise_append, List.pairwise_cons] at hdistinct
  obtain ⟨-, ⟨hafter, -⟩, hbefore⟩ := hdistinct
  rw [hsplit] at hnone
  have hquiet : ∀ g ∈ after, (g.acc = .write ∨ g.acc = .readWrite) → Cfg.observerOf s.cfg a g = none :=
    fun g hg => hnone g (by simp [hg]) (hafter g hg).symm
  rw [hsplit, runObservers_append, runObservers_without_observers s a old b before
      fun g hg => hnone g (by simp [hg]) (hbefore g hg f List.mem_cons_self),
    runObservers_cons, if_pos (stores_eq_true.mpr hacc), ho]
  refine runObservers_without_observers _ a old b after ?_
  rw [(keeps_callObserver s (fieldOf f old) (fieldOf f b) o).cfg]
  exact hquiet

/-- A write of a register with one observed field is the stored byte and that observer (R175, R176). -/
theorem exec_rfWrite_of_observer {s : State} {a : Nat} {r : RegDecl} {f : FieldDecl} {o : Observer} (b : Byte)
    (hp : s.phase ≠ .absent) (hr : Cfg.regAt s.cfg a = some r) (hfits : regFits r = true) (hf : f ∈ r.fields)
    (hacc : f.acc = .write ∨ f.acc = .readWrite) (ho : Cfg.observerOf s.cfg a f = some o)
    (hnone : ∀ g ∈ r.fields, g.off ≠ f.off → (g.acc = .write ∨ g.acc = .readWrite) → Cfg.observerOf s.cfg a g = none) :
    exec (.rfWrite a b) s =
      .next ((s.begin.written a b r).callObserver (fieldOf f (s.storeAt a)) (fieldOf f b) o) := by
  rw [exec_rfWrite_of_regAt b hp hr]
  exact congrArg _ (runObservers_of_one (s := s.begin.written a b r) _ b hfits hf hacc ho hnone)

/-! An observer called inside a write and invoked by itself. -/

/-- `u` gone on by what an operation begun in `u` did to reach `t`: the answer of `u` stands, and the events of
`t` come after those of `u`. -/
def State.resume (u t : State) : State := { t with phase := u.phase, resp := u.resp, events := u.events ++ t.events }

theorem resume_begin (u : State) : u.resume u.begin = u := by
  rw [State.resume, State.begin_events, List.append_nil]; rfl

theorem resume_raise (u : State) (d : Diag) : u.resume (u.begin.raise d) = u.raise d := rfl

theorem resume_push (u : State) : u.resume u.begin.push = u.push := by
  rw [push_eq, push_eq]; rfl

theorem resume_doCapture (u : State) : u.resume u.begin.doCapture = u.doCapture := by
  rw [doCapture_eq, doCapture_eq, State.resume]
  simp only [State.begin_events, List.append_nil]
  rfl

theorem captureObserver_of_trigger {s : State} (old : Byte) {new : Byte} (h : s.cfg.triggerCond = .anyWrite ∨ new ≠ 0) :
    s.captureObserver old new = s.doCapture := by
  unfold State.captureObserver
  cases hc : s.cfg.triggerCond with
  | anyWrite => rfl
  | writeNonzero => rw [hc] at h; exact if_neg (h.resolve_left nofun)

theorem captureObserver_of_no_trigger {s : State} (old : Byte) {new : Byte}
    (h : s.cfg.triggerCond = .writeNonzero ∧ new = 0) : s.captureObserver old new = s := by
  unfold State.captureObserver; rw [h.1]; exact if_pos h.2

theorem resume_captureObserver (u : State) (old new : Byte) :
    u.resume (u.begin.captureObserver old new) = u.captureObserver old new := by
  by_cases h : u.cfg.triggerCond = .writeNonzero ∧ new = 0
  · rw [captureObserver_of_no_trigger old h, captureObserver_of_no_trigger (s := u.begin) old h, resume_begin]
  · have htrigger : u.cfg.triggerCond = .anyWrite ∨ new ≠ 0 := by
      cases hc : u.cfg.triggerCond with
      | anyWrite => exact .inl rfl
      | writeNonzero => exact .inr fun hn => h ⟨hc, hn⟩
    rw [captureObserver_of_trigger old htrigger, captureObserver_of_trigger (s := u.begin) old htrigger,
      resume_doCapture]

theorem dmaObserver_of_no_edge (s : State) {old new : Byte} (h : ¬ (old = 0 ∧ new = 1)) :
    s.dmaObserver old new = s := by
  unfold State.dmaObserver; rw [if_neg h]

theorem resume_dmaObserver_rising (u : State) : u.resume (u.begin.dmaObserver 0 1) = u.dmaObserver 0 1 := by
  rw [dmaObserver_rising, dmaObserver_rising]
  by_cases hflag : u.flag u.cfg.streamEnField = 0
  · rw [if_pos hflag, if_pos (show u.begin.flag u.begin.cfg.streamEnField = 0 from hflag), resume_raise]
  · rw [if_neg hflag, if_neg (show ¬ u.begin.flag u.begin.cfg.streamEnField = 0 from hflag)]
    by_cases hatt : u.attached = true
    · rw [if_pos hatt, if_pos (show u.begin.attached = true from hatt), resume_push]
    · rw [if_neg hatt, if_neg (show ¬ u.begin.attached = true from hatt), resume_raise]

theorem exec_capture {s : State} (old new : Byte) (hp : s.phase ≠ .absent) :
    exec (.capture old new) s = .next (s.begin.captureObserver old new) :=
  exec_eq_next nofun hp rfl

theorem exec_dmaEnable {s : State} (old new : BitVec 1) (hp : s.phase ≠ .absent) (hd : s.cfg.dma = true) :
    exec (.dmaEnable old new) s = .next (s.begin.dmaObserver (old.setWidth 8) (new.setWidth 8)) :=
  exec_eq_next nofun hp hd

theorem exec_dmaEnable_rising {s : State} (hp : s.phase ≠ .absent) (hd : s.cfg.dma = true) :
    exec (.dmaEnable 0 1) s = .next (s.begin.dmaObserver 0 1) :=
  exec_dmaEnable 0 1 hp hd

theorem callObserver_device (s : State) (old new : Byte) (id : Nat) :
    s.callObserver old new (.device id) =
      (s.adoptObserver (Config.deviceObserver id old new s.toDevice).1).emitAll
        (Config.deviceObserver id old new s.toDevice).2 := rfl

/-- Settles O36: the write is the stored byte with its diagnostics and then the observers in order; what an
observer does is what its operation does, resumed after the events so far. -/
theorem registerWriteStoresThenObserves : Obligations.RegisterWriteStoresThenObserves := by
  refine ⟨fun s a b r hp hr hfits => ⟨?write, fun f hf => fieldOf_mergeFields_of_mem hfits hf _ b,
      mergeFields_uncovered r.fields _ b⟩,
    fun u hp => ⟨fun old new => ⟨_, exec_capture old new hp, (resume_captureObserver u old new).symm⟩,
      fun hd => ⟨_, exec_dmaEnable_rising hp hd, (resume_dmaObserver_rising u).symm⟩,
      fun old new hedge => dmaObserver_of_no_edge u hedge, fun old new id => ?device⟩⟩
  case write => rw [exec_rfWrite_of_regAt b hp hr, runObservers_eq_foldl]; rfl
  case device => rw [callObserver_device, emitAll_eq_events]; rfl

/-- Settles O37: with no observer the next state is the one in which the byte is stored, and a diagnostic among
its events is that of the one field at its offset. -/
theorem registerWriteWithoutObservers : Obligations.RegisterWriteWithoutObservers := by
  intro s a b r hp hi hr hfits hnone
  obtain ⟨hapart, hall⟩ := apart_and_fits_of_regFits hfits
  have hexec : exec (.rfWrite a b) s = .next (s.begin.written a b r) := by
    rw [exec_rfWrite_of_regAt b hp hr,
      runObservers_without_observers (s.begin.written a b r) a (s.storeAt a) b r.fields hnone]
  refine ⟨_, hexec, rfl, fun k hk => ?others, fun f hf => ?fields, fun f hf hacc => ?readOnly,
    fun f hf hacc => ?reserved⟩
  case others => exact (cellAt_cellSet s.store a k _).trans (if_neg fun h => hk h.1)
  case fields =>
    rw [storeAt_written (s := s.begin) b (inv_begin hi) hr]
    exact fieldOf_mergeFields_of_mem hfits hf _ b
  case readOnly =>
    refine diag_mem_writeEvents.trans ⟨fun ⟨g, hg, hdiag⟩ => ?_, fun hne => ⟨f, hf, ?_⟩⟩
    · obtain ⟨-, hoff, hne⟩ := fieldDiag_eq_roFieldWrite.mp hdiag
      rwa [eq_of_off_eq hapart hall hg hf hoff] at hne
    · exact fieldDiag_eq_roFieldWrite.mpr ⟨hacc, rfl, hne⟩
  case reserved =>
    refine diag_mem_writeEvents.trans ⟨fun ⟨g, hg, hdiag⟩ => ?_, fun hne => ⟨f, hf, ?_⟩⟩
    · obtain ⟨-, hoff, hne⟩ := fieldDiag_eq_reservedMismatch.mp hdiag
      rwa [eq_of_off_eq hapart hall hg hf hoff] at hne
    · exact fieldDiag_eq_reservedMismatch.mpr ⟨hacc, rfl, hne⟩

end Sys2Proof.Machine
end

section
/-! The core's flags (R40, R45): a flag and the storage behind it, and what setting a flag leaves of its register. -/
namespace Sys2Proof.Machine

theorem fieldOf_zero (g : FieldDecl) : fieldOf g 0 = 0 := by
  simp [fieldOf, getBits]

theorem fieldOf_setBits_zero (g : FieldDecl) (x : Byte) : fieldOf g (setBits x g.off g.w 0) = 0 := by
  apply byte_eq_of_bits
  intro i hi
  rw [bit_fieldOf, bit_setBits]
  by_cases hin : g.off + i < 8
  · by_cases hw : i < g.w <;> simp [hin, hw]
  · have habove : x.getLsbD (g.off + i) = false := BitVec.getLsbD_of_ge x _ (by omega)
    simp [hin, habove]

theorem fieldOf_setBits_one {g : FieldDecl} (hfits : fieldFits g = true) (x : Byte) :
    fieldOf g (setBits x g.off g.w 1) = 1 := by
  simp [fieldFits] at hfits
  apply byte_eq_of_bits
  intro i hi
  rw [bit_fieldOf, bit_setBits]
  by_cases hw : i < g.w
  · have hin : g.off + i < 8 := by omega
    simp [hin, hw]
  · have hpos : i ≠ 0 := by omega
    simp [hw, hpos]

/-- A flag is a matter of the storage and the configuration alone. -/
theorem flag_congr {s t : State} (hs : t.store = s.store) (hc : t.cfg = s.cfg) (r : Option FieldRef) :
    t.flag r = s.flag r := by
  unfold State.flag State.storeAt
  rw [hs, hc]

theorem flag_of_fieldAt {s : State} {rr : FieldRef} {g : FieldDecl} (hg : Cfg.fieldAt s.cfg rr = some g) :
    s.flag (some rr) = fieldOf g (s.storeAt rr.addr) := by
  unfold State.flag; simp only [hg]

theorem setFlag_of_fieldAt {s : State} {rr : FieldRef} {g : FieldDecl} (hg : Cfg.fieldAt s.cfg rr = some g) (v : Byte) :
    s.setFlag (some rr) v = s.setStore rr.addr (setBits (s.storeAt rr.addr) g.off g.w v) := by
  unfold State.setFlag; simp only [hg]

theorem flag_setFlag {s : State} {rr : FieldRef} {g : FieldDecl} (hg : Cfg.fieldAt s.cfg rr = some g)
    (hsome : (cellAt s.store rr.addr).isSome = true) (v : Byte) :
    (s.setFlag (some rr) v).flag (some rr) = fieldOf g (setBits (s.storeAt rr.addr) g.off g.w v) := by
  rw [flag_of_fieldAt (s := s.setFlag (some rr) v) ((setFlag_cfg s _ v).symm ▸ hg), setFlag_of_fieldAt hg]
  exact congrArg (fieldOf g) (storeAt_of_store_eq rfl hsome)

/-- A flag that is set has a field and storage behind it (log entry 12). -/
theorem exists_fieldAt_of_flag_ne_zero {s : State} {r : Option FieldRef} (h : s.flag r ≠ 0) :
    ∃ rr g, r = some rr ∧ Cfg.fieldAt s.cfg rr = some g ∧ (cellAt s.store rr.addr).isSome = true := by
  cases r with
  | none => exact absurd rfl h
  | some rr =>
    cases hg : Cfg.fieldAt s.cfg rr with
    | none => exact absurd (by unfold State.flag; simp only [hg]) h
    | some g =>
      refine ⟨rr, g, rfl, hg, ?_⟩
      cases hcell : cellAt s.store rr.addr with
      | some b => rfl
      | none =>
        rw [flag_of_fieldAt hg, State.storeAt, hcell, Option.getD_none, fieldOf_zero] at h
        exact absurd rfl h

/-- Clearing a flag that is set leaves it clear. -/
theorem flag_setFlag_zero {s : State} {r : Option FieldRef} (h : s.flag r ≠ 0) : (s.setFlag r 0).flag r = 0 := by
  obtain ⟨rr, g, rfl, hg, hsome⟩ := exists_fieldAt_of_flag_ne_zero h
  rw [flag_setFlag hg hsome, fieldOf_setBits_zero]

/-- The field a name stands for is one of the register at its address, at its offset. -/
theorem mem_of_fieldAt {c : Cfg} {rr : FieldRef} {g : FieldDecl} {r : RegDecl} (hg : Cfg.fieldAt c rr = some g)
    (hr : Cfg.regAt c rr.addr = some r) : g ∈ r.fields ∧ g.off = rr.off := by
  unfold Cfg.fieldAt at hg
  simp only [hr] at hg
  exact ⟨List.mem_of_find?_eq_some hg, by simpa using List.find?_some hg⟩

theorem flag_of_mem {s : State} {a : Nat} {r : RegDecl} {g : FieldDecl} (hr : Cfg.regAt s.cfg a = some r)
    (hfits : regFits r = true) (hg : g ∈ r.fields) :
    s.flag (some { addr := a, off := g.off }) = fieldOf g (s.storeAt a) :=
  flag_of_fieldAt (fieldAt_of_mem hr hfits hg)

/-- A named field has storage (R31). -/
theorem isSome_cellAt_of_fieldAt {s : State} {rr : FieldRef} {g : FieldDecl} (hi : s.Inv)
    (hg : Cfg.fieldAt s.cfg rr = some g) : (cellAt s.store rr.addr).isSome = true := by
  unfold Cfg.fieldAt at hg
  rw [hi.storeDom]
  cases hr : Cfg.regAt s.cfg rr.addr with
  | none => simp only [hr] at hg; cases hg
  | some r => rfl

/-- Setting a flag leaves every other field of a well-formed register as it was. -/
theorem fieldOf_storeAt_setFlag_of_ne {s : State} {a : Nat} {r : RegDecl} {f : FieldDecl} {ref : Option FieldRef}
    (hr : Cfg.regAt s.cfg a = some r) (hfits : regFits r = true) (hf : f ∈ r.fields)
    (hne : ref ≠ some { addr := a, off := f.off }) (v : Byte) :
    fieldOf f ((s.setFlag ref v).storeAt a) = fieldOf f (s.storeAt a) := by
  cases ref with
  | none => rfl
  | some rr =>
    cases hg : Cfg.fieldAt s.cfg rr with
    | none => unfold State.setFlag; simp only [hg]
    | some g =>
      rw [setFlag_of_fieldAt hg]
      by_cases haddr : a = rr.addr
      · subst haddr
        obtain ⟨hmem, hoff⟩ := mem_of_fieldAt hg hr
        have hfg : f ≠ g := fun h => hne (by rw [h, hoff])
        by_cases hsome : (cellAt s.store rr.addr).isSome = true
        · rw [storeAt_of_store_eq (State.setStore_store s _ _) hsome]
          exact fieldOf_setBits_of_ne (apart_and_fits_of_regFits hfits).1 hf hmem hfg _ v
        · rw [State.storeAt, State.setStore_store, cellAt_cellSet, if_neg fun h => hsome h.2, State.storeAt]
      · rw [storeAt_of_store_eq_of_ne (State.setStore_store s _ _) haddr]

end Sys2Proof.Machine
end

section
/-! Capture, burst and length (R289 to R297): the operations by themselves, and a capture by a register write. -/
namespace Sys2Proof.Machine

/-- Settles O43: the trigger condition decides whether the observer captures; a capture is everything it does. -/
theorem captureFillsTheActiveBuffer : Obligations.CaptureFillsTheActiveBuffer := by
  intro s old new hp
  refine ⟨fun hnone => ?_, fun htrigger => ?_⟩
  · rw [exec_capture old new hp, captureObserver_of_no_trigger (s := s.begin) old hnone]; rfl
  · rw [exec_capture old new hp, captureObserver_of_trigger (s := s.begin) old htrigger, doCapture_eq]; rfl

/-- The field named by P_TRIGGER_FIELD is observed by CAPTURE (R45, R291). -/
theorem observerOf_trigger {c : Cfg} {a : Nat} {f : FieldDecl} (h : c.triggerField = some { addr := a, off := f.off }) :
    Cfg.observerOf c a f = some .capture := by
  unfold Cfg.observerOf; rw [if_pos h]

theorem doCapture_store (s : State) : s.doCapture.store = (s.setFlag s.cfg.readyField 1).store := by
  rw [doCapture_eq, setFlag_eq]

/-- A capture sets READY where the flag has a field that fits and storage behind it (R292). -/
theorem flag_doCapture {s : State} {rr : FieldRef} {g : FieldDecl} (hready : s.cfg.readyField = some rr)
    (hg : Cfg.fieldAt s.cfg rr = some g) (hfits : fieldFits g = true)
    (hsome : (cellAt s.store rr.addr).isSome = true) : s.doCapture.flag s.doCapture.cfg.readyField = 1 := by
  have hcfg : s.doCapture.cfg = s.cfg := (keeps_doCapture s).cfg
  rw [hcfg, flag_congr (doCapture_store s) (hcfg.trans (setFlag_cfg s _ 1).symm), hready, flag_setFlag hg hsome,
    fieldOf_setBits_one hfits]

/-- A capture changes no register but that of READY (R292). -/
theorem cellAt_doCapture_of_ne {s : State} {rr : FieldRef} {g : FieldDecl} {k : Nat}
    (hready : s.cfg.readyField = some rr) (hg : Cfg.fieldAt s.cfg rr = some g) (hk : k ≠ rr.addr) :
    cellAt s.doCapture.store k = cellAt s.store k := by
  rw [doCapture_store, hready, setFlag_of_fieldAt hg, State.setStore_store, cellAt_cellSet, if_neg fun h => hk h.1]

theorem doCapture_cur (s : State) : s.doCapture.cur = 0 := by rw [doCapture_eq]

theorem doCapture_hostMem (s : State) : s.doCapture.hostMem = s.hostMem := by rw [doCapture_eq]

/-- Settles O44: the one observer of the write is the capture, on the state with the byte stored, and it sets
READY after that. -/
theorem captureByAWriteLeavesReadySet : Obligations.CaptureByAWriteLeavesReadySet := by
  intro s a b r f rr g hp hi hr hfits hf htrigger hacc hnone hcond hready hg hgfits
  have hexec : exec (.rfWrite a b) s = .next (s.begin.written a b r).doCapture := by
    rw [exec_rfWrite_of_observer b hp hr hfits hf hacc (observerOf_trigger htrigger) hnone]
    exact congrArg _ (captureObserver_of_trigger (s := s.begin.written a b r) (fieldOf f (s.storeAt a)) hcond)
  have hsome : (cellAt (s.begin.written a b r).store rr.addr).isSome = true :=
    (isSome_cellAt_cellSet _ _ _ _).trans (isSome_cellAt_of_fieldAt (s := s.begin) (inv_begin hi) hg)
  refine ⟨_, hexec, flag_doCapture hready hg hgfits hsome, doCapture_cur _,
    (untouched_doCapture _).live, doCapture_hostMem _, fun k hka hkr => ?_⟩
  rw [cellAt_doCapture_of_ne (s := s.begin.written a b r) hready hg hkr]
  exact (cellAt_cellSet s.store a k _).trans (if_neg fun h => hka h.1)

/-- Burst reads answer as many bytes as they are, from the cursor on (R295). -/
theorem runAll_burstRead {s : State} {n : Nat} (hp : s.phase ≠ .absent) (hn : s.cur + n = s.buf.length) :
    ∃ t, runAll (List.replicate n .burstRead) s = some ((s.buf.drop s.cur).map Response.byte, t) ∧
      t.toDevice = { s.toDevice with cur := s.buf.length } ∧ t.hostMem = s.hostMem := by
  induction n generalizing s with
  | zero =>
    refine ⟨s, ?_, ?_, rfl⟩
    · rw [List.drop_eq_nil_of_le (by omega)]; rfl
    · rw [← hn, Nat.add_zero]
  | succ n ih =>
    have hlt : s.cur < s.buf.length := by omega
    have hexec := (burstRead s hp).1 _ (List.getElem?_eq_getElem hlt)
    obtain ⟨t, hrun, hdev, hmem⟩ := ih (s := { s with
      cur := s.cur + 1, phase := .running, resp := .byte s.buf[s.cur], events := [] }) nofun
      (show s.cur + 1 + n = s.buf.length by omega)
    refine ⟨t, ?_, hdev, hmem⟩
    rw [List.replicate_succ, runAll_cons hexec, hrun, List.drop_eq_getElem_cons hlt]
    rfl

/-- Settles O46: each read moves the cursor by one, so the reads left are as many as the bytes left. -/
theorem burstReadsDrainTheBuffer : Obligations.BurstReadsDrainTheBuffer :=
  fun _ hp hcur => runAll_burstRead hp (Nat.add_sub_cancel' hcur)

/-- Settles O47: shifting right by whole bytes divides by a power of 256, and a byte keeps the remainder. -/
theorem lengthReadGivesByteK : Obligations.LengthReadGivesByteK := by
  intro s k hp
  refine ⟨s.lengthByte k, exec_lengthRead k hp, ?_⟩
  rw [State.lengthByte, BitVec.toNat_ofNat, Nat.shiftRight_eq_div_pow, Nat.pow_mul]

end Sys2Proof.Machine
end

section
/-! The DMA push (R299 to R304): the three ends of a rising edge, by itself and by a register write. -/
namespace Sys2Proof.Machine

/-! A rising edge. -/

theorem dmaObserver_of_stream_clear {s : State} (h : s.flag s.cfg.streamEnField = 0) :
    s.dmaObserver 0 1 = s.raise .dmaStreamNotEnabled := by
  rw [dmaObserver_rising, if_pos h]

theorem dmaObserver_of_no_source {s : State} (h : s.flag s.cfg.streamEnField ≠ 0) (hlive : s.live = false)
    (hframes : s.frames = []) : s.dmaObserver 0 1 = s.raise .dmaNoSource := by
  have hatt : s.attached = false := by simp [State.attached, hlive, hframes]
  rw [dmaObserver_rising, if_neg h, hatt, if_neg Bool.false_ne_true]

theorem dmaObserver_of_source {s : State} (h : s.flag s.cfg.streamEnField ≠ 0)
    (hsource : s.live = true ∨ s.frames ≠ []) : s.dmaObserver 0 1 = s.push := by
  have hatt : s.attached = true := by simpa [State.attached] using hsource
  rw [dmaObserver_rising, if_neg h, if_pos hatt]

/-! The push. -/

/-- The frame that the source gives next (R289, R290, R303). -/
def State.sourceFrame (s : State) : Frame :=
  if s.live then s.liveIn.head?.getD (Config.liveFrame s.draws) else (s.frames[s.fidx]?).getD []

theorem push_hostMem (s : State) : s.push.hostMem = cellPutAll s.hostMem s.dmaAddress s.sourceFrame := by
  rw [push_eq]; rfl

theorem push_store (s : State) : s.push.store = (s.setFlag s.cfg.streamEnField 0).store := by
  rw [push_eq, setFlag_eq]

theorem flag_push {s : State} (h : s.flag s.cfg.streamEnField ≠ 0) : s.push.flag s.push.cfg.streamEnField = 0 := by
  have hcfg : s.push.cfg = s.cfg := (keeps_push s).cfg
  rw [hcfg, flag_congr (push_store s) (hcfg.trans (setFlag_cfg s _ 0).symm), flag_setFlag_zero h]

/-- With a source attached, a push moves a frame store in use on round the store (R286, R301). -/
theorem push_eq_of_source {s : State} (hsource : s.live = true ∨ s.frames ≠ []) :
    s.push = { s with
      fidx := if s.live then s.fidx else (s.fidx + 1) % s.frames.length
      liveIn := if s.live then s.liveIn.tail else s.liveIn
      draws := if s.live ∧ s.liveIn = [] then s.draws + 1 else s.draws
      store := (s.setFlag s.cfg.streamEnField 0).store
      hostMem := s.push.hostMem
      events := s.events ++ [.hostWrite s.dmaAddress s.sourceFrame, .irqPulse] } := by
  rw [push_eq, setFlag_eq]
  obtain hlive | hframes := hsource
  · simp [hlive, State.sourceFrame]
  · simp [hframes, State.sourceFrame]

/-- What a rising edge does to storage: nothing, or STREAM_EN is cleared (R301). -/
theorem dmaObserver_store (s : State) :
    (s.dmaObserver 0 1).store = s.store ∨ (s.dmaObserver 0 1).store = (s.setFlag s.cfg.streamEnField 0).store := by
  rw [dmaObserver_rising]
  split
  · exact .inl rfl
  · split
    · exact .inr (push_store s)
    · exact .inl rfl

/-! A register write with DMA_EN as its one observed field. -/

/-- Settles O48: by itself an abort is its diagnostic; by a write it comes on the state with the byte stored,
in which both flags of the byte have the written bits. -/
theorem abortedDmaEnable : Obligations.AbortedDmaEnable := by
  refine ⟨fun s hp hd => ⟨fun hclear => ?_, fun hset hlive hframes => ?_⟩, ?byWrite⟩
  · rw [exec_dmaEnable_rising hp hd, dmaObserver_of_stream_clear (s := s.begin) hclear]; rfl
  · rw [exec_dmaEnable_rising hp hd, dmaObserver_of_no_source (s := s.begin) hset hlive hframes]; rfl
  case byWrite =>
    intro s u a b r f hp hi hr hfits hf hacc ho hnone hu
    obtain rfl : u = s.begin.written a b r := hu
    have hstored := storeAt_written (s := s.begin) b (inv_begin hi) hr
    have hexec := exec_rfWrite_of_observer b hp hr hfits hf hacc ho hnone
    refine ⟨?dmaEn, fun g hg hstream hgacc => ?streamEn, fun hedge => ?noEdge, fun h0 h1 hclear => ?clear,
      fun h0 h1 hset hlive hframes => ?noSource⟩
    case dmaEn => rw [hstored]; exact fieldOf_written hfits hf hacc _ b
    case streamEn =>
      have hstream' : (s.begin.written a b r).cfg.streamEnField = some { addr := a, off := g.off } := hstream
      rw [hstream', flag_of_mem (s := s.begin.written a b r) hr hfits hg, hstored]
      exact fieldOf_written hfits hg hgacc _ b
    case noEdge => rw [hexec]; exact congrArg _ (dmaObserver_of_no_edge _ hedge)
    case clear => rw [hexec, h0, h1]; exact congrArg _ (dmaObserver_of_stream_clear hclear)
    case noSource => rw [hexec, h0, h1]; exact congrArg _ (dmaObserver_of_no_source hset hlive hframes)

theorem not_rising_setWidth {old new : BitVec 1} (h : ¬ (old = 0 ∧ new = 1)) :
    ¬ (old.setWidth 8 = 0 ∧ new.setWidth 8 = 1) := by
  revert old new; decide

/-- An operation begun in a running state with nothing answered is resumed by its events alone. -/
theorem resume_of_running {u t : State} (hp : t.phase = u.phase) (hr : t.resp = u.resp) :
    u.resume t = { t with events := u.events ++ t.events } := by
  rw [State.resume, ← hp, ← hr]

/-- Settles O49: the push is known field by field, its frame lands by the laws of host memory, and by a write
the same push is resumed after the write's diagnostics. -/
theorem dmaPush : Obligations.DmaPush := by
  refine ⟨fun s old new hp hd hedge => ?noEdge, fun s hp hd hset hsource => ?push, ?byWrite⟩
  case noEdge =>
    rw [exec_dmaEnable old new hp hd, dmaObserver_of_no_edge _ (not_rising_setWidth hedge)]; rfl
  case push =>
    have hexec : exec (.dmaEnable 0 1) s = .next s.begin.push :=
      (exec_dmaEnable_rising hp hd).trans (congrArg _ (dmaObserver_of_source (s := s.begin) hset hsource))
    refine ⟨s.begin.push, s.begin.sourceFrame, hexec, rfl, fun i hi => ?inside, fun k hk => ?outside,
      flag_push (s := s.begin) hset, ?state⟩
    case inside =>
      rw [push_hostMem, List.getElem?_eq_getElem hi]
      exact cellAt_cellPutAll_inside _ _ i _ hi
    case outside =>
      rw [push_hostMem]
      exact cellAt_cellPutAll_outside _ _ k _ hk
    case state =>
      refine (push_eq_of_source (s := s.begin) hsource).trans ?_
      rw [setFlag_eq]
      rfl
  case byWrite =>
    intro s u a b r f hp hi hr hfits hf hacc ho hnone hu h0 h1
    obtain rfl : u = s.begin.written a b r := hu
    have hexec := exec_rfWrite_of_observer b hp hr hfits hf hacc ho hnone
    have hobserver : (s.begin.written a b r).callObserver 0 1 .dmaEnable =
        (s.begin.written a b r).resume ((s.begin.written a b r).begin.dmaObserver 0 1) :=
      (resume_dmaObserver_rising _).symm
    refine ⟨_, exec_dmaEnable_rising (s := s.begin.written a b r) nofun (dma_of_observerOf ho), ?_, fun hother => ?_⟩
    · rw [hexec, h0, h1, hobserver]
      exact congrArg _ (resume_of_running (u := s.begin.written a b r) (keeps_dmaObserver _ 0 1).phase
        (untouched_dmaObserver _ 0 1).resp)
    · have hkept : fieldOf f (((s.begin.written a b r).begin.dmaObserver 0 1).storeAt a) =
          fieldOf f ((s.begin.written a b r).storeAt a) := by
        obtain hstore | hstore := dmaObserver_store (s.begin.written a b r).begin
        · rw [State.storeAt, hstore]; rfl
        · rw [State.storeAt, hstore]
          exact fieldOf_storeAt_setFlag_of_ne (s := (s.begin.written a b r).begin) hr hfits hf hother 0
      rw [hkept, storeAt_written (s := s.begin) b (inv_begin hi) hr]
      exact fieldOf_written hfits hf hacc _ b

end Sys2Proof.Machine
end

section
/-! The host port (R280 to R288, R321 to R327): ingestion, the frame store and the measurements. -/
namespace Sys2Proof.Machine

/-- Settles O50: every ingestion operation is selected in every mode, and its effect is the next state. -/
theorem ingestionOperations : Obligations.IngestionOperations := by
  intro s v vs target hp
  exact ⟨exec_eq_next (i := .feedSample v) nofun hp rfl, exec_eq_next (i := .feedSamples vs) nofun hp rfl,
    exec_eq_next (i := .loadPath .samples (.bytes vs)) nofun hp rfl,
    exec_eq_next (i := .loadPath .frame (.bytes vs)) nofun hp rfl,
    exec_eq_next (i := .loadPath target .fail) nofun hp rfl, exec_eq_next (i := .attachLive) nofun hp rfl,
    exec_eq_next (i := .detachLive) nofun hp rfl⟩

/-! The frame store (R285 to R287). -/

theorem exec_addFrame {s : State} (f : Frame) (hp : s.phase ≠ .absent) :
    exec (.addFrame f) s = .next ((s.begin.appendFrame f).respond .ok) :=
  exec_eq_next nofun hp rfl

theorem exec_readFrame {s : State} (hp : s.phase ≠ .absent) :
    exec .readFrame s = .next (s.begin.nextFrame.2.respond (.bytes s.begin.nextFrame.1)) :=
  exec_eq_next nofun hp rfl

theorem nextFrame_of_empty {s : State} (h : s.frames = []) : s.nextFrame = ([], s.raise .frameStoreEmpty) := by
  unfold State.nextFrame; rw [h]

/-- A frame at the index shows that the store is not empty. -/
theorem nextFrame_of_getElem? {s : State} {g : Frame} (h : s.frames[s.fidx]? = some g) :
    s.nextFrame = (g, { s with fidx := (s.fidx + 1) % s.frames.length }) := by
  unfold State.nextFrame
  split
  · rename_i hempty; rw [hempty] at h; cases h
  · rw [h]; rfl

/-- A read answers the frame at the index and moves the index on round the store (R286). -/
theorem exec_readFrame_of_getElem? {s : State} {g : Frame} (hp : s.phase ≠ .absent) (hg : s.frames[s.fidx]? = some g) :
    exec .readFrame s =
      .next (({ s.begin with fidx := (s.fidx + 1) % s.frames.length }).respond (.bytes g)) := by
  rw [exec_readFrame hp, nextFrame_of_getElem? (s := s.begin) hg]; rfl

/-- Settles O51: the store's operations are their effects, and a read finds the frame at the index or none at all. -/
theorem frameStoreOperations : Obligations.FrameStoreOperations := by
  intro s f hp
  refine ⟨exec_addFrame f hp, exec_eq_next (i := .dropFrames) nofun hp rfl,
    exec_eq_next (i := .loadActive f) nofun hp rfl, fun hempty => ?_, fun g hg => ?_⟩
  · rw [exec_readFrame hp, nextFrame_of_empty (s := s.begin) hempty]; rfl
  · exact exec_readFrame_of_getElem? hp hg

/-- Adding frames one by one appends them in order (R285). -/
theorem runAll_addFrame {s : State} (fs : List Frame) (hp : s.phase ≠ .absent) :
    ∃ t, runAll (fs.map Instr.addFrame) s = some (fs.map fun _ => Response.ok, t) ∧
      t.toDevice = { s.toDevice with frames := s.frames ++ fs } ∧ t.phase ≠ .absent := by
  induction fs generalizing s with
  | nil => exact ⟨s, rfl, by rw [List.append_nil], hp⟩
  | cons f fs ih =>
    obtain ⟨t, hrun, hdev, hpt⟩ := ih (s := (s.begin.appendFrame f).respond .ok)
      (show Phase.running ≠ .absent from nofun)
    refine ⟨t, ?_, hdev.trans ?_, hpt⟩
    · rw [List.map_cons, runAll_cons (exec_addFrame f hp), hrun]; rfl
    · show ({ s.toDevice with frames := s.frames ++ [f] ++ fs } : Device) = _
      rw [List.append_assoc, List.singleton_append]

/-- Reading from a place in the store to its end answers the frames from there on and goes round to index 0 (R286). -/
theorem runAll_readFrame {s : State} {before after : List Frame} (hp : s.phase ≠ .absent)
    (hframes : s.frames = before ++ after) (hidx : s.fidx = before.length) (hafter : after ≠ []) :
    ∃ t, runAll (List.replicate after.length .readFrame) s = some (after.map Response.bytes, t) ∧
      t.toDevice = { s.toDevice with fidx := 0 } ∧ t.phase ≠ .absent := by
  induction after generalizing s before with
  | nil => exact absurd rfl hafter
  | cons g rest ih =>
    have hg : s.frames[s.fidx]? = some g := by rw [hframes, hidx]; simp
    have hexec := exec_readFrame_of_getElem? hp hg
    have hlen : s.frames.length = before.length + 1 + rest.length := by
      rw [hframes, List.length_append, List.length_cons]; omega
    cases hrest : rest with
    | nil =>
      have hround : (s.fidx + 1) % s.frames.length = 0 := by
        rw [hlen, hidx, hrest, List.length_nil, Nat.add_zero, Nat.mod_self]
      exact ⟨_, runAll_cons hexec, by rw [← hround]; rfl, (show Phase.running ≠ .absent from nofun)⟩
    | cons g' rest' =>
      have hnext : (s.fidx + 1) % s.frames.length = (before ++ [g]).length := by
        rw [hlen, hidx, hrest, List.length_append, List.length_singleton]
        exact Nat.mod_eq_of_lt (by rw [List.length_cons]; omega)
      obtain ⟨t, hrun, hdev, hpt⟩ := ih
        (s := ({ s.begin with fidx := (s.fidx + 1) % s.frames.length }).respond (.bytes g)) (before := before ++ [g])
        (show Phase.running ≠ .absent from nofun) (by rw [List.append_assoc]; exact hframes) hnext
        (by rw [hrest]; nofun)
      rw [← hrest]
      refine ⟨t, ?_, hdev, hpt⟩
      rw [List.length_cons, List.replicate_succ, runAll_cons hexec, hrun]
      rfl

/-- Settles O52: after the frames are added, one round of reads comes back to index 0, and so does a second. -/
theorem framesComeRoundTwice : Obligations.FramesComeRoundTwice := by
  intro s fs hp hframes hidx hfs
  obtain ⟨t, hadd, hdev, hpt⟩ := runAll_addFrame fs hp
  have htframes : t.frames = [] ++ fs := (congrArg Device.frames hdev).trans (by rw [hframes])
  have htidx : t.fidx = ([] : List Frame).length := (congrArg Device.fidx hdev).trans hidx
  obtain ⟨u, hfirst, hdevu, hpu⟩ := runAll_readFrame hpt htframes htidx hfs
  obtain ⟨w, hsecond, hdevw, -⟩ := runAll_readFrame (before := []) hpu
    ((congrArg Device.frames hdevu).trans htframes) (congrArg Device.fidx hdevu) hfs
  refine ⟨w, ?_, ?_⟩
  · rw [Nat.two_mul, ← List.replicate_append_replicate, runAll_append _ _ _ _ _ hadd,
      runAll_append _ _ _ _ _ hfirst, hsecond]
    simp
  · rw [hdevw, hdevu, hdev, hframes]; rfl

/-! Measurements (R324 to R326). -/

theorem exec_setMeas {s : State} (c : Nat) (v : Rat) (hp : s.phase ≠ .absent) :
    exec (.setMeas c v) s = .next (effSetMeas c v s.begin) :=
  exec_eq_next nofun hp rfl

theorem effSetMeas_of_unknown {s : State} {c : Nat} (v : Rat) (h : channelAt s.cfg.meas c = none) :
    effSetMeas c v s = s.fail (.unknownChannel c) := by
  unfold effSetMeas; rw [h]

theorem effSetMeas_of_within {s : State} {c : Nat} {v : Rat} {m : MeasDecl} (h : channelAt s.cfg.meas c = some m)
    (hlo : m.lo ≤ v) (hhi : v ≤ m.hi) : effSetMeas c v s = (s.setMeas c v).respond .ok := by
  unfold effSetMeas; simp only [h, if_pos (⟨hlo, hhi⟩ : m.lo ≤ v ∧ v ≤ m.hi)]

theorem not_within_of_outside {v : Rat} {m : MeasDecl} (h : v < m.lo ∨ m.hi < v) : ¬ (m.lo ≤ v ∧ v ≤ m.hi) :=
  fun ⟨hlo, hhi⟩ => h.elim (fun hlt => Rat.not_le.mpr hlt hlo) fun hlt => Rat.not_le.mpr hlt hhi

/-- A CLAMP channel takes the nearer bound (R325). -/
theorem effSetMeas_of_clamp {s : State} {c : Nat} {v : Rat} {m : MeasDecl} (h : channelAt s.cfg.meas c = some m)
    (hout : v < m.lo ∨ m.hi < v) (hpolicy : m.policy = .clamp) :
    effSetMeas c v s =
      ((s.setMeas c (if v < m.lo then m.lo else m.hi)).raise (.measClamped c v)).respond .ok := by
  unfold effSetMeas; simp only [h, if_neg (not_within_of_outside hout), hpolicy]

theorem effSetMeas_of_reject {s : State} {c : Nat} {v : Rat} {m : MeasDecl} (h : channelAt s.cfg.meas c = some m)
    (hout : v < m.lo ∨ m.hi < v) (hpolicy : m.policy = .reject) :
    effSetMeas c v s = s.fail (.measOutOfRange c v) := by
  unfold effSetMeas; simp only [h, if_neg (not_within_of_outside hout), hpolicy]

/-- A declared channel takes the value, and no other does (R324). -/
theorem measAt_setMeas {s : State} {c : Nat} {m : MeasDecl} (v : Rat) (hi : s.Inv)
    (h : channelAt s.cfg.meas c = some m) :
    measAt (s.setMeas c v).meas c = some v ∧ ∀ k, k ≠ c → measAt (s.setMeas c v).meas k = measAt s.meas k := by
  refine ⟨?_, fun k hk => ?_⟩
  · rw [State.setMeas_meas, measAt_measSet, if_pos ⟨rfl, isSome_measAt hi h⟩]
  · rw [State.setMeas_meas, measAt_measSet, if_neg fun hkc => hk hkc.1]

/-- Settles O53: the channel's declaration decides, and its bounds belong to its range. -/
theorem setMeasurement : Obligations.SetMeasurement := by
  intro s c v hp hi
  refine ⟨fun hnone => ?_, fun m hm hlo hhi => ?_⟩
  · rw [exec_setMeas c v hp, effSetMeas_of_unknown (s := s.begin) v hnone]; rfl
  · obtain ⟨htaken, hothers⟩ := measAt_setMeas (s := s.begin) v (inv_begin hi) hm
    exact ⟨_, (exec_setMeas c v hp).trans (congrArg _ (effSetMeas_of_within (s := s.begin) hm hlo hhi)),
      htaken, hothers, rfl⟩

/-- Settles O54: outside the bounds the policy decides; a clamped value is one that the channel takes. -/
theorem outOfRangeMeasurement : Obligations.OutOfRangeMeasurement := by
  intro s c v m hp hi hm _ hout
  refine ⟨fun hclamp => ?_, fun hreject => ?_⟩
  · obtain ⟨htaken, hothers⟩ := measAt_setMeas (s := s.begin) (if v < m.lo then m.lo else m.hi) (inv_begin hi) hm
    exact ⟨_, (exec_setMeas c v hp).trans (congrArg _ (effSetMeas_of_clamp (s := s.begin) hm hout hclamp)),
      htaken, hothers, rfl⟩
  · exact (exec_setMeas c v hp).trans (congrArg _ (effSetMeas_of_reject (s := s.begin) hm hout hreject))

end Sys2Proof.Machine
end

section
/-! Configuration and reset (R65, R180, R320, R329, R390, R391): registering commands, the checks of a
configuration, its failure, the power-on state and the explicit reset. -/
namespace Sys2Proof.Machine

/-! The command table (R250). -/

theorem commandAt_eq_none {cmds : List CmdEntry} {code : Code} (h : registered cmds code = false) :
    commandAt cmds code = none := by
  unfold registered at h
  exact List.find?_eq_none.mpr fun e he => by simpa using List.any_eq_false.mp h e he

/-- A new entry is found by its code, and every other code finds what it did before. -/
theorem commandAt_append (cmds : List CmdEntry) (e : CmdEntry) (code : Code) :
    commandAt (cmds ++ [e]) code = (commandAt cmds code).or (if e.code = code then some e else none) := by
  unfold commandAt
  rw [List.find?_append, List.find?_singleton]
  simp

/-- Settles O55: the phase decides, and in the configuration phase whether the code is new. -/
theorem registerCommand : Obligations.RegisterCommand := by
  intro s code wr rd
  refine ⟨fun hp hnew => ⟨_, exec_registerCmd_of_new hp hnew wr rd, ?added, fun k hk => ?others, rfl⟩,
    fun hp hdup => ⟨_, exec_registerCmd_of_registered hp hdup wr rd, rfl, rfl, rfl⟩,
    fun hp => exec_registerCmd_of_running hp code wr rd⟩
  case added => exact (commandAt_append _ _ code).trans (by rw [commandAt_eq_none hnew, if_pos rfl, Option.none_or])
  case others => exact (commandAt_append _ _ k).trans (by rw [if_neg hk.symm, Option.or_none])

/-! The checks of a configuration (R320). -/

/-- An accepted configuration is the one given, with the commands given, no two with one code. -/
theorem build_eq_ok {c c' : Cfg} {cmds : List CmdEntry} (h : Cfg.build c cmds = .ok c') :
    c' = { c with cmds := cmds } ∧ cmds.Pairwise fun e f => e.code ≠ f.code := by
  unfold Cfg.build at h
  have hspec := registerAll_spec cmds []
  split at h
  · split at h
    · cases hall : registerAll [] cmds with
      | error e => simp only [hall] at h; cases h
      | ok table =>
        rw [hall] at hspec
        obtain ⟨htable, -, hdistinct⟩ := hspec
        simp only [hall] at h
        split at h <;> cases h
        exact ⟨by rw [htable, List.nil_append], hdistinct⟩
    · cases h
  · cases h

/-- With the first two checks passed, a failed registration is the error of the whole (D44). -/
theorem build_of_registerAll_error {c : Cfg} {cmds : List CmdEntry} {e : CfgError} (hmap : Cfg.regmapOk c = true)
    (hcrc : Cfg.crcOk c = true) (h : registerAll [] cmds = .error e) : Cfg.build c cmds = .error e := by
  simp only [Cfg.build, hmap, hcrc, h, if_true]

/-- Commands of which two have one code are not all registered: the first repeated one fails. -/
theorem registerAll_of_duplicate {cmds : List CmdEntry} (h : ¬ cmds.Pairwise fun e f => e.code ≠ f.code) :
    ∃ pre x post, cmds = pre ++ x :: post ∧ registerAll [] cmds = .error (.duplicateCommand x.code) ∧
      (pre.Pairwise fun x y => x.code ≠ y.code) ∧ ∃ y ∈ pre, y.code = x.code := by
  cases hall : registerAll [] cmds with
  | ok table =>
    have hspec := registerAll_spec cmds []
    rw [hall] at hspec
    obtain ⟨-, -, hdistinct⟩ := hspec
    exact absurd hdistinct h
  | error e =>
    obtain ⟨pre, x, post, hsplit, rfl, hdistinct, hgiven⟩ := registerAll_error cmds [] e .nil hall
    exact ⟨pre, x, post, hsplit, rfl, hdistinct, hgiven⟩

theorem step_of_configure_error {s : State} {c : Cfg} {cmds : List CmdEntry} {rest : List Call} {e : CfgError}
    (hp : s.phase ≠ .running) (hinbox : s.inbox = .configure c cmds :: rest) (hb : Cfg.build c cmds = .error e) :
    step s = .next (State.discard { s with inbox := rest } e) :=
  (step_of_configure hinbox).trans (configure_of_error (s := { s with inbox := rest }) hp hb)

theorem step_of_configure_ok {s : State} {c c' : Cfg} {cmds : List CmdEntry} {rest : List Call}
    (hp : s.phase ≠ .running) (hinbox : s.inbox = .configure c cmds :: rest) (hb : Cfg.build c cmds = .ok c') :
    step s = .next (State.install { s with inbox := rest } c') :=
  (step_of_configure hinbox).trans (configure_of_ok (s := { s with inbox := rest }) hp hb)

/-- Settles O56: registering in order accepts exactly the tables with no code twice, and otherwise stops at the
first entry whose code stands before it. -/
theorem duplicateCommandsFailSetup : Obligations.DuplicateCommandsFailSetup := by
  refine ⟨fun c c' cmds h => build_eq_ok h, fun s c cmds rest hp hinbox hmap hcrc hdup => ?_⟩
  obtain ⟨pre, x, post, hsplit, hall, hdistinct, hgiven⟩ := registerAll_of_duplicate hdup
  exact ⟨_, x.code, step_of_configure_error hp hinbox (build_of_registerAll_error hmap hcrc hall), rfl, rfl,
    pre, x, post, hsplit, rfl, hdistinct, hgiven⟩

/-- Settles O57: a failed configuration is discarded with its commands, and a failed host operation has no effect
but the answer. -/
theorem failureIsAllOrNothing : Obligations.FailureIsAllOrNothing := by
  refine ⟨fun s c cmds rest e hp hinbox hb => ?configure, fun s t code wr rd e h herror => ?register,
    fun s t i e h hport herror => ?host⟩
  case configure =>
    exact ⟨_, step_of_configure_error hp hinbox hb, rfl, rfl, rfl, exec_of_absent rfl⟩
  case register =>
    obtain ⟨-, rfl | rfl⟩ := exec_registerCmd_inv h
    · exact ⟨rfl, rfl, exec_of_absent rfl⟩
    · cases herror
  case host =>
    obtain ⟨-, rfl⟩ | ⟨code, wr, rd, rfl, -, -⟩ := exec_inv h
    · exact (effect_eq_fail s.begin_resp herror).2
    · cases hport

/-! Power-on and reset. -/

/-- At power-on every channel has its initial value (R65, R324). -/
theorem measAt_powerOn (c : Cfg) (k : Nat) : measAt (powerOn c).meas k = (channelAt c.meas k).map MeasDecl.init := by
  show measAt (c.meas.map fun m => (m.id, m.init)) k = (channelAt c.meas k).map MeasDecl.init
  unfold channelAt
  induction c.meas with
  | nil => rfl
  | cons m ms ih =>
    rw [List.map_cons, measAt, List.find?_cons]
    by_cases hm : m.id = k
    · rw [if_pos hm, beq_iff_eq.mpr hm]; rfl
    · rw [if_neg hm, beq_eq_false_iff_ne.mpr hm, ih]

theorem exec_reset {s : State} (hp : s.phase ≠ .absent) : exec .reset s = .next (effReset s.begin) :=
  exec_eq_next nofun hp rfl

/-- Settles O58: the configuration installs the power-on device, whose fields a reset sets to what they are. -/
theorem powerOnState : Obligations.PowerOnState := by
  intro s c c' cmds rest hp hinbox hb
  exact ⟨_, _, step_of_configure_ok hp hinbox hb, cellAt_resetStore c', measAt_powerOn c', rfl, exec_reset nofun, rfl⟩

/-- Settles O59: the storage after a reset is that of power-on. -/
theorem resetRestoresTheRegisters : Obligations.ResetRestoresTheRegisters :=
  fun s hp => ⟨_, exec_reset hp, cellAt_resetStore s.cfg, rfl, rfl, rfl, rfl⟩

/-- Settles O60: the effect of a reset, field by field. -/
theorem resetClearsAndKeeps : Obligations.ResetClearsAndKeeps :=
  fun _ hp => ⟨_, exec_reset hp, rfl⟩

end Sys2Proof.Machine
end
